-- ==== Sys2Proof/Word.lean ====
section
/-!
DEFINITION. The word types of the HOPE-114 cipher core (spec/00_scope.md R6, R8).
-/

namespace Sys2Proof

/-- Eight bits: one byte of a key, nonce, block or tag (R8). -/
abbrev Byte := BitVec 8

/-- Thirty-two bits: a register of the window, a command word, a round key (R6, R23). -/
abbrev Word := BitVec 32

/-- 128 bits: a block, a key, a tag, a hash value, a counter block (R8). Byte 0 is bits 127:120. -/
abbrev Block := BitVec 128

end Sys2Proof
end

