-- ==== Sys2Proof/Syntax.lean ====
section
/-!
DEFINITION. The commands of the core: one constructor per row of spec/opcode_table.json (spec/30_encoding.md R94).
-/

namespace Sys2Proof

/-- A command. `nb` is the NB field of R92, the byte count of a data chunk, as the five bits the word holds. -/
inductive Instr where
  | nop
  | keyExpand
  | ctxClear
  | blockEnc
  | blockDec
  | batch4Enc
  | batch4Dec
  | ghashInit
  | ghashUpdate
  | ghashSeth
  | hashkeyDerive
  | aeadInitEnc
  | aeadInitDec
  | aeadAad (nb : BitVec 5)
  | aeadEnc (nb : BitVec 5)
  | aeadDec (nb : BitVec 5)
  | aeadFinal
  | aeadPtRead
  | aeadAbort
  | aeadEnc4
  | aeadDec4
  deriving DecidableEq, Repr

end Sys2Proof
end

