-- ==== Sys2Proof/WellFormed.lean ====
section
/-!
DEFINITION. Which commands the encoding admits (spec/30_encoding.md R92, R95).
-/

namespace Sys2Proof

/-- The chunk length of a command that takes one (R92), else none. -/
def Instr.chunk? : Instr → Option (BitVec 5)
  | .aeadAad nb => some nb
  | .aeadEnc nb => some nb
  | .aeadDec nb => some nb
  | .nop | .keyExpand | .ctxClear | .blockEnc | .blockDec | .batch4Enc | .batch4Dec | .ghashInit | .ghashUpdate
  | .ghashSeth | .hashkeyDerive | .aeadInitEnc | .aeadInitDec | .aeadFinal | .aeadPtRead | .aeadAbort | .aeadEnc4
  | .aeadDec4 => none

/-- R92: the legal range of NB is 0 to 16. The one check the syntax leaves to make: the commands without a chunk
have no operand. -/
def Instr.wellFormed (i : Instr) : Bool :=
  match i.chunk? with
  | some nb => nb.toNat ≤ 16
  | none => true

end Sys2Proof
end

