-- ==== Sys2Proof/Decode.lean ====
section
/-!
DEFINITION. The command word: decoder and encoder (spec/30_encoding.md R90 to R96).
-/

namespace Sys2Proof

/-- Why a command word is illegal (R95). -/
inductive Illegal where
  /-- RSV = w[31:13] is not 0 (R93). -/
  | reservedBits
  /-- OP is not listed in R94. -/
  | reservedOpcode
  /-- A chunk command with NB = 17..31 (R92). -/
  | chunkTooLong
  /-- NB ≠ 0 in a command that takes no chunk (R92). -/
  | chunkNotTaken
  deriving DecidableEq, Repr

/-- What decoding a word gives: a command, or the reason it is illegal. -/
inductive Decoded where
  | instr (i : Instr)
  | illegal (r : Illegal)
  deriving DecidableEq, Repr

/-- w[7:0], the opcode field (R90). -/
def opField (w : Word) : Byte := w.extractLsb' 0 8

/-- w[12:8], the chunk length field (R90, R92). -/
def nbField (w : Word) : BitVec 5 := w.extractLsb' 8 5

/-- w[31:13], the reserved field (R90, R93). -/
def rsvField (w : Word) : BitVec 19 := w.extractLsb' 13 19

/-- The commands of R94 that take a chunk length: 0x32, 0x33, 0x34. -/
def chunkCommand? (op : Byte) (nb : BitVec 5) : Option Instr :=
  match op with
  | 0x32#8 => some (.aeadAad nb)
  | 0x33#8 => some (.aeadEnc nb)
  | 0x34#8 => some (.aeadDec nb)
  | _ => none

/-- The commands of R94 that take none. -/
def plainCommand? (op : Byte) : Option Instr :=
  match op with
  | 0x00#8 => some .nop
  | 0x01#8 => some .keyExpand
  | 0x02#8 => some .ctxClear
  | 0x10#8 => some .blockEnc
  | 0x11#8 => some .blockDec
  | 0x12#8 => some .batch4Enc
  | 0x13#8 => some .batch4Dec
  | 0x20#8 => some .ghashInit
  | 0x21#8 => some .ghashUpdate
  | 0x22#8 => some .ghashSeth
  | 0x23#8 => some .hashkeyDerive
  | 0x30#8 => some .aeadInitEnc
  | 0x31#8 => some .aeadInitDec
  | 0x35#8 => some .aeadFinal
  | 0x36#8 => some .aeadPtRead
  | 0x37#8 => some .aeadAbort
  | 0x38#8 => some .aeadEnc4
  | 0x39#8 => some .aeadDec4
  | _ => none

/-- R96. Total: every word is a command or illegal. -/
def decode (w : Word) : Decoded :=
  if rsvField w ≠ 0 then .illegal .reservedBits
  else
    match chunkCommand? (opField w) (nbField w) with
    | some i => if 16 < (nbField w).toNat then .illegal .chunkTooLong else .instr i
    | none =>
      match plainCommand? (opField w) with
      | some i => if nbField w ≠ 0 then .illegal .chunkNotTaken else .instr i
      | none => .illegal .reservedOpcode

/-- The OP column of R94. -/
def Instr.opcode : Instr → Byte
  | .nop => 0x00#8
  | .keyExpand => 0x01#8
  | .ctxClear => 0x02#8
  | .blockEnc => 0x10#8
  | .blockDec => 0x11#8
  | .batch4Enc => 0x12#8
  | .batch4Dec => 0x13#8
  | .ghashInit => 0x20#8
  | .ghashUpdate => 0x21#8
  | .ghashSeth => 0x22#8
  | .hashkeyDerive => 0x23#8
  | .aeadInitEnc => 0x30#8
  | .aeadInitDec => 0x31#8
  | .aeadAad _ => 0x32#8
  | .aeadEnc _ => 0x33#8
  | .aeadDec _ => 0x34#8
  | .aeadFinal => 0x35#8
  | .aeadPtRead => 0x36#8
  | .aeadAbort => 0x37#8
  | .aeadEnc4 => 0x38#8
  | .aeadDec4 => 0x39#8

/-- R90: RSV = 0, NB, OP. -/
def encode (i : Instr) : Word := 0#19 ++ i.chunk?.getD 0#5 ++ i.opcode

/-- The command the decoder reads from a table row's word: `nbits` bits of `w`, every bit above them 0. A command is one
32-bit word (R90), so the word is the value itself. -/
def decodeTableWord (nbits w : Nat) : Option Instr :=
  let v := w % 2 ^ nbits
  if v < 2 ^ 32 then
    match decode (BitVec.ofNat 32 v) with
    | .instr i => some i
    | .illegal _ => none
  else none

end Sys2Proof
end

