-- ==== Sys2Proof/Machine/Bits.lean ====
section
/-!
DEFINITION. Byte order, masks, rotations and the counter increment (spec/00_scope.md R7, R8, R9; spec/44_aead.md R181).
-/

namespace Sys2Proof.Machine

/-- words(blk)[i] (R8): word 0 is bits 127:96. -/
def wordOf (blk : Block) (i : Fin 4) : Word := blk.extractLsb' (96 - 32 * i.val) 32

/-- unwords (R8): the first word supplies the high bits. -/
def unwords (w0 w1 w2 w3 : Word) : Block := w0 ++ w1 ++ w2 ++ w3

/-- The 128-bit value held by a group of four registers (R8, R79). -/
def blockOfWords (v : Vector Word 4) : Block := unwords v[0] v[1] v[2] v[3]

/-- B[i] of a block (R8): byte 0 is bits 127:120. -/
def byteOf (blk : Block) (i : Nat) : Byte := blk.extractLsb' (120 - 8 * i) 8

/-- rotl on a 32-bit word (R7). -/
def rotl (a : Word) (n : Nat) : Word := a.rotateLeft n

/-- mask_nb (R9): bytes B[0]..B[nb-1] kept, the others 0. -/
def maskNb (blk : Block) (nb : Nat) : Block :=
  if nb = 0 then 0 else blk &&& (BitVec.allOnes 128 <<< (8 * (16 - nb)))

/-- inc32 (R181): the low 32 bits count modulo 2^32, the nonce portion stays. -/
def inc32 (c : Block) : Block := c.extractLsb' 32 96 ++ (c.extractLsb' 0 32 + 1#32)

end Sys2Proof.Machine
end

