-- ==== Sys2Proof/Config.lean ====
section
/-!
DEFINITION. What the spec leaves open: the parameters of spec/00_scope.md R5 and the free value of spec/20_memory.md R75.
Each is a constant without a body, so nothing can be proved of its value.
-/

namespace Sys2Proof

/-- The capacity of PBUF less one block. R5: 1 ≤ PBUF_BLOCKS ≤ 65535. -/
opaque Config.pbufSpare : Fin 65535

/-- PBUF_BLOCKS (R5), the capacity of the plaintext buffer of this core in 16-byte blocks: its CAPS register at reset.
DESIGN CHOICE, safe: log 6. -/
def Config.pbufBlocks : BitVec 16 := BitVec.ofNat 16 (Config.pbufSpare.val + 1)

/-- BASE in units of the window's size. R5: BASE is any address aligned to 0x400. -/
opaque Config.window : Nat

/-- BASE (R5): the bus address of register offset 0x000. DESIGN CHOICE, safe: log 7. -/
def Config.base : Nat := 0x400 * Config.window

/-- The values a read returns while BUSY = 1 (spec/20_memory.md R75): a free draw, one for each number of draws taken
before it. DESIGN CHOICE, safe: log 5. -/
opaque Config.freeWord : Nat → Word

/-- LAT less one cycle, by opcode and CTX_STRATEGY: spec/70_reset_and_hazards.md R276 lets it depend on nothing else. -/
opaque Config.latencySpare : BitVec 8 → BitVec 2 → Nat

/-- LAT(op) (R5, spec/70_reset_and_hazards.md R275): a positive number of cycles. No step reads it, since no rule of the
model depends on it. DESIGN CHOICE, unsafe for claims about time: log 13. -/
def Config.latency (op : BitVec 8) (strategy : BitVec 2) : Nat := Config.latencySpare op strategy + 1

end Sys2Proof
end

