-- ==== Sys2Proof/Machine/State.lean ====
section
/-!
DEFINITION. The state of the core (spec/10_state.md), its reasons to stop, and its reset state (spec/70_reset_and_hazards.md
R260). Field by field it is the list under "State" in INVENTORY.md.
-/

namespace Sys2Proof.Machine

/-- Why a run is outside the spec (spec/60_exceptions.md R238). -/
inductive Fault where
  /-- STATUS.ERR = 5 is reported (R236): raised by a host read of STATUS while idle, and by the end of a run. SAFE: the
  model stops where the spec makes no claim (DEDUCED: log 9). -/
  | internalInvariant
  /-- STATUS.ERR = 10..15 is reported (R230, R238): raised as `internalInvariant` is. SAFE for the same reason. -/
  | reservedErrorCode
  deriving DecidableEq, Repr

/-- Why a step has no transition (spec/60_exceptions.md R238). -/
inductive Refusal where
  /-- The command has no meaning yet. No arm of exec answers so. SAFE. -/
  | notModelled (mnemonic : String)
  /-- A host access that is not 32 bits wide (spec/20_memory.md R73), raised by a host read or write. SAFE. (The order of
  this reason and the next two is a DESIGN CHOICE: log 10.) -/
  | accessWidth
  /-- A host access not aligned to 4 bytes (R73), raised by a host read or write. SAFE. -/
  | accessMisaligned
  /-- A host access at an offset of 0x400 or more (R73, R238), raised by a host read or write. SAFE. -/
  | accessOutsideWindow
  /-- A host access while reset is asserted (spec/70_reset_and_hazards.md R261), raised by that event. SAFE. -/
  | accessDuringReset
  deriving DecidableEq, Repr

/-- The four round-function strategies (spec/10_state.md R31). -/
inductive Strategy where
  | reference
  | precomputedTable
  | vectorBatch
  | hardwareAssisted
  deriving DecidableEq, Repr

/-- The state of the AEAD message machine (R34). -/
inductive Phase where
  | idle
  | encAad
  | encData
  | encDone
  | decAad
  | decData
  | decVerified
  | failed
  deriving DecidableEq, Repr

/-- The fields of STATUS (R25) but BUSY, which holds exactly while a command is pending (R26, R57). -/
structure Status where
  done : Bool
  ovr : Bool
  err : BitVec 4
  keyValid : Bool
  hValid : Bool
  authOk : Bool
  partialChunk : Bool
  phase : Phase
  ctxStrategy : Strategy
  deriving DecidableEq, Repr

/-- The fields of CFG (R31). -/
structure Cfg where
  strategy : Strategy
  keyLen : BitVec 5
  nonceLen : BitVec 5
  tagLen : BitVec 5
  deriving DecidableEq, Repr

/-- PBUF (R56): the entries that are not zero, as pairs of index and block, indices strictly rising. An index that is not
listed holds 0. DESIGN CHOICE, safe: log 8. -/
abbrev Pbuf := List (Nat × Block)

/-- A host access: its width in bytes and its byte offset from BASE (spec/20_memory.md R71, R72). -/
structure Access where
  width : Nat
  off : Nat
  deriving DecidableEq, Repr

/-- What can happen next (spec/60_exceptions.md R231, R241, spec/70_reset_and_hazards.md R261, R273). -/
inductive Event where
  /-- The core's turn: EXEC if it is enabled. -/
  | coreTurn
  /-- A host read. -/
  | read (a : Access)
  /-- A host write of `v`. -/
  | write (a : Access) (v : Word)
  /-- RESET. -/
  | reset
  /-- A host access that arrives while reset is asserted. -/
  | accessInReset (a : Access)
  deriving DecidableEq, Repr

/-- The model's own fields: the agents around the core. Hosts are not told apart: DESIGN CHOICE, safe: log 17. -/
structure HostSide where
  /-- What the host, the core and the platform do next, in order: the free choice of R231. DESIGN CHOICE,
  safe: log 2. -/
  schedule : List Event
  /-- The values the host's reads have returned, newest first: the observation of R273. DESIGN CHOICE, safe: log 20. -/
  observed : List Word
  /-- How many free draws (spec/20_memory.md R75) have been taken. -/
  draws : Nat
  deriving DecidableEq, Repr

/-- The machine: the registers of R23, the internal state of R48 to R57, and the host's side. -/
structure State where
  /-- PENDING (R57); BUSY = 1 exactly while it holds a word. DEDUCED, safe: log 1. -/
  pending : Option Word
  /-- CMD (R24). -/
  cmd : Word
  /-- STATUS (R25). -/
  status : Status
  /-- CFG (R31). -/
  cfg : Cfg
  /-- KEY0..KEY3 (R35). -/
  key : Vector Word 4
  /-- NONCE0..NONCE2 (R36). -/
  nonce : Vector Word 3
  /-- TAGIN0..TAGIN3 (R39). -/
  tagin : Vector Word 4
  /-- DIN[l][w] (R37). -/
  din : Vector (Vector Word 4) 4
  /-- DOUT[l] (R38). -/
  dout : Vector Block 4
  /-- HKEYIN0..HKEYIN3 (R40). -/
  hkeyin : Vector Word 4
  /-- RK[0..31] (R48). -/
  rk : Vector Word 32
  /-- H (R49). -/
  h : Block
  /-- X (R50), shown in GHASH0..GHASH3 (R41). -/
  x : Block
  /-- J0 (R51). -/
  j0 : Block
  /-- CTR (R52), shown in CTR0..CTR3 (R44). -/
  ctr : Block
  /-- AADLEN (R53), shown in AADLEN_HI/LO (R43). -/
  aadlen : BitVec 64
  /-- CTLEN (R53), shown in CTLEN_HI/LO (R43). -/
  ctlen : BitVec 64
  /-- TAGV (R54), shown in TAG0..TAG3 (R42). -/
  tagv : Block
  /-- TAGLEN_L (R55). -/
  taglenL : BitVec 5
  /-- PBUF (R56). -/
  pbuf : Pbuf
  /-- PB_COUNT (R56, R45). -/
  pbCount : BitVec 16
  /-- PB_RDPTR (R56, R45). -/
  pbRdptr : BitVec 16
  /-- PBUF_BLOCKS, the contents of CAPS (R47): no step changes it. -/
  pbufBlocks : BitVec 16
  /-- The host's side. -/
  host : HostSide
  deriving DecidableEq, Repr

/-- STATUS at reset: 0x00000000 (R260). -/
def Status.reset : Status where
  done := false
  ovr := false
  err := 0
  keyValid := false
  hValid := false
  authOk := false
  partialChunk := false
  phase := .idle
  ctxStrategy := .reference

/-- CFG at reset: 0x100C1000 (R260). -/
def Cfg.reset : Cfg where
  strategy := .reference
  keyLen := 16
  nonceLen := 12
  tagLen := 16

/-- The state right after reset (R260), with nothing yet to happen (the values of `host`: DESIGN CHOICE, unsafe: log 4). -/
def State.reset : State where
  pending := none
  cmd := 0
  status := Status.reset
  cfg := Cfg.reset
  key := Vector.replicate 4 0
  nonce := Vector.replicate 3 0
  tagin := Vector.replicate 4 0
  din := Vector.replicate 4 (Vector.replicate 4 0)
  dout := Vector.replicate 4 0
  hkeyin := Vector.replicate 4 0
  rk := Vector.replicate 32 0
  h := 0
  x := 0
  j0 := 0
  ctr := 0
  aadlen := 0
  ctlen := 0
  tagv := 0
  taglenL := 16
  pbuf := []
  pbCount := 0
  pbRdptr := 0
  pbufBlocks := Config.pbufBlocks
  host := { schedule := [], observed := [], draws := 0 }

/-- What a step answers. -/
abbrev Result := Host.Outcome State Fault Refusal

end Sys2Proof.Machine
end

