-- ==== Sys2Proof/Machine/Cipher.lean ====
section
/-!
DEFINITION. The block cipher: substitution, diffusion, the four strategies (spec/40_substitution_diffusion.md), the key
schedule (spec/41_key_schedule.md) and the round network (spec/42_block_cipher.md).
-/

namespace Sys2Proof.Machine

/-- The rows of the SBOX table of R111, column 0 first. PRESUMED by the spec itself, unsafe: log 14. -/
def sboxRows : List Block := [
  0xD690E9FECCE13DB716B614C228FB2C05,
  0x2B679A762ABE04C3AA44132649860699,
  0x9C4250F491EF987A33540B43EDCFAC62,
  0xE4B31CA9C908E89580DF94FA758F3FA6,
  0x4707A7FCF37317BA83593C19E6854FA8,
  0x686B81B27164DA8BF8EB0F4B70569D35,
  0x1E240E5E6358D1A225227C3B01217887,
  0xD40046579FD327524C3602E7A0C4C89E,
  0xEABF8AD240C738B5A3F7F2CEF96115A1,
  0xE0AE5DA49B341A55AD933230F58CB1E3,
  0x1DF6E22E8266CA60C02923AB0D534E6F,
  0xD5DB3745DEFD8E2F03FF6A726D6C5B51,
  0x8D1BAF92BBDDBC7F11D95C411F105AD8,
  0x0AC13188A5CD7BBD2D74D012B8E5B4B0,
  0x8969974A0C96777E65B9F109C56EC684,
  0x18F07DEC3ADC4D2079EE5F3ED7CB3948]

/-- SUB_h[l] (R118): entry `l` of row `h` of the table, SBOX[16·h + l]. -/
def subTable (h l : Nat) : Byte := byteOf (sboxRows.getD h 0) l

/-- SBOX[b] (R111). -/
def sbox (b : Byte) : Byte := subTable (b.toNat / 16) (b.toNat % 16)

/-- SubstitutionStage through a byte substitution (R110). -/
def substitute (f : Byte → Byte) (a : Word) : Word :=
  f (a.extractLsb' 24 8) ++ f (a.extractLsb' 16 8) ++ f (a.extractLsb' 8 8) ++ f (a.extractLsb' 0 8)

/-- tau (R110). -/
def tau (a : Word) : Word := substitute sbox a

/-- L, the DiffusionStage (R112). -/
def diffuse (b : Word) : Word := b ^^^ rotl b 2 ^^^ rotl b 10 ^^^ rotl b 18 ^^^ rotl b 24

/-- L', the diffusion of the key schedule (R114). -/
def diffuseKey (b : Word) : Word := b ^^^ rotl b 13 ^^^ rotl b 23

/-- T, the RoundFunction, which is the Reference strategy (R113). -/
def roundT (a : Word) : Word := diffuse (tau a)

/-- T', the transform of the key schedule (R114). -/
def keyT (a : Word) : Word := diffuseKey (tau a)

/-- Tj[b], the precomputed tables (R115). -/
def tTable (j : Nat) (b : Byte) : Word := diffuse ((sbox b).setWidth 32 <<< (24 - 8 * j))

/-- T_table (R116), the Precomputed-table round function; each lane of Vector-batch computes it too (R117). -/
def roundTable (a : Word) : Word :=
  tTable 0 (a.extractLsb' 24 8) ^^^ tTable 1 (a.extractLsb' 16 8) ^^^ tTable 2 (a.extractLsb' 8 8)
    ^^^ tTable 3 (a.extractLsb' 0 8)

/-- sbox_small (R118): every sub-table is read at the low nibble, and the one whose index is the high nibble is kept. -/
def sboxSmall (b : Byte) : Byte :=
  (List.range 16).foldl
    (fun r h => r ||| (subTable h (b.toNat % 16) &&& (if h = b.toNat / 16 then 0xFF#8 else 0x00#8))) 0#8

/-- T_small (R118), the Hardware-assisted round function. -/
def roundSmall (a : Word) : Word := diffuse (substitute sboxSmall a)

/-- The round function each strategy runs (R113, R116, R117, R118). -/
def roundOf : Strategy → Word → Word
  | .reference => roundT
  | .precomputedTable => roundTable
  | .vectorBatch => roundTable
  | .hardwareAssisted => roundSmall

/-- The window of four words that a round shifts (R22, R133, R141). -/
structure Window where
  w0 : Word
  w1 : Word
  w2 : Word
  w3 : Word
  deriving DecidableEq, Repr

/-- The window shifted left, `new` appended. -/
def Window.shift (w : Window) (new : Word) : Window := ⟨w.w1, w.w2, w.w3, new⟩

/-- FK, the system constants (R131). PRESUMED by the spec itself, unsafe: log 14. -/
def fk0 : Word := 0xA3B1BAC6
def fk1 : Word := 0x56AA3350
def fk2 : Word := 0x677D9197
def fk3 : Word := 0xB27022DC

/-- CK[0..31], the round constants (R132), as the table lists them. PRESUMED by the spec itself, unsafe: log 14. -/
def ckTable : List Word := [
  0x00070E15, 0x1C232A31, 0x383F464D, 0x545B6269, 0x70777E85, 0x8C939AA1, 0xA8AFB6BD, 0xC4CBD2D9,
  0xE0E7EEF5, 0xFC030A11, 0x181F262D, 0x343B4249, 0x50575E65, 0x6C737A81, 0x888F969D, 0xA4ABB2B9,
  0xC0C7CED5, 0xDCE3EAF1, 0xF8FF060D, 0x141B2229, 0x30373E45, 0x4C535A61, 0x686F767D, 0x848B9299,
  0xA0A7AEB5, 0xBCC3CAD1, 0xD8DFE6ED, 0xF4FB0209, 0x10171E25, 0x2C333A41, 0x484F565D, 0x646B7279]

/-- One round of the key schedule (R133): the round key. -/
def keyRound (ck : Word) (w : Window) : Word := w.w0 ^^^ keyT (w.w1 ^^^ w.w2 ^^^ w.w3 ^^^ ck)

/-- The rounds of the key schedule (R133), a round key for each round constant. -/
def keyRounds : List Word → Window → List Word
  | [], _ => []
  | ck :: cks, w => keyRound ck w :: keyRounds cks (w.shift (keyRound ck w))

theorem keyRounds_length (cks : List Word) (w : Window) : (keyRounds cks w).length = cks.length := by
  induction cks generalizing w with
  | nil => rfl
  | cons ck cks ih => simp [keyRounds, ih]

/-- The window the key schedule starts from (R133): MK xor FK. -/
def keyWindow (mk : Vector Word 4) : Window := ⟨mk[0] ^^^ fk0, mk[1] ^^^ fk1, mk[2] ^^^ fk2, mk[3] ^^^ fk3⟩

/-- KS (R133): the 32 round keys in derivation order. Irreducible, as `encryptBlock` and `decryptBlock` are, so that no
proof runs the rounds by accident; `unfold` still opens it, and the kernel evaluates it. -/
@[irreducible] def keySchedule (mk : Vector Word 4) : Vector Word 32 :=
  ⟨(keyRounds ckTable (keyWindow mk)).toArray, by rw [List.size_toArray, keyRounds_length]; rfl⟩

/-- One round of the network (R141), with the round function `f`. -/
def cipherRound (f : Word → Word) (w : Window) (k : Word) : Window :=
  w.shift (w.w0 ^^^ f (w.w1 ^^^ w.w2 ^^^ w.w3 ^^^ k))

/-- The block loaded as big-endian words X0..X3 (R140). -/
def windowOf (blk : Block) : Window := ⟨wordOf blk 0, wordOf blk 1, wordOf blk 2, wordOf blk 3⟩

/-- The final words emitted in reverse order (R140). -/
def Window.emit (w : Window) : Block := unwords w.w3 w.w2 w.w1 w.w0

/-- N (R141), with the round function `f`. -/
def networkWith (f : Word → Word) (keys : List Word) (blk : Block) : Block :=
  (keys.foldl (cipherRound f) (windowOf blk)).emit

/-- N (R141). -/
def network (keys : List Word) (blk : Block) : Block := networkWith roundT keys blk

/-- E (R142): the round keys in derivation order. -/
@[irreducible] def encryptBlock (rk : Vector Word 32) (blk : Block) : Block := network rk.toList blk

/-- D (R143): the round keys reversed. -/
@[irreducible] def decryptBlock (rk : Vector Word 32) (blk : Block) : Block := network rk.toList.reverse blk

end Sys2Proof.Machine
end

