-- ==== Sys2Proof/Machine/Field.lean ====
section
/-!
DEFINITION. The field GF(2^128) and GHASH (spec/43_ghash.md R160 to R164).
-/

namespace Sys2Proof.Machine

/-- x^128 mod P under the representation of R160 (R162). -/
def gfPoly : Block := 0xE1000000000000000000000000000000

/-- V · x mod P: a right shift under this bit order (R162). -/
def gfTimesX (v : Block) : Block := if v.getLsbD 0 then (v >>> 1) ^^^ gfPoly else v >>> 1

/-- The last `n` rounds of R162's loop: round i = 127 - m looks at bit m of A, the coefficient a_i. -/
def gfLoop (a : Block) : Nat → Block → Block → Block
  | 0, z, _ => z
  | m + 1, z, v => gfLoop a m (if a.getLsbD m then z ^^^ v else z) (gfTimesX v)

/-- gf_mul (R162). Irreducible, so that no proof runs the loop by accident; `unfold gfMul` still opens it, and the kernel
evaluates it. -/
@[irreducible] def gfMul (a b : Block) : Block := gfLoop a 128 0 b

/-- GHASH under the subkey `h` (R164). -/
def ghash (h : Block) (blocks : List Block) : Block := blocks.foldl (fun x c => gfMul (x ^^^ c) h) 0

end Sys2Proof.Machine
end

