-- ==== Sys2Proof/Machine/Flags.lean ====
section
/-!
DEFINITION. The fields of STATUS, CFG and PBUF_INFO as the host sees them, the result codes, and the conditions commands
check (spec/10_state.md R25 to R34, R45, R47; spec/60_exceptions.md R230).
-/

namespace Sys2Proof.Machine

/-- The result codes a command can end with (R230). Code 5 is not among them: no command raises it (R236). -/
inductive ErrCode where
  | ok
  | invalidKeyLength
  | invalidNonceLength
  | authenticationFailure
  | bufferTooSmall
  | illegalCommand
  | keyNotLoaded
  | sequenceError
  | hashKeyNotLoaded
  deriving DecidableEq, Repr

/-- The code column of R230. -/
def ErrCode.code : ErrCode → BitVec 4
  | .ok => 0
  | .invalidKeyLength => 1
  | .invalidNonceLength => 2
  | .authenticationFailure => 3
  | .bufferTooSmall => 4
  | .illegalCommand => 6
  | .keyNotLoaded => 7
  | .sequenceError => 8
  | .hashKeyNotLoaded => 9

/-- The fault of a device that reports this ERR value, if it is one no command writes (R236, R238). -/
def reportedFault (err : BitVec 4) : Option Fault :=
  if err = 5 then some .internalInvariant else if 10 ≤ err.toNat then some .reservedErrorCode else none

/-- The PHASE value of R34. -/
def Phase.code : Phase → BitVec 3
  | .idle => 0
  | .encAad => 1
  | .encData => 2
  | .encDone => 3
  | .decAad => 4
  | .decData => 5
  | .decVerified => 6
  | .failed => 7

/-- The in-message phases (R34), IN_MSG of spec/44_aead.md. -/
def Phase.inMessage : Phase → Bool
  | .encAad | .encData | .decAad | .decData => true
  | .idle | .encDone | .decVerified | .failed => false

/-- The STRATEGY value of R31. -/
def Strategy.code : Strategy → BitVec 2
  | .reference => 0
  | .precomputedTable => 1
  | .vectorBatch => 2
  | .hardwareAssisted => 3

/-- The strategy of a STRATEGY value (R31): all four values are legal. -/
def Strategy.ofCode (c : BitVec 2) : Strategy :=
  match c with
  | 0#2 => .reference
  | 1#2 => .precomputedTable
  | 2#2 => .vectorBatch
  | _ => .hardwareAssisted

/-- STATUS.BUSY (R26, R57). -/
def State.busy (s : State) : Bool := s.pending.isSome

/-- One bit of a register. -/
def bit (b : Bool) : BitVec 1 := BitVec.ofBool b

/-- STATUS (R25). -/
def State.statusWord (s : State) : Word :=
  0#14 ++ s.status.ctxStrategy.code ++ 0#1 ++ s.status.phase.code ++ bit s.status.partialChunk ++ bit s.status.authOk
    ++ bit s.status.hValid ++ bit s.status.keyValid ++ s.status.err ++ 0#1 ++ bit s.status.ovr ++ bit s.status.done
    ++ bit s.busy

/-- STATUS while BUSY = 1 (spec/20_memory.md R75): BUSY = 1, DONE = 0, OVR, and the draw everywhere else
(DESIGN CHOICE, safe: log 5). -/
def drawnStatus (draw : Word) (ovr : Bool) : Word := draw.extractLsb' 3 29 ++ bit ovr ++ 0#1 ++ 1#1

/-- CFG (R31). -/
def Cfg.word (c : Cfg) : Word :=
  0#3 ++ c.tagLen ++ 0#3 ++ c.nonceLen ++ 0#3 ++ c.keyLen ++ 0#6 ++ c.strategy.code

/-- The write of CFG (R31): TAGLEN keeps its value where the written one is not legal. -/
def Cfg.write (c : Cfg) (v : Word) : Cfg where
  strategy := Strategy.ofCode (v.extractLsb' 0 2)
  keyLen := v.extractLsb' 8 5
  nonceLen := v.extractLsb' 16 5
  tagLen :=
    if 1 ≤ (v.extractLsb' 24 5).toNat ∧ (v.extractLsb' 24 5).toNat ≤ 16 then v.extractLsb' 24 5 else c.tagLen

/-- PBUF_INFO (R45). -/
def State.pbufInfo (s : State) : Word := s.pbRdptr ++ s.pbCount

/-- CAPS (R47). -/
def State.capsWord (s : State) : Word := 0#16 ++ s.pbufBlocks

/-- AEAD_AAD is legal (spec/44_aead.md R186). -/
def State.takesAad (s : State) : Bool :=
  (s.status.phase == .encAad || s.status.phase == .decAad) && !s.status.partialChunk

/-- AEAD_ENC and AEAD_ENC4 are legal (R187, R188). -/
def State.takesPlaintext (s : State) : Bool :=
  s.status.phase == .encAad || (s.status.phase == .encData && !s.status.partialChunk)

/-- AEAD_DEC and AEAD_DEC4 are legal (R190, R191). -/
def State.takesCiphertext (s : State) : Bool :=
  s.status.phase == .decAad || (s.status.phase == .decData && !s.status.partialChunk)

/-- AEAD_PT_READ has a verified block left to release (R194). -/
def State.hasVerifiedBlock (s : State) : Bool :=
  s.status.phase == .decVerified && decide (s.pbRdptr.toNat < s.pbCount.toNat)

end Sys2Proof.Machine
end

