-- ==== Sys2Proof/Machine/Operands.lean ====
section
/-!
DEFINITION. The operands of the commands: the staging registers as blocks, the chunk operand, the blocks a message is made
of (spec/10_state.md R35 to R40; spec/30_encoding.md R92; spec/44_aead.md R182, R183).
-/

namespace Sys2Proof.Machine

/-- DIN[l] as a 128-bit block (R37). -/
def State.dinBlock (s : State) (l : Fin 4) : Block := blockOfWords s.din[l]

/-- The operand of a chunk command: DIN lane 0 masked to NB bytes (R92). -/
def State.chunk (s : State) (nb : BitVec 5) : Block := maskNb (s.dinBlock 0) nb.toNat

/-- TAGIN0 || TAGIN1 || TAGIN2 || TAGIN3 (R39). -/
def State.taginBlock (s : State) : Block := blockOfWords s.tagin

/-- HKEYIN0 || HKEYIN1 || HKEYIN2 || HKEYIN3 (R40). -/
def State.hkeyinBlock (s : State) : Block := blockOfWords s.hkeyin

/-- NONCE0 || NONCE1 || NONCE2 || 0x00000001, the pre-counter block of the staged nonce (R36, R182). -/
def State.stagedJ0 (s : State) : Block := unwords s.nonce[0] s.nonce[1] s.nonce[2] 1

/-- AADLEN || CTLEN, the length block (R183). -/
def State.lengthBlock (s : State) : Block := s.aadlen ++ s.ctlen

/-- 8·NB, the bit count of a chunk (R53). -/
def chunkBits (nb : BitVec 5) : BitVec 64 := BitVec.ofNat 64 (8 * nb.toNat)

end Sys2Proof.Machine
end

