-- ==== Sys2Proof/Machine/Ops.lean ====
section
/-!
DEFINITION. The named operations over the state: completing a command and raising an error, the plaintext buffer, the
cipher under the loaded key, the hash, the message, and the registers of the window (spec/60_exceptions.md R231, R232;
spec/10_state.md R23, R56; spec/44_aead.md).
-/

namespace Sys2Proof.Machine

/-! ### Completion and errors (R231, R232) -/

/-- The end of EXEC (R231): ERR written, BUSY <- 0 with the pending word gone (R57), DONE <- 1. -/
def State.complete (s : State) (e : ErrCode) : State :=
  { s with pending := none, status := { s.status with err := e.code, done := true } }

/-- A command that ends without a raise: ERR = 0. -/
def finish (s : State) : Result := .next (s.complete .ok)

/-- `raise` (R10, R232): the command ends with the error's code. This is the core's whole error mechanism: nothing is
saved, no handler runs, control goes nowhere. `s` is the state before the command, changed only as its rule lists for
this error. -/
def raise (e : ErrCode) (s : State) : Result := .next (s.complete e)

/-! ### The plaintext buffer (R56, R189) -/

/-- PBUF[k]. -/
def Pbuf.get : Pbuf → Nat → Block
  | [], _ => 0
  | (j, v) :: m, k => if j = k then v else Pbuf.get m k

/-- PBUF[k] <- v, keeping the canonical form. -/
def Pbuf.put : Pbuf → Nat → Block → Pbuf
  | [], k, v => if v = 0 then [] else [(k, v)]
  | (j, u) :: m, k, v =>
    if k < j then (if v = 0 then (j, u) :: m else (k, v) :: (j, u) :: m)
    else if k = j then (if v = 0 then m else (k, v) :: m)
    else (j, u) :: Pbuf.put m k v

/-- The canonical form: indices strictly rising, no listed block 0. -/
def Pbuf.wf : Pbuf → Bool
  | [] => true
  | [(_, v)] => v != 0
  | (j, v) :: (k, u) :: m => v != 0 && decide (j < k) && Pbuf.wf ((k, u) :: m)

/-- zero_pbuf() (R189). -/
def State.zeroPbuf (s : State) : State := { s with pbuf := [], pbCount := 0, pbRdptr := 0 }

/-- PBUF has room for `need` more blocks (R190, R191). The sum is that of the numbers: it does not wrap
(DESIGN CHOICE, safe: log 11). -/
def State.pbufHasRoom (s : State) (need : Nat) : Bool := decide (s.pbCount.toNat + need ≤ s.pbufBlocks.toNat)

/-- PBUF[PB_COUNT] <- p; PB_COUNT <- PB_COUNT + 1 (R190). -/
def State.pushPlain (s : State) (p : Block) : State :=
  { s with pbuf := Pbuf.put s.pbuf s.pbCount.toNat p, pbCount := s.pbCount + 1 }

/-! ### The cipher and the output lanes -/

/-- E under the loaded round keys (R142). -/
def State.encrypt (s : State) (blk : Block) : Block := encryptBlock s.rk blk

/-- D under the loaded round keys (R143). -/
def State.decrypt (s : State) (blk : Block) : Block := decryptBlock s.rk blk

/-- DOUT[l] <- v (R38). -/
def State.putDout (s : State) (l : Fin 4) (v : Block) : State := { s with dout := s.dout.set l v }

/-! ### The message -/

/-- X <- gf_mul(X xor b, H) (spec/43_ghash.md R164). -/
def State.fold (s : State) (b : Block) : State := { s with x := gfMul (s.x ^^^ b) s.h }

/-- A data block's ciphertext `c` of `bits` bits is absorbed: folded into X, counted in CTLEN, and CTR stepped (R187, R190). -/
def State.absorb (s : State) (c : Block) (bits : BitVec 64) : State :=
  { s.fold c with ctlen := s.ctlen + bits, ctr := inc32 s.ctr }

/-- if NB < 16: PARTIAL <- 1 (R186, R187, R190). -/
def State.notePartial (s : State) (nb : BitVec 5) : State :=
  { s with status := { s.status with partialChunk := if nb.toNat < 16 then true else s.status.partialChunk } }

/-- The AAD stream is closed by the first data chunk of an encryption (R187). -/
def State.openPlaintext (s : State) : State :=
  if s.status.phase = .encAad then { s with status := { s.status with phase := .encData, partialChunk := false } } else s

/-- The AAD stream is closed by the first data chunk of a decryption (R190). -/
def State.openCiphertext (s : State) : State :=
  if s.status.phase = .decAad then { s with status := { s.status with phase := .decData, partialChunk := false } } else s

/-- One data chunk of an encryption in lane `l` (R187, R188): `c` is its ciphertext. -/
def State.emitCipher (s : State) (l : Fin 4) (c : Block) (bits : BitVec 64) : State := (s.putDout l c).absorb c bits

/-- One full block of AEAD_ENC4 (R188). -/
def State.encryptLane (s : State) (l : Fin 4) : State := s.emitCipher l (s.dinBlock l ^^^ s.encrypt s.ctr) 128

/-- One full block of AEAD_DEC4 (R191). -/
def State.decryptLane (s : State) (l : Fin 4) : State :=
  (s.pushPlain (s.dinBlock l ^^^ s.encrypt s.ctr)).absorb (s.dinBlock l) 128

/-- The fail-closed effects of R190, R191 and R192: PBUF discarded, PHASE <- FAILED, PARTIAL <- 0. -/
def State.failMessage (s : State) : State :=
  { s.zeroPbuf with status := { s.status with phase := .failed, partialChunk := false } }

/-- A new message in phase `p` (R184, R185). -/
def State.startMessage (s : State) (p : Phase) : State :=
  { s.zeroPbuf with
    h := s.encrypt 0
    j0 := s.stagedJ0
    ctr := inc32 s.stagedJ0
    x := 0
    aadlen := 0
    ctlen := 0
    tagv := 0
    taglenL := s.cfg.tagLen
    status := { s.status with hValid := true, authOk := false, partialChunk := false, phase := p } }

/-- S of AEAD_FINAL: X with the length block folded in (R192). -/
def State.finalHash (s : State) : Block := gfMul (s.x ^^^ s.lengthBlock) s.h

/-- T of AEAD_FINAL: the tag truncated to TAGLEN_L bytes (R192, R193). -/
def State.finalTag (s : State) : Block := maskNb (s.encrypt s.j0 ^^^ s.finalHash) s.taglenL.toNat

/-- ct_equal(T, mask_nb(TAGIN, TAGLEN_L)) (R192, R193). -/
def State.tagMatches (s : State) : Bool := s.finalTag == maskNb s.taginBlock s.taglenL.toNat

/-- X <- S; PARTIAL <- 0 (R192). -/
def State.closeHash (s : State) : State :=
  { s with x := s.finalHash, status := { s.status with partialChunk := false } }

/-! ### Reset (spec/70_reset_and_hazards.md R261) -/

/-- RESET: the state of R260. CAPS is a constant of the core, and the host's side is not the core's (DESIGN CHOICE, safe:
logs 6 and 15). -/
def State.resetCore (s : State) : State := { State.reset with pbufBlocks := s.pbufBlocks, host := s.host }

/-! ### The registers of the window (R23) -/

/-- A host-visible register of R23. -/
inductive Reg where
  | cmd
  | status
  | cfg
  | pbufInfo
  | key (k : Fin 4)
  | nonce (k : Fin 3)
  | tagin (k : Fin 4)
  | din (l w : Fin 4)
  | dout (l w : Fin 4)
  | hkeyin (k : Fin 4)
  | ghash (k : Fin 4)
  | tag (k : Fin 4)
  | aadlenHi
  | aadlenLo
  | ctlenHi
  | ctlenLo
  | ctr (k : Fin 4)
  | caps
  deriving DecidableEq, Repr

/-- The offset column of R23. -/
def Reg.offset : Reg → Nat
  | .cmd => 0x000
  | .status => 0x004
  | .cfg => 0x008
  | .pbufInfo => 0x00C
  | .key k => 0x010 + 4 * k.val
  | .nonce k => 0x020 + 4 * k.val
  | .tagin k => 0x030 + 4 * k.val
  | .din l w => 0x040 + 16 * l.val + 4 * w.val
  | .dout l w => 0x080 + 16 * l.val + 4 * w.val
  | .hkeyin k => 0x0C0 + 4 * k.val
  | .ghash k => 0x0D0 + 4 * k.val
  | .tag k => 0x0E0 + 4 * k.val
  | .aadlenHi => 0x0F0
  | .aadlenLo => 0x0F4
  | .ctlenHi => 0x0F8
  | .ctlenLo => 0x0FC
  | .ctr k => 0x100 + 4 * k.val
  | .caps => 0x110

/-- The register at an aligned offset of the window; none where the offset is reserved (R23, R46). -/
def regAt (off : Nat) : Option Reg :=
  if off = 0x000 then some .cmd
  else if off = 0x004 then some .status
  else if off = 0x008 then some .cfg
  else if off = 0x00C then some .pbufInfo
  else if off < 0x020 then some (.key (Fin.ofNat 4 ((off - 0x010) / 4)))
  else if off < 0x02C then some (.nonce (Fin.ofNat 3 ((off - 0x020) / 4)))
  else if off < 0x030 then none
  else if off < 0x040 then some (.tagin (Fin.ofNat 4 ((off - 0x030) / 4)))
  else if off < 0x080 then some (.din (Fin.ofNat 4 ((off - 0x040) / 16)) (Fin.ofNat 4 ((off - 0x040) % 16 / 4)))
  else if off < 0x0C0 then some (.dout (Fin.ofNat 4 ((off - 0x080) / 16)) (Fin.ofNat 4 ((off - 0x080) % 16 / 4)))
  else if off < 0x0D0 then some (.hkeyin (Fin.ofNat 4 ((off - 0x0C0) / 4)))
  else if off < 0x0E0 then some (.ghash (Fin.ofNat 4 ((off - 0x0D0) / 4)))
  else if off < 0x0F0 then some (.tag (Fin.ofNat 4 ((off - 0x0E0) / 4)))
  else if off = 0x0F0 then some .aadlenHi
  else if off = 0x0F4 then some .aadlenLo
  else if off = 0x0F8 then some .ctlenHi
  else if off = 0x0FC then some .ctlenLo
  else if off < 0x110 then some (.ctr (Fin.ofNat 4 ((off - 0x100) / 4)))
  else if off = 0x110 then some .caps
  else none

/-- The value of a register while BUSY = 0 (R23, spec/20_memory.md R71): a write-only register reads 0. -/
def State.regValue (s : State) : Reg → Word
  | .cmd => s.cmd
  | .status => s.statusWord
  | .cfg => s.cfg.word
  | .pbufInfo => s.pbufInfo
  | .key _ => 0
  | .nonce k => s.nonce[k]
  | .tagin k => s.tagin[k]
  | .din l w => s.din[l][w]
  | .dout l w => wordOf s.dout[l] w
  | .hkeyin _ => 0
  | .ghash k => wordOf s.x k
  | .tag k => wordOf s.tagv k
  | .aadlenHi => s.aadlen.extractLsb' 32 32
  | .aadlenLo => s.aadlen.extractLsb' 0 32
  | .ctlenHi => s.ctlen.extractLsb' 32 32
  | .ctlenLo => s.ctlen.extractLsb' 0 32
  | .ctr k => wordOf s.ctr k
  | .caps => s.capsWord

/-- The value at an offset while BUSY = 0: a reserved offset reads 0 (R76). -/
def State.valueAt (s : State) (off : Nat) : Word :=
  match regAt off with
  | some r => s.regValue r
  | none => 0

/-- A CMD write while BUSY = 0 issues a command (R24). -/
def State.issue (s : State) (w : Word) : State :=
  { s with cmd := w, pending := some w, status := { s.status with done := false } }

/-- A STATUS write while BUSY = 0 clears OVR if bit 2 is set, and nothing else (R25). -/
def State.writeStatus (s : State) (v : Word) : State :=
  { s with status := { s.status with ovr := if v.getLsbD 2 then false else s.status.ovr } }

/-- The write of a register while BUSY = 0 (spec/20_memory.md R72): a write to a read-only register is ignored. -/
def State.regWrite (s : State) (v : Word) : Reg → State
  | .cmd => s.issue v
  | .status => s.writeStatus v
  | .cfg => { s with cfg := s.cfg.write v }
  | .key k => { s with key := s.key.set k v }
  | .nonce k => { s with nonce := s.nonce.set k v }
  | .tagin k => { s with tagin := s.tagin.set k v }
  | .din l w => { s with din := s.din.set l (s.din[l].set w v) }
  | .hkeyin k => { s with hkeyin := s.hkeyin.set k v }
  | .pbufInfo | .dout _ _ | .ghash _ | .tag _ | .aadlenHi | .aadlenLo | .ctlenHi | .ctlenLo | .ctr _ | .caps => s

/-- The write at an offset while BUSY = 0: a reserved offset ignores it (R76). -/
def State.writeAt (s : State) (off : Nat) (v : Word) : State :=
  match regAt off with
  | some r => s.regWrite v r
  | none => s

/-- A host write that arrives while BUSY = 1 is dropped and sets OVR (R27, spec/20_memory.md R74). -/
def State.dropWrite (s : State) : State := { s with status := { s.status with ovr := true } }

end Sys2Proof.Machine
end

