-- ==== Sys2Proof/Machine/Bus.lean ====
section
/-!
DEFINITION. Host accesses (spec/20_memory.md R70 to R76): which are refused, and what a read and a write do.
-/

namespace Sys2Proof.Machine

/-- An access by bus address (R5, R70). An address below BASE is outside the window. -/
def Access.atBus (width addr : Nat) : Access :=
  ⟨width, if Config.base ≤ addr then addr - Config.base else 0x400⟩

/-- Why an access is refused, if it is (R73; spec/60_exceptions.md R238). The order of the reasons: DESIGN CHOICE, safe:
log 10. -/
def Access.refusal? (a : Access) : Option Refusal :=
  if a.width ≠ 4 then some .accessWidth
  else if a.off % 4 ≠ 0 then some .accessMisaligned
  else if 0x400 ≤ a.off then some .accessOutsideWindow
  else none

/-- A read returned `v`: the host has seen it; no register changes (R71). -/
def State.observe (s : State) (v : Word) : State :=
  { s with host := { s.host with observed := v :: s.host.observed } }

/-- The next free draw (R75). -/
def State.nextDraw (s : State) : Word := Config.freeWord s.host.draws

/-- The draw is taken: the next read gets another. -/
def State.takeDraw (s : State) : State := { s with host := { s.host with draws := s.host.draws + 1 } }

/-- A read while BUSY = 0 (R71). A STATUS whose ERR no command writes is a fault (spec/60_exceptions.md R238;
DEDUCED, safe: log 9). -/
def readIdle (off : Nat) (s : State) : Result :=
  match (if regAt off = some .status then reportedFault s.status.err else none) with
  | some f => .fault f
  | none => .next (s.observe (s.valueAt off))

/-- A read while BUSY = 1, `w` the executing command word (R75; DEDUCED, safe: log 12). -/
def readBusy (off : Nat) (w : Word) (s : State) : Result :=
  match regAt off with
  | some .cmd => .next (s.observe w)
  | some .status => .next (s.takeDraw.observe (drawnStatus s.nextDraw s.status.ovr))
  | _ => .next (s.takeDraw.observe s.nextDraw)

/-- MemRead (R71, R73, R75). -/
def hostRead (a : Access) (s : State) : Result :=
  match a.refusal? with
  | some r => .refused r
  | none =>
    match s.pending with
    | some w => readBusy a.off w s
    | none => readIdle a.off s

/-- MemWrite (R72, R73, R74). -/
def hostWrite (a : Access) (v : Word) (s : State) : Result :=
  match a.refusal? with
  | some r => .refused r
  | none => if s.busy then .next s.dropWrite else .next (s.writeAt a.off v)

end Sys2Proof.Machine
end

