-- ==== Sys2Proof/Machine/Aead.lean ====
section
/-!
DEFINITION. The AEAD commands (spec/44_aead.md R184 to R195). A chunk command with NB > 16 is illegal (spec/30_encoding.md
R92): the decoder refuses its word, and its meaning raises ILLEGAL_COMMAND first (DEDUCED, safe: log 3).
-/

namespace Sys2Proof.Machine

/-- The checks and the effect AEAD_INIT_ENC and AEAD_INIT_DEC share (R184, R185). -/
def initMessage (p : Phase) (s : State) : Result :=
  if !s.status.keyValid then raise .keyNotLoaded s
  else if s.cfg.nonceLen ≠ 12 then raise .invalidNonceLength s
  else finish (s.startMessage p)

/-- AEAD_INIT_ENC (R184). -/
def execAeadInitEnc (s : State) : Result := initMessage .encAad s

/-- AEAD_INIT_DEC (R185). -/
def execAeadInitDec (s : State) : Result := initMessage .decAad s

/-- A chunk of associated data with 0 < NB (R186). -/
def State.absorbAad (s : State) (nb : BitVec 5) : State :=
  { s.fold (s.chunk nb) with aadlen := s.aadlen + chunkBits nb }.notePartial nb

/-- AEAD_AAD (R186). -/
def execAeadAad (nb : BitVec 5) (s : State) : Result :=
  if 16 < nb.toNat then raise .illegalCommand s
  else if !s.takesAad then raise .sequenceError s
  else if nb = 0 then finish s
  else finish (s.absorbAad nb)

/-- A chunk of plaintext with 0 < NB (R187). -/
def State.encryptChunk (s : State) (nb : BitVec 5) : State :=
  (s.emitCipher 0 (maskNb (s.dinBlock 0 ^^^ s.encrypt s.ctr) nb.toNat) (chunkBits nb)).notePartial nb

/-- AEAD_ENC (R187). -/
def execAeadEnc (nb : BitVec 5) (s : State) : Result :=
  if 16 < nb.toNat then raise .illegalCommand s
  else if !s.takesPlaintext then raise .sequenceError s
  else if nb = 0 then finish s.openPlaintext
  else finish (s.openPlaintext.encryptChunk nb)

/-- AEAD_ENC4 (R188): the lanes in order. -/
def execAeadEnc4 (s : State) : Result :=
  if !s.takesPlaintext then raise .sequenceError s
  else finish ((((s.openPlaintext.encryptLane 0).encryptLane 1).encryptLane 2).encryptLane 3)

/-- A chunk of ciphertext with 0 < NB (R190). -/
def State.decryptChunk (s : State) (nb : BitVec 5) : State :=
  ((s.pushPlain (maskNb (s.chunk nb ^^^ s.encrypt s.ctr) nb.toNat)).absorb (s.chunk nb) (chunkBits nb)).notePartial nb

/-- AEAD_DEC (R190). -/
def execAeadDec (nb : BitVec 5) (s : State) : Result :=
  if 16 < nb.toNat then raise .illegalCommand s
  else if !s.takesCiphertext then raise .sequenceError s
  else if !s.pbufHasRoom (if nb = 0 then 0 else 1) then raise .bufferTooSmall s.failMessage
  else if nb = 0 then finish s.openCiphertext
  else finish (s.openCiphertext.decryptChunk nb)

/-- AEAD_DEC4 (R191): room for all four blocks is checked before any is absorbed. -/
def execAeadDec4 (s : State) : Result :=
  if !s.takesCiphertext then raise .sequenceError s
  else if !s.pbufHasRoom 4 then raise .bufferTooSmall s.failMessage
  else finish ((((s.openCiphertext.decryptLane 0).decryptLane 1).decryptLane 2).decryptLane 3)

/-- The end of an encryption (R192): TAGV <- T; PHASE <- ENC_DONE. -/
def State.emitTag (s : State) : State :=
  { s.closeHash with tagv := s.finalTag, status := { s.closeHash.status with phase := .encDone } }

/-- The end of a decryption whose tag compares equal (R192): AUTH_OK <- 1; PHASE <- DEC_VERIFIED. -/
def State.verified (s : State) : State :=
  { s.closeHash with status := { s.closeHash.status with authOk := true, phase := .decVerified } }

/-- AEAD_FINAL (R192). -/
def execAeadFinal (s : State) : Result :=
  match s.status.phase with
  | .encAad | .encData => finish s.emitTag
  | .decAad | .decData => if s.tagMatches then finish s.verified else raise .authenticationFailure s.closeHash.failMessage
  | .idle | .encDone | .decVerified | .failed => raise .sequenceError s

/-- The next verified block is released (R194). -/
def State.releaseBlock (s : State) : State :=
  { s.putDout 0 (Pbuf.get s.pbuf s.pbRdptr.toNat) with pbRdptr := s.pbRdptr + 1 }

/-- AEAD_PT_READ (R194). -/
def execAeadPtRead (s : State) : Result :=
  if s.hasVerifiedBlock then finish s.releaseBlock else raise .sequenceError s

/-- The message is abandoned (R195). -/
def State.abortMessage (s : State) : State :=
  { s.zeroPbuf with status := { s.status with phase := .idle, partialChunk := false, authOk := false } }

/-- AEAD_ABORT (R195). -/
def execAeadAbort (s : State) : Result := finish s.abortMessage

end Sys2Proof.Machine
end

