-- ==== Sys2Proof/Machine/BlockCipher.lean ====
section
/-!
DEFINITION. The block commands (spec/42_block_cipher.md R144 to R147).
-/

namespace Sys2Proof.Machine

/-- A block command: KEY_VALID is checked, then the result lanes are written together. -/
def blockCommand (s : State) (out : Vector Block 4) : Result :=
  if s.status.keyValid then finish { s with dout := out } else raise .keyNotLoaded s

/-- The four DIN lanes through a cipher direction, lane by lane (R146, R147). -/
def State.batch (s : State) (f : Block → Block) : Vector Block 4 :=
  #v[f (s.dinBlock 0), f (s.dinBlock 1), f (s.dinBlock 2), f (s.dinBlock 3)]

/-- BLOCK_ENC (R144). -/
def execBlockEnc (s : State) : Result := blockCommand s (s.dout.set 0 (s.encrypt (s.dinBlock 0)))

/-- BLOCK_DEC (R145). -/
def execBlockDec (s : State) : Result := blockCommand s (s.dout.set 0 (s.decrypt (s.dinBlock 0)))

/-- BATCH4_ENC (R146). -/
def execBatch4Enc (s : State) : Result := blockCommand s (s.batch s.encrypt)

/-- BATCH4_DEC (R147). -/
def execBatch4Dec (s : State) : Result := blockCommand s (s.batch s.decrypt)

end Sys2Proof.Machine
end

