-- ==== Sys2Proof/Machine/Control.lean ====
section
/-!
DEFINITION. The control commands NOP and CTX_CLEAR (spec/45_control.md) and KEY_EXPAND (spec/41_key_schedule.md).
-/

namespace Sys2Proof.Machine

/-- NOP (R220). -/
def execNop (s : State) : Result := finish s

/-- The effect of KEY_EXPAND once the key length is accepted (R134). -/
def State.loadKey (s : State) : State :=
  { s.zeroPbuf with
    rk := keySchedule s.key
    h := 0
    tagv := 0
    status := { s.status with
      keyValid := true
      ctxStrategy := s.cfg.strategy
      hValid := false
      phase := .idle
      partialChunk := false
      authOk := false } }

/-- KEY_EXPAND (R134). X keeps its value; that GHASH_UPDATE may then read it is marked there: log 21. -/
def execKeyExpand (s : State) : Result :=
  if s.cfg.keyLen ≠ 16 then raise .invalidKeyLength s else finish s.loadKey

/-- The effect of CTX_CLEAR (R221): the key context, every message state and every data register. -/
def State.clearContext (s : State) : State :=
  { s.zeroPbuf with
    key := Vector.replicate 4 0
    rk := Vector.replicate 32 0
    nonce := Vector.replicate 3 0
    tagin := Vector.replicate 4 0
    din := Vector.replicate 4 (Vector.replicate 4 0)
    dout := Vector.replicate 4 0
    hkeyin := Vector.replicate 4 0
    h := 0
    x := 0
    j0 := 0
    ctr := 0
    aadlen := 0
    ctlen := 0
    tagv := 0
    taglenL := 16
    status := { s.status with
      keyValid := false
      ctxStrategy := .reference
      hValid := false
      phase := .idle
      partialChunk := false
      authOk := false } }

/-- CTX_CLEAR (R221). -/
def execCtxClear (s : State) : Result := finish s.clearContext

end Sys2Proof.Machine
end

