-- ==== Sys2Proof/Machine/GaloisHash.lean ====
section
/-!
DEFINITION. The standalone GHASH commands (spec/43_ghash.md R165 to R168).
-/

namespace Sys2Proof.Machine

/-- GHASH_INIT (R165). -/
def execGhashInit (s : State) : Result :=
  if s.status.phase.inMessage then raise .sequenceError s else finish { s with x := 0 }

/-- GHASH_UPDATE (R166). It folds into the X it finds, one kept over a KEY_EXPAND included, where the prose of
spec/41_key_schedule.md R134 says no command reads that X: DESIGN CHOICE, unsafe: log 21. -/
def execGhashUpdate (s : State) : Result :=
  if s.status.phase.inMessage then raise .sequenceError s
  else if s.status.hValid then finish (s.fold (s.dinBlock 0))
  else raise .hashKeyNotLoaded s

/-- H is loaded: H <- v, H_VALID <- 1 (R167, R168). -/
def State.loadH (s : State) (v : Block) : State := { s with h := v, status := { s.status with hValid := true } }

/-- GHASH_SETH (R167). -/
def execGhashSeth (s : State) : Result :=
  if s.status.phase.inMessage then raise .sequenceError s else finish (s.loadH s.hkeyinBlock)

/-- HASHKEY_DERIVE (R168). -/
def execHashkeyDerive (s : State) : Result :=
  if !s.status.keyValid then raise .keyNotLoaded s
  else if s.status.phase.inMessage then raise .sequenceError s
  else finish (s.loadH (s.encrypt 0))

end Sys2Proof.Machine
end

