-- ==== Sys2Proof/Machine/Dispatch.lean ====
section
/-! DEFINITION. What each command does: one arm per constructor of Instr. -/

namespace Sys2Proof.Machine

def exec (i : Instr) (s : State) : Host.Outcome State Fault Refusal :=
  match i with
  | .nop => Sys2Proof.Machine.execNop s
  | .keyExpand => Sys2Proof.Machine.execKeyExpand s
  | .ctxClear => Sys2Proof.Machine.execCtxClear s
  | .blockEnc => Sys2Proof.Machine.execBlockEnc s
  | .blockDec => Sys2Proof.Machine.execBlockDec s
  | .batch4Enc => Sys2Proof.Machine.execBatch4Enc s
  | .batch4Dec => Sys2Proof.Machine.execBatch4Dec s
  | .ghashInit => Sys2Proof.Machine.execGhashInit s
  | .ghashUpdate => Sys2Proof.Machine.execGhashUpdate s
  | .ghashSeth => Sys2Proof.Machine.execGhashSeth s
  | .hashkeyDerive => Sys2Proof.Machine.execHashkeyDerive s
  | .aeadInitEnc => Sys2Proof.Machine.execAeadInitEnc s
  | .aeadInitDec => Sys2Proof.Machine.execAeadInitDec s
  | .aeadAad nb => Sys2Proof.Machine.execAeadAad nb s
  | .aeadEnc nb => Sys2Proof.Machine.execAeadEnc nb s
  | .aeadDec nb => Sys2Proof.Machine.execAeadDec nb s
  | .aeadFinal => Sys2Proof.Machine.execAeadFinal s
  | .aeadPtRead => Sys2Proof.Machine.execAeadPtRead s
  | .aeadAbort => Sys2Proof.Machine.execAeadAbort s
  | .aeadEnc4 => Sys2Proof.Machine.execAeadEnc4 s
  | .aeadDec4 => Sys2Proof.Machine.execAeadDec4 s

end Sys2Proof.Machine
end

