-- ==== Sys2Proof/Machine/Run.lean ====
section
/-!
DEFINITION. EXEC and the events (spec/60_exceptions.md R231, R241; spec/70_reset_and_hazards.md R261, R273).
-/

namespace Sys2Proof.Machine

/-- EXEC on a command word (R231): decode, then the command's rule. An illegal word raises ILLEGAL_COMMAND and changes
nothing else (spec/30_encoding.md R95). -/
def runWord (w : Word) (s : State) : Result :=
  match decode w with
  | .instr i => exec i s
  | .illegal _ => raise .illegalCommand s

/-- The core's turn: EXEC is enabled iff BUSY = 1 (R231); with BUSY = 0 the core has no step and nothing changes
(DESIGN CHOICE, safe: log 2). -/
def coreTurn (s : State) : Result :=
  match s.pending with
  | some w => runWord w s
  | none => .next s

/-- One event. -/
def runEvent (e : Event) (s : State) : Result :=
  match e with
  | .coreTurn => coreTurn s
  | .read a => hostRead a s
  | .write a v => hostWrite a v s
  | .reset => .next s.resetCore
  | .accessInReset _ => .refused .accessDuringReset

/-- The schedule is used up. A pending command is executed, by fairness (R231); otherwise the run has ended (R273) and the
state stays, unless its ERR is one no command writes: such a state is never final (R238). DESIGN CHOICE, safe: logs 2 and 9. -/
def afterSchedule (s : State) : Result :=
  match s.pending with
  | some w => runWord w s
  | none =>
    match reportedFault s.status.err with
    | some f => .fault f
    | none => .next s

/-- The state with `rest` still to happen. -/
def State.withSchedule (s : State) (rest : List Event) : State := { s with host := { s.host with schedule := rest } }

/-- The next event of the schedule, taken off it; after the last one, `afterSchedule`. -/
def runNext (s : State) : Result :=
  match s.host.schedule with
  | [] => afterSchedule s
  | e :: rest => runEvent e (s.withSchedule rest)

/-- The command word `w` as an accepted CMD write leaves it (R24), the core's turn next. -/
def State.placeCommand (s : State) (w : Word) : State := (s.issue w).withSchedule (.coreTurn :: s.host.schedule)

end Sys2Proof.Machine
end

