-- ==== Sys2Proof/Machine/Step.lean ====
section
/-!
DEFINITION. One step of the machine: the next event of its schedule (spec/60_exceptions.md R231, R241).
-/

namespace Sys2Proof.Machine

/-- One step: a host access, EXEC, or RESET. -/
def step (s : State) : Host.Outcome State Fault Refusal := Sys2Proof.Machine.runNext s

/-- `s` with a table row's word, `nbits` bits of `w` and every bit above them 0, accepted by CMD and about to be executed:
the very next step runs it. The core loads no program itself; this stands for the host's CMD write (spec/10_state.md R24). DESIGN CHOICE,
safe: log 16. -/
def State.withFetchWord (s : State) (nbits w : Nat) : State :=
  Sys2Proof.Machine.State.placeCommand s (BitVec.ofNat 32 (w % 2 ^ nbits))

end Sys2Proof.Machine
end

