-- ==== Sys2Proof/Safety.lean ====
section
/-!
DEFINITION. What holds of every reachable state (spec/60_exceptions.md R237 and the legal values of spec/10_state.md), and
the relation between an encrypting and a decrypting core that the round trip of spec/44_aead.md R200 rests on.
-/

namespace Sys2Proof.Machine

/-- R237, items 1 to 7. Item 8 speaks of the history of a run: `State.loadKey` and `State.clearContext` are its steps (DEDUCED,
safe: log 18). -/
structure State.Inv (s : State) : Prop where
  /-- Item 1. -/
  messageHasKeys : s.status.phase.inMessage = true → s.status.keyValid = true ∧ s.status.hValid = true
  /-- Item 2. -/
  partialInMessage : s.status.partialChunk = true → s.status.phase.inMessage = true
  /-- Item 3. -/
  authOkIffVerified : s.status.authOk = true ↔ s.status.phase = .decVerified
  /-- Item 4. -/
  readWithinCount : s.pbRdptr.toNat ≤ s.pbCount.toNat
  /-- Item 4. -/
  countWithinCapacity : s.pbCount.toNat ≤ s.pbufBlocks.toNat
  /-- Item 5. -/
  plaintextOnlyInDecryption : 0 < s.pbCount.toNat → s.status.phase = .decData ∨ s.status.phase = .decVerified
  /-- Item 6. -/
  busyNotDone : s.busy = true → s.status.done = false
  /-- Item 7. -/
  counterKeepsNonce : s.status.phase.inMessage = true → s.ctr.extractLsb' 32 96 = s.j0.extractLsb' 32 96

/-- Every field holds a value its rule calls legal, and PBUF its canonical form. -/
structure State.Legal (s : State) : Prop where
  /-- CMD shows the executing word (R24, R75). -/
  cmdIsPending : ∀ w, s.pending = some w → s.cmd = w
  /-- CFG.TAGLEN is 1..16 (R31). -/
  tagLenLegal : 1 ≤ s.cfg.tagLen.toNat ∧ s.cfg.tagLen.toNat ≤ 16
  /-- TAGLEN_L is 1..16 (R55). -/
  latchedTagLenLegal : 1 ≤ s.taglenL.toNat ∧ s.taglenL.toNat ≤ 16
  /-- 1 ≤ PBUF_BLOCKS (spec/00_scope.md R5). -/
  capacityLegal : 1 ≤ s.pbufBlocks.toNat
  /-- ERR is a code commands write (R230). -/
  errLegal : ∃ e : ErrCode, s.status.err = e.code
  /-- PBUF is in canonical form. -/
  pbufCanonical : s.pbuf.wf = true
  /-- PBUF holds nothing at or beyond PB_COUNT (R56, R189). -/
  pbufBelowCount : ∀ k, s.pbCount.toNat ≤ k → s.pbuf.get k = 0
  /-- RK is a schedule while KEY_VALID = 1 (R29). -/
  keyIsSchedule : s.status.keyValid = true → ∃ mk, s.rk = keySchedule mk
  /-- Every message runs under H = E(0) (spec/44_aead.md R184). -/
  messageSubkey : s.status.phase.inMessage = true → s.h = encryptBlock s.rk 0
  /-- The pre-counter block ends in 1 (spec/44_aead.md R182). -/
  messageJ0 : s.status.phase.inMessage = true → s.j0.extractLsb' 0 32 = 1

/-- A core that encrypts and one that decrypts stand at the same point of the same message: same round keys, subkey, hash,
counters and lengths, matching phases (spec/44_aead.md R183, R200). -/
structure Mirror (e d : State) : Prop where
  phases : (e.status.phase = .encAad ∧ d.status.phase = .decAad) ∨ (e.status.phase = .encData ∧ d.status.phase = .decData)
  partials : d.status.partialChunk = e.status.partialChunk
  rk : d.rk = e.rk
  h : d.h = e.h
  x : d.x = e.x
  j0 : d.j0 = e.j0
  ctr : d.ctr = e.ctr
  aadlen : d.aadlen = e.aadlen
  ctlen : d.ctlen = e.ctlen
  taglenL : d.taglenL = e.taglenL

end Sys2Proof.Machine
end

