-- ==== Sys2Proof/Certificates/Slice0/Obligations.lean ====
section
/-!
DEFINITION. The statements for the provers, from the numbered rules of spec/. `Sys2Proof.Claims` holds the few words they
are written in.
-/

namespace Sys2Proof.Claims

open Sys2Proof.Machine

/-- `s` after its command ended with this ERR code (spec/60_exceptions.md R231): BUSY 0, DONE 1, no word pending. -/
def ended (s : State) (code : BitVec 4) : State :=
  { s with pending := none, status := { s.status with err := code, done := true } }

/-- `s` with PBUF, PB_COUNT and PB_RDPTR zero (spec/44_aead.md R189). -/
def noPlain (s : State) : State := { s with pbuf := [], pbCount := 0, pbRdptr := 0 }

/-- `s` with this PHASE and PARTIAL. -/
def inPhase (s : State) (p : Phase) (partialChunk : Bool) : State :=
  { s with status := { s.status with phase := p, partialChunk := partialChunk } }

/-- The phases of IN_MSG (spec/10_state.md R34: "Phases 1, 2, 4 and 5"). -/
def inMsg (s : State) : Prop :=
  s.status.phase = .encAad ∨ s.status.phase = .encData ∨ s.status.phase = .decAad ∨ s.status.phase = .decData

/-- AEAD_ENC and AEAD_ENC4 are legal in `s` (spec/44_aead.md R187). -/
def mayEncrypt (s : State) : Prop :=
  s.status.phase = .encAad ∨ (s.status.phase = .encData ∧ s.status.partialChunk = false)

/-- AEAD_DEC and AEAD_DEC4 are legal in `s` (spec/44_aead.md R190). -/
def mayDecrypt (s : State) : Prop :=
  s.status.phase = .decAad ∨ (s.status.phase = .decData ∧ s.status.partialChunk = false)

/-- Every word with the opcode of `w`, but `w`, is illegal (spec/30_encoding.md R92, R93, R95). -/
def onlyWord (w : Word) : Prop := ∀ v : Word, opField v = opField w → v ≠ w → ∃ r, decode v = .illegal r

/-- Every word with this opcode, but those with RSV = 0 and NB = 0..16, is illegal (R92, R93, R95). -/
def onlyChunkWords (op : Byte) : Prop :=
  ∀ v : Word, opField v = op → (∀ nb : BitVec 5, nb.toNat ≤ 16 → v ≠ 0#19 ++ nb ++ op) → ∃ r, decode v = .illegal r

/-- The value column of spec/10_state.md R34. -/
def phaseNumber : Phase → BitVec 3
  | .idle => 0
  | .encAad => 1
  | .encData => 2
  | .encDone => 3
  | .decAad => 4
  | .decData => 5
  | .decVerified => 6
  | .failed => 7

/-- The legal values of STRATEGY (spec/10_state.md R31). -/
def strategyNumber : Strategy → BitVec 2
  | .reference => 0
  | .precomputedTable => 1
  | .vectorBatch => 2
  | .hardwareAssisted => 3

/-- DIN[l] as one block (spec/10_state.md R37). -/
def din (s : State) (l : Fin 4) : Block := s.din[l][0] ++ s.din[l][1] ++ s.din[l][2] ++ s.din[l][3]

/-- The schedule's next event is the core's turn, or the schedule is used up: the model's form of "EXEC is enabled iff
BUSY = 1" and of its fairness (spec/60_exceptions.md R231; log entry 2). -/
def coreMovesNext (s : State) : Prop := s.host.schedule = [] ∨ ∃ rest, s.host.schedule = .coreTurn :: rest

/-- `s` with the head of its schedule taken off. -/
def moved (s : State) : State := { s with host := { s.host with schedule := s.host.schedule.tail } }

/-- `s` after the host read `v`: the head of the schedule is taken off, `v` is recorded. -/
def hasRead (s : State) (v : Word) : State :=
  { s with host := { s.host with schedule := s.host.schedule.tail, observed := v :: s.host.observed } }

/-- An access the window admits (spec/20_memory.md R71, R72). -/
def admitted (a : Access) : Prop := a.width = 4 ∧ a.off % 4 = 0 ∧ a.off < 0x400

/-- The word `K_j` of spec/41_key_schedule.md R133: the key words xor FK, then the round keys. -/
def keyWord (mk : Vector Word 4) (j : Nat) : Word :=
  ([mk[0] ^^^ 0xA3B1BAC6, mk[1] ^^^ 0x56AA3350, mk[2] ^^^ 0x677D9197, mk[3] ^^^ 0xB27022DC]
    ++ (keySchedule mk).toList).getD j 0

/-- t xor rotl(t,13) xor rotl(t,23) for t the substituted `a` (spec/41_key_schedule.md R133). -/
def keyMix (a : Word) : Word := tau a ^^^ (tau a).rotateLeft 13 ^^^ (tau a).rotateLeft 23

/-- The PHASE a successful command leaves (spec/44_aead.md R196), AEAD_FINAL's two results in decryption apart; `none`
where the table's cell is a dash. `p` is PARTIAL. (AEAD_PT_READ's dash when all is read is in AeadPtReadCommand.) -/
def phaseAfter (i : Instr) (ph : Phase) (p : Bool) : Option Phase :=
  match i with
  | .nop | .blockEnc | .blockDec | .batch4Enc | .batch4Dec => some ph
  | .keyExpand | .ctxClear | .aeadAbort => some .idle
  | .ghashInit | .ghashUpdate | .ghashSeth | .hashkeyDerive =>
    match ph with
    | .idle | .encDone | .decVerified | .failed => some ph
    | .encAad | .encData | .decAad | .decData => none
  | .aeadInitEnc => some .encAad
  | .aeadInitDec => some .decAad
  | .aeadAad _ =>
    match ph, p with
    | .encAad, false => some .encAad
    | .decAad, false => some .decAad
    | _, _ => none
  | .aeadEnc _ | .aeadEnc4 =>
    match ph, p with
    | .encAad, _ => some .encData
    | .encData, false => some .encData
    | _, _ => none
  | .aeadDec _ | .aeadDec4 =>
    match ph, p with
    | .decAad, _ => some .decData
    | .decData, false => some .decData
    | _, _ => none
  | .aeadFinal =>
    match ph with
    | .encAad | .encData => some .encDone
    | .decAad | .decData => some .decVerified
    | .idle | .encDone | .decVerified | .failed => none
  | .aeadPtRead =>
    match ph with
    | .decVerified => some .decVerified
    | .idle | .encAad | .encData | .encDone | .decAad | .decData | .failed => none

end Sys2Proof.Claims

open Sys2Proof Sys2Proof.Machine Sys2Proof.Claims

/-! ### Encoding -/

/-- R94: the word of every row of the opcode map decodes to its command. -/
def Obligations.ListedWordsDecode : Prop :=
  decode 0x00000000 = .instr .nop ∧ decode 0x00000001 = .instr .keyExpand ∧ decode 0x00000002 = .instr .ctxClear ∧
  decode 0x00000010 = .instr .blockEnc ∧ decode 0x00000011 = .instr .blockDec ∧ decode 0x00000012 = .instr .batch4Enc ∧
  decode 0x00000013 = .instr .batch4Dec ∧ decode 0x00000020 = .instr .ghashInit ∧
  decode 0x00000021 = .instr .ghashUpdate ∧ decode 0x00000022 = .instr .ghashSeth ∧
  decode 0x00000023 = .instr .hashkeyDerive ∧ decode 0x00000030 = .instr .aeadInitEnc ∧
  decode 0x00000031 = .instr .aeadInitDec ∧ decode 0x00001032 = .instr (.aeadAad 16) ∧
  decode 0x00000433 = .instr (.aeadEnc 4) ∧ decode 0x00000134 = .instr (.aeadDec 1) ∧
  decode 0x00000035 = .instr .aeadFinal ∧ decode 0x00000036 = .instr .aeadPtRead ∧
  decode 0x00000037 = .instr .aeadAbort ∧ decode 0x00000038 = .instr .aeadEnc4 ∧ decode 0x00000039 = .instr .aeadDec4

/-- Every well-formed command, with every chunk length the encoding admits, is what its word decodes to. -/
def Obligations.DecodeOfEncode : Prop := ∀ i : Instr, i.wellFormed = true → decode (encode i) = .instr i

/-- No two words are one command, and the decoder gives well-formed commands only: over all 2^32 words. -/
def Obligations.EncodeOfDecode : Prop :=
  ∀ (w : Word) (i : Instr), decode w = .instr i → i.wellFormed = true ∧ encode i = w

/-- R95: the illegal words, over all 2^32. -/
def Obligations.IllegalWordsAreThoseListed : Prop :=
  ∀ w : Word, (∃ r, decode w = .illegal r) ↔
    let op := w.toNat % 256
    let nb := w.toNat / 256 % 32
    ((0x03 ≤ op ∧ op ≤ 0x0F) ∨ (0x14 ≤ op ∧ op ≤ 0x1F) ∨ (0x24 ≤ op ∧ op ≤ 0x2F) ∨ 0x3A ≤ op) ∨
      w.toNat / 8192 ≠ 0 ∨ 16 < nb ∨ (nb ≠ 0 ∧ op ≠ 0x32 ∧ op ≠ 0x33 ∧ op ≠ 0x34)

/-! ### The step -/

/-- R231: when the core moves and the pending word decodes to `i`, the step is exec of `i`, on the state with the
schedule's head taken off. The schedule is the model's form of R231's free order of events: log entry 2. -/
def Obligations.StepRunsThePendingCommand : Prop :=
  ∀ (s : State) (w : Word) (i : Instr), s.pending = some w → coreMovesNext s → decode w = .instr i →
    step s = exec i (moved s)

/-- R95: executing an illegal word raises ILLEGAL_COMMAND, and nothing else changes. (The schedule: log entry 2.) -/
def Obligations.StepOnIllegalWord : Prop :=
  ∀ (s : State) (w : Word) (r : Illegal), s.pending = some w → coreMovesNext s → decode w = .illegal r →
    step s = .next (ended (moved s) 6)

/-- R24, R231: a command word put into a state as an accepted CMD write leaves it is what the next step runs. That
withFetchWord stands for the host's CMD write is the model's choice: log entry 16. -/
def Obligations.PlacedCommandRunsNext : Prop :=
  ∀ (s : State) (i : Instr), i.wellFormed = true →
    step (s.withFetchWord 32 (encode i).toNat) =
      exec i { s with cmd := encode i, pending := some (encode i), status := { s.status with done := false } }

/-- R231, R238: every command ends, with BUSY 0, DONE 1 and one of the codes 0 to 4 or 6 to 9: no command is stuck and
none ends with code 5. The host's side, CMD, CFG, OVR and CAPS are as before. -/
def Obligations.EveryCommandEnds : Prop :=
  ∀ (i : Instr) (s : State), ∃ t, exec i s = .next t ∧ t.pending = none ∧ t.status.done = true ∧
    t.status.err ∈ [0, 1, 2, 3, 4, 6, 7, 8, 9] ∧ t.host = s.host ∧ t.cmd = s.cmd ∧ t.cfg = s.cfg ∧
    t.status.ovr = s.status.ovr ∧ t.pbufBlocks = s.pbufBlocks

/-- R232: an error other than AUTHENTICATION_FAILURE and BUFFER_TOO_SMALL changes ERR, BUSY and DONE only;
BUFFER_TOO_SMALL also discards PBUF and sets PHASE = FAILED and PARTIAL = 0; AUTHENTICATION_FAILURE also sets X to S. -/
def Obligations.ErrorsChangeOnlyWhatIsListed : Prop :=
  ∀ (i : Instr) (s t : State), exec i s = .next t → t.status.err ≠ 0 →
    (t.status.err = 4 → t = ended (inPhase (noPlain s) .failed false) 4) ∧
    (t.status.err = 3 →
      t = ended (inPhase (noPlain { s with x := gfMul (s.x ^^^ (s.aadlen ++ s.ctlen)) s.h }) .failed false) 3) ∧
    (t.status.err ≠ 3 → t.status.err ≠ 4 → t = ended s t.status.err)

/-! ### Reset -/

/-- R260, R262: the reset state. -/
def Obligations.ResetState : Prop :=
  let s := State.reset
  s.pending = none ∧ s.busy = false ∧ s.cmd = 0 ∧ s.statusWord = 0x00000000 ∧ s.cfg.word = 0x100C1000 ∧
  s.pbufInfo = 0 ∧ s.status.keyValid = false ∧ s.status.hValid = false ∧ s.status.phase = .idle ∧
  (∀ k : Fin 4, s.key[k] = 0 ∧ s.tagin[k] = 0 ∧ s.hkeyin[k] = 0 ∧ s.dout[k] = 0) ∧ (∀ k : Fin 3, s.nonce[k] = 0) ∧
  (∀ l w : Fin 4, s.din[l][w] = 0) ∧ (∀ k : Fin 32, s.rk[k] = 0) ∧ s.h = 0 ∧ s.x = 0 ∧ s.j0 = 0 ∧ s.ctr = 0 ∧
  s.aadlen = 0 ∧ s.ctlen = 0 ∧ s.tagv = 0 ∧ s.taglenL = 16 ∧ (∀ k, s.pbuf.get k = 0) ∧ s.pbCount = 0 ∧
  s.pbRdptr = 0 ∧ s.capsWord = 0#16 ++ Config.pbufBlocks ∧ 1 ≤ Config.pbufBlocks.toNat

/-- R261: RESET in any state, BUSY included, gives the state of R260. That CAPS stays the core's own and that the host's
side goes on are the model's choices: log entries 6 and 15. -/
def Obligations.ResetInAnyState : Prop :=
  ∀ (s : State) (rest : List Event), s.host.schedule = .reset :: rest →
    step s = .next { State.reset with pbufBlocks := s.pbufBlocks, host := (moved s).host }

/-! ### The register window -/

/-- R23: the offsets, one by one; every register stands at its own offset, and an aligned offset of the window holds that
register or, being 0x02C or 0x114..0x3FC, none. -/
def Obligations.RegisterMap : Prop :=
  (regAt 0x000 = some .cmd ∧ regAt 0x004 = some .status ∧ regAt 0x008 = some .cfg ∧ regAt 0x00C = some .pbufInfo ∧
    (∀ k : Fin 4, regAt (0x010 + 4 * k.val) = some (.key k)) ∧
    (∀ k : Fin 3, regAt (0x020 + 4 * k.val) = some (.nonce k)) ∧
    (∀ k : Fin 4, regAt (0x030 + 4 * k.val) = some (.tagin k)) ∧
    (∀ l w : Fin 4, regAt (0x040 + 16 * l.val + 4 * w.val) = some (.din l w)) ∧
    (∀ l w : Fin 4, regAt (0x080 + 16 * l.val + 4 * w.val) = some (.dout l w)) ∧
    (∀ k : Fin 4, regAt (0x0C0 + 4 * k.val) = some (.hkeyin k)) ∧
    (∀ k : Fin 4, regAt (0x0D0 + 4 * k.val) = some (.ghash k)) ∧
    (∀ k : Fin 4, regAt (0x0E0 + 4 * k.val) = some (.tag k)) ∧
    regAt 0x0F0 = some .aadlenHi ∧ regAt 0x0F4 = some .aadlenLo ∧ regAt 0x0F8 = some .ctlenHi ∧
    regAt 0x0FC = some .ctlenLo ∧ (∀ k : Fin 4, regAt (0x100 + 4 * k.val) = some (.ctr k)) ∧ regAt 0x110 = some .caps) ∧
  (∀ r : Reg, regAt r.offset = some r) ∧
  (∀ off : Nat, off % 4 = 0 → off < 0x400 → ∀ r, regAt off = some r → r.offset = off) ∧
  (∀ off : Nat, off % 4 = 0 → off < 0x400 → (regAt off = none ↔ off = 0x02C ∨ 0x114 ≤ off))

/-- R25: the fields of STATUS at their bits, PHASE with the numbers of R34 and CTX_STRATEGY with those of R31. -/
def Obligations.StatusLayout : Prop :=
  ∀ s : State, s.statusWord.getLsbD 0 = s.busy ∧ s.statusWord.getLsbD 1 = s.status.done ∧
    s.statusWord.getLsbD 2 = s.status.ovr ∧ s.statusWord.getLsbD 3 = false ∧
    s.statusWord.extractLsb' 4 4 = s.status.err ∧ s.statusWord.getLsbD 8 = s.status.keyValid ∧
    s.statusWord.getLsbD 9 = s.status.hValid ∧ s.statusWord.getLsbD 10 = s.status.authOk ∧
    s.statusWord.getLsbD 11 = s.status.partialChunk ∧ s.statusWord.extractLsb' 12 3 = phaseNumber s.status.phase ∧
    s.statusWord.getLsbD 15 = false ∧ s.statusWord.extractLsb' 16 2 = strategyNumber s.status.ctxStrategy ∧
    s.statusWord.extractLsb' 18 14 = 0

/-- R71: a host read while BUSY = 0 returns the register at the offset and changes no register. What each offset shows, by
R23, R24, R31, R35 to R47: a group of four registers shows its 128-bit value from the top word down (R23), STATUS is the
word of StatusLayout, and write-only registers and reserved offsets read 0. (A STATUS that would report a code no command
writes is a fault: R238, log entry 9. The schedule: log entry 2.) -/
def Obligations.ReadWhileIdle : Prop :=
  ∀ (s : State) (a : Access) (rest : List Event), s.host.schedule = .read a :: rest → admitted a → s.pending = none →
    (a.off = 0x004 → ∃ e : ErrCode, s.status.err = e.code) →
    step s = .next (hasRead s (s.valueAt a.off)) ∧
      (a.off = 0x000 → s.valueAt a.off = s.cmd) ∧
      (a.off = 0x004 → s.valueAt a.off = s.statusWord) ∧
      (a.off = 0x008 → s.valueAt a.off =
        0#3 ++ s.cfg.tagLen ++ 0#3 ++ s.cfg.nonceLen ++ 0#3 ++ s.cfg.keyLen ++ 0#6 ++ strategyNumber s.cfg.strategy) ∧
      (a.off = 0x00C → s.valueAt a.off = s.pbRdptr ++ s.pbCount) ∧
      (0x010 ≤ a.off ∧ a.off < 0x020 → s.valueAt a.off = 0) ∧
      (∀ k : Fin 3, a.off = 0x020 + 4 * k.val → s.valueAt a.off = s.nonce[k]) ∧
      (∀ k : Fin 4, a.off = 0x030 + 4 * k.val → s.valueAt a.off = s.tagin[k]) ∧
      (∀ l w : Fin 4, a.off = 0x040 + 16 * l.val + 4 * w.val → s.valueAt a.off = s.din[l][w]) ∧
      (∀ l w : Fin 4, a.off = 0x080 + 16 * l.val + 4 * w.val →
        s.valueAt a.off = s.dout[l].extractLsb' (96 - 32 * w.val) 32) ∧
      (0x0C0 ≤ a.off ∧ a.off < 0x0D0 → s.valueAt a.off = 0) ∧
      (∀ k : Fin 4, a.off = 0x0D0 + 4 * k.val → s.valueAt a.off = s.x.extractLsb' (96 - 32 * k.val) 32) ∧
      (∀ k : Fin 4, a.off = 0x0E0 + 4 * k.val → s.valueAt a.off = s.tagv.extractLsb' (96 - 32 * k.val) 32) ∧
      (a.off = 0x0F0 → s.valueAt a.off = s.aadlen.extractLsb' 32 32) ∧
      (a.off = 0x0F4 → s.valueAt a.off = s.aadlen.extractLsb' 0 32) ∧
      (a.off = 0x0F8 → s.valueAt a.off = s.ctlen.extractLsb' 32 32) ∧
      (a.off = 0x0FC → s.valueAt a.off = s.ctlen.extractLsb' 0 32) ∧
      (∀ k : Fin 4, a.off = 0x100 + 4 * k.val → s.valueAt a.off = s.ctr.extractLsb' (96 - 32 * k.val) 32) ∧
      (a.off = 0x110 → s.valueAt a.off = 0#16 ++ s.pbufBlocks) ∧
      (a.off = 0x02C ∨ 0x114 ≤ a.off → s.valueAt a.off = 0)

/-- R76: write-only registers, reserved offsets and reserved bits read 0. -/
def Obligations.WriteOnlyAndReservedReadZero : Prop :=
  ∀ (s : State) (off : Nat), off % 4 = 0 → off < 0x400 →
    ((0x010 ≤ off ∧ off < 0x020) ∨ (0x0C0 ≤ off ∧ off < 0x0D0) ∨ off = 0x02C ∨ 0x114 ≤ off → s.valueAt off = 0) ∧
    (off = 0x008 → s.valueAt off &&& 0xE0E0E0FC = 0) ∧ (off = 0x004 → s.valueAt off &&& 0xFFFC8008 = 0) ∧
    (off = 0x110 → s.valueAt off &&& 0xFFFF0000 = 0)

/-- R75: a host read while BUSY = 1. Whatever a draw is (log entry 5), BUSY reads 1, DONE 0 and OVR its value, CMD is the
executing word, and no register changes. -/
def Obligations.ReadWhileBusy : Prop :=
  ∀ (s : State) (w : Word) (a : Access) (rest : List Event), s.host.schedule = .read a :: rest → admitted a →
    s.pending = some w →
    ∃ (v : Word) (d : Nat), step s = .next { hasRead s v with host := { (hasRead s v).host with draws := d } } ∧
      (a.off = 0x000 → v = w) ∧
      (a.off = 0x004 → v.getLsbD 0 = true ∧ v.getLsbD 1 = false ∧ v.getLsbD 2 = s.status.ovr)

/-- R74: a host write of any offset while BUSY = 1 is dropped and sets OVR; the pending command is unaffected. (The
schedule: log entry 2.) -/
def Obligations.WriteWhileBusyIsDropped : Prop :=
  ∀ (s : State) (a : Access) (v : Word) (rest : List Event), s.host.schedule = .write a v :: rest → admitted a →
    s.busy = true → step s = .next { moved s with status := { s.status with ovr := true } }

/-- R24, R25, R31: while BUSY = 0 a CMD write issues a command; a STATUS write clears OVR if bit 2 is set and changes no
other field; a CFG write stores STRATEGY, KEYLEN and NONCELEN, and TAGLEN if it is 1..16. -/
def Obligations.CmdStatusAndCfgWrites : Prop :=
  ∀ (s : State) (v : Word) (rest : List Event), s.busy = false →
    (s.host.schedule = .write ⟨4, 0x000⟩ v :: rest →
      step s = .next { moved s with cmd := v, pending := some v, status := { s.status with done := false } }) ∧
    (s.host.schedule = .write ⟨4, 0x004⟩ v :: rest →
      step s = .next { moved s with status := { s.status with ovr := s.status.ovr && !v.getLsbD 2 } }) ∧
    (s.host.schedule = .write ⟨4, 0x008⟩ v :: rest →
      ∃ c : Cfg, step s = .next { moved s with cfg := c } ∧ strategyNumber c.strategy = v.extractLsb' 0 2 ∧
        c.keyLen = v.extractLsb' 8 5 ∧ c.nonceLen = v.extractLsb' 16 5 ∧
        (1 ≤ (v.extractLsb' 24 5).toNat ∧ (v.extractLsb' 24 5).toNat ≤ 16 → c.tagLen = v.extractLsb' 24 5) ∧
        (¬(1 ≤ (v.extractLsb' 24 5).toNat ∧ (v.extractLsb' 24 5).toNat ≤ 16) → c.tagLen = s.cfg.tagLen))

/-- R72: a write while BUSY = 0, CMD, STATUS and CFG apart: an RW register reads back the value, a WO register holds it, an
RO register or a reserved offset ignores it, and every other offset reads as before. -/
def Obligations.RegisterWrites : Prop :=
  ∀ (s : State) (a : Access) (v : Word) (rest : List Event), s.host.schedule = .write a v :: rest → admitted a →
    s.busy = false → 0x00C ≤ a.off →
    ∃ t, step s = .next t ∧ (∀ off, off % 4 = 0 → off < 0x400 → off ≠ a.off → t.valueAt off = s.valueAt off) ∧
      ((0x020 ≤ a.off ∧ a.off < 0x02C) ∨ (0x030 ≤ a.off ∧ a.off < 0x080) → t.valueAt a.off = v) ∧
      (0x010 ≤ a.off ∧ a.off < 0x020 →
        ∀ k : Fin 4, t.key[k] = if a.off = 0x010 + 4 * k.val then v else s.key[k]) ∧
      (¬(0x010 ≤ a.off ∧ a.off < 0x020) → t.key = s.key) ∧
      (0x0C0 ≤ a.off ∧ a.off < 0x0D0 →
        ∀ k : Fin 4, t.hkeyin[k] = if a.off = 0x0C0 + 4 * k.val then v else s.hkeyin[k]) ∧
      (¬(0x0C0 ≤ a.off ∧ a.off < 0x0D0) → t.hkeyin = s.hkeyin) ∧
      (a.off = 0x00C ∨ a.off = 0x02C ∨ (0x080 ≤ a.off ∧ a.off < 0x0C0) ∨ 0x0D0 ≤ a.off → t = moved s) ∧
      t = { moved s with key := t.key, nonce := t.nonce, tagin := t.tagin, din := t.din, hkeyin := t.hkeyin }

/-- R73, R261: an access that is not 32-bit, not aligned, or outside the window is refused, and so is one while reset is
asserted. (Which refusal comes first is the model's choice, log entry 10, and not stated.) -/
def Obligations.OtherAccessesAreRefused : Prop :=
  ∀ (s : State) (a : Access) (v : Word) (rest : List Event),
    (¬admitted a → (s.host.schedule = .read a :: rest ∨ s.host.schedule = .write a v :: rest) →
      ∃ r, step s = .refused r) ∧
    (s.host.schedule = .accessInReset a :: rest → ∃ r, step s = .refused r)

/-- R245: KEY and HKEYIN are write-only, and no register reads RK or H; nor J0 or PBUF (R51, R56). -/
def Obligations.NoRegisterReadsTheSecrets : Prop :=
  ∀ (s : State) (key hkeyin : Vector Word 4) (rk : Vector Word 32) (h j0 : Block) (pbuf : Pbuf) (off : Nat),
    State.valueAt { s with key := key, hkeyin := hkeyin, rk := rk, h := h, j0 := j0, pbuf := pbuf } off = s.valueAt off

/-! ### Substitution, diffusion, key schedule, network -/

/-- R111, R112: SBOX is a permutation, its only fixed point is 0xAB, and the corner entries are as stated; L is the xor of
five rotations, linear, commutes with rotation, and L(0) and L of all ones are as stated. (SBOX's values are the spec's table
from general knowledge, PRESUMED: log entry 14. L's linearity and its commuting with rotation are marked [derived] in R112.) -/
def Obligations.SubstitutionAndDiffusion : Prop :=
  (∀ a b : Byte, sbox a = sbox b → a = b) ∧ (∀ b : Byte, sbox b = b ↔ b = 0xAB) ∧ sbox 0x00 = 0xD6 ∧ sbox 0xFF = 0x48 ∧
    sbox 0x71 = 0x00 ∧
    (∀ b : Word, diffuse b = b ^^^ b.rotateLeft 2 ^^^ b.rotateLeft 10 ^^^ b.rotateLeft 18 ^^^ b.rotateLeft 24) ∧
    (∀ a b : Word, diffuse (a ^^^ b) = diffuse a ^^^ diffuse b) ∧
    (∀ (a : Word) (k : Nat), diffuse (rotl a k) = rotl (diffuse a) k) ∧ diffuse 0 = 0 ∧
    diffuse 0xFFFFFFFF = 0xFFFFFFFF

/-- R115, R116, R117, R118, R148: table j is table 0 rotated right by 8·j bits, and the four strategies compute one
function, so they give the same block for every key sequence and block. -/
def Obligations.StrategiesAgree : Prop :=
  (∀ (j : Fin 4) (b : Byte), tTable j.val b = (tTable 0 b).rotateRight (8 * j.val)) ∧
  (∀ (st : Strategy) (a : Word), roundOf st a = roundT a) ∧
    ∀ (st : Strategy) (keys : List Word) (blk : Block), networkWith (roundOf st) keys blk = network keys blk

/-- R132, R133: the key schedule as a recurrence over the sequence that starts with MK xor FK, and the formula of the
round constants. -/
def Obligations.KeyScheduleRecurrence : Prop :=
  ∀ (mk : Vector Word 4) (i : Fin 32),
    (keySchedule mk)[i] = keyWord mk i.val ^^^
      keyMix (keyWord mk (i.val + 1) ^^^ keyWord mk (i.val + 2) ^^^ keyWord mk (i.val + 3) ^^^
        (BitVec.ofNat 8 (7 * (4 * i.val)) ++ BitVec.ofNat 8 (7 * (4 * i.val + 1)) ++
          BitVec.ofNat 8 (7 * (4 * i.val + 2)) ++ BitVec.ofNat 8 (7 * (4 * i.val + 3))))

/-- R140, R141: the network as a recurrence: with X_0..X_3 the words of the block and X_{i+4} the word round i makes, the
output is X_{n+3} || X_{n+2} || X_{n+1} || X_n for n rounds (n = 32: X_35 || X_34 || X_33 || X_32). -/
def Obligations.NetworkRecurrence : Prop :=
  ∀ (keys : List Word) (blk : Block) (X : Nat → Word),
    blk = X 0 ++ X 1 ++ X 2 ++ X 3 →
    (∀ i, i < keys.length →
      X (i + 4) = X i ^^^ roundT (X (i + 1) ^^^ X (i + 2) ^^^ X (i + 3) ^^^ keys.getD i 0)) →
    network keys blk = X (keys.length + 3) ++ X (keys.length + 2) ++ X (keys.length + 1) ++ X keys.length

/-- R142, R143: E is the network under the round keys in derivation order and D the network under them reversed, and each
inverts the other exactly, for every round-key file and block. -/
def Obligations.DecryptionInvertsEncryption : Prop :=
  ∀ (rk : Vector Word 32) (b : Block),
    encryptBlock rk b = network rk.toList b ∧ decryptBlock rk b = network rk.toList.reverse b ∧
      decryptBlock rk (encryptBlock rk b) = b ∧ encryptBlock rk (decryptBlock rk b) = b

/-! ### The field and GHASH -/

/-- R162: gf_mul is commutative, 0x80..00 is its identity and 0 its zero. -/
def Obligations.FieldProductCommutes : Prop :=
  (∀ a b : Block, gfMul a b = gfMul b a) ∧ (∀ a : Block, gfMul 0x80000000000000000000000000000000 a = a) ∧
    ∀ a : Block, gfMul a 0 = 0 ∧ gfMul 0 a = 0

/-- R161, R162: gf_mul is associative and distributes over xor; multiplying by x (0x40..00) is a right shift, with
x^7 + x^2 + x + 1 added where the coefficient of x^127 falls out. -/
def Obligations.FieldProductIsAssociativeAndLinear : Prop :=
  (∀ a b c : Block, gfMul (gfMul a b) c = gfMul a (gfMul b c)) ∧
    (∀ a b c : Block, gfMul (a ^^^ b) c = gfMul a c ^^^ gfMul b c) ∧
    ∀ a : Block, gfMul a 0x40000000000000000000000000000000 =
      if a.getLsbD 0 then (a >>> 1) ^^^ 0xE1000000000000000000000000000000 else a >>> 1

/-- R164: under H = 0 the hash of any blocks is 0, and the hash of no block is 0; appending a block folds it. -/
def Obligations.GhashFolds : Prop :=
  (∀ blocks : List Block, ghash 0 blocks = 0) ∧ (∀ h : Block, ghash h [] = 0) ∧
    ∀ (h : Block) (blocks : List Block) (c : Block), ghash h (blocks ++ [c]) = gfMul (ghash h blocks ^^^ c) h

/-! ### Bytes and counters -/

/-- R8, R9, R181: words and unwords are inverse, byte 0 is the first, mask_nb keeps bytes 0 to nb-1 and zeroes the others,
and inc32 counts the low 32 bits modulo 2^32 and leaves the nonce portion. -/
def Obligations.BytesMaskAndCounter : Prop :=
  (∀ b : Block, unwords (wordOf b 0) (wordOf b 1) (wordOf b 2) (wordOf b 3) = b) ∧
    (∀ (b : Block) (i j : Fin 4), byteOf b (4 * i.val + j.val) = (wordOf b i).extractLsb' (24 - 8 * j.val) 8) ∧
    (∀ (b : Block) (nb i : Nat), nb ≤ 16 → i < 16 → byteOf (maskNb b nb) i = if i < nb then byteOf b i else 0) ∧
    ∀ c : Block, (inc32 c).extractLsb' 32 96 = c.extractLsb' 32 96 ∧
    ((inc32 c).extractLsb' 0 32).toNat = ((c.extractLsb' 0 32).toNat + 1) % 2 ^ 32

/-- R56: PBUF as an array: a written entry reads back, every other entry stays, and two buffers in canonical form that hold
the same blocks are the same data. -/
def Obligations.PlaintextBufferIsAnArray : Prop :=
  (∀ (m : Pbuf) (k j : Nat) (v : Block), m.wf = true → (m.put k v).get j = if j = k then v else m.get j) ∧
    ∀ m n : Pbuf, m.wf = true → n.wf = true → (∀ k, m.get k = n.get k) → m = n

/-! ### The control and key commands -/

/-- R220. -/
def Obligations.NopCommand : Prop :=
  decode 0x00000000 = .instr .nop ∧ onlyWord 0x00000000 ∧ ∀ s : State, exec .nop s = .next (ended s 0)

/-- R134: KEY_EXPAND's effect and error. (R134's remark that no command reads the kept X before it is rewritten is not
stated: the model follows R166, log entry 21.) -/
def Obligations.KeyExpandCommand : Prop :=
  decode 0x00000001 = .instr .keyExpand ∧ onlyWord 0x00000001 ∧ ∀ s : State,
    (s.cfg.keyLen = 16 →
      exec .keyExpand s = .next (ended { inPhase (noPlain s) .idle false with
        rk := keySchedule s.key
        h := 0
        tagv := 0
        status := { (inPhase s .idle false).status with
          keyValid := true, ctxStrategy := s.cfg.strategy, hValid := false, authOk := false } } 0)) ∧
    (s.cfg.keyLen ≠ 16 → exec .keyExpand s = .next (ended s 1))

/-- R221: after CTX_CLEAR every state except CMD, CFG, OVR, DONE and ERR (and CAPS, a constant, and the host's side) equals
its reset value. -/
def Obligations.CtxClearCommand : Prop :=
  decode 0x00000002 = .instr .ctxClear ∧ onlyWord 0x00000002 ∧ ∀ s : State,
    exec .ctxClear s = .next { State.reset with
      cmd := s.cmd
      cfg := s.cfg
      pbufBlocks := s.pbufBlocks
      host := s.host
      status := { State.reset.status with ovr := s.status.ovr, done := true, err := 0 } }

/-! ### The block commands -/

/-- R144, R145: BLOCK_ENC and BLOCK_DEC. -/
def Obligations.BlockCommands : Prop :=
  decode 0x00000010 = .instr .blockEnc ∧ decode 0x00000011 = .instr .blockDec ∧ onlyWord 0x00000010 ∧ onlyWord 0x00000011 ∧
    ∀ s : State,
    (s.status.keyValid = true →
      exec .blockEnc s = .next (ended { s with dout := s.dout.set 0 (encryptBlock s.rk (din s 0)) } 0) ∧
      exec .blockDec s = .next (ended { s with dout := s.dout.set 0 (decryptBlock s.rk (din s 0)) } 0)) ∧
    (s.status.keyValid = false →
      exec .blockEnc s = .next (ended s 7) ∧ exec .blockDec s = .next (ended s 7))

/-- R146, R147: BATCH4_ENC and BATCH4_DEC. -/
def Obligations.BatchCommands : Prop :=
  decode 0x00000012 = .instr .batch4Enc ∧ decode 0x00000013 = .instr .batch4Dec ∧ onlyWord 0x00000012 ∧ onlyWord 0x00000013 ∧
    ∀ s : State,
    (s.status.keyValid = true →
      exec .batch4Enc s = .next (ended { s with
        dout := #v[encryptBlock s.rk (din s 0), encryptBlock s.rk (din s 1), encryptBlock s.rk (din s 2),
          encryptBlock s.rk (din s 3)] } 0) ∧
      exec .batch4Dec s = .next (ended { s with
        dout := #v[decryptBlock s.rk (din s 0), decryptBlock s.rk (din s 1), decryptBlock s.rk (din s 2),
          decryptBlock s.rk (din s 3)] } 0)) ∧
    (s.status.keyValid = false →
      exec .batch4Enc s = .next (ended s 7) ∧ exec .batch4Dec s = .next (ended s 7))

/-- R144 to R147: BLOCK_DEC of what BLOCK_ENC put out gives the block back, for every key and block; each lane of BATCH4_ENC
holds what BLOCK_ENC gives for that lane's block, and each lane of BATCH4_DEC what BLOCK_DEC gives for it. -/
def Obligations.BlockDecUndoesBlockEnc : Prop :=
  ∀ s : State, s.status.keyValid = true →
    ∃ t u be bd : State, exec .blockEnc s = .next t ∧
      exec .blockDec { t with din := t.din.set 0 (Vector.ofFn (fun w : Fin 4 => wordOf t.dout[0] w)) } = .next u ∧
      u.dout[0] = din s 0 ∧ exec .batch4Enc s = .next be ∧ exec .batch4Dec s = .next bd ∧
      ∀ l : Fin 4, ∃ te td : State,
        exec .blockEnc { s with din := s.din.set 0 s.din[l] } = .next te ∧ be.dout[l] = te.dout[0] ∧
        exec .blockDec { s with din := s.din.set 0 s.din[l] } = .next td ∧ bd.dout[l] = td.dout[0]

/-! ### The GHASH commands -/

/-- R165, R167: GHASH_INIT and GHASH_SETH. -/
def Obligations.GhashInitAndSeth : Prop :=
  decode 0x00000020 = .instr .ghashInit ∧ decode 0x00000022 = .instr .ghashSeth ∧ onlyWord 0x00000020 ∧ onlyWord 0x00000022 ∧
    ∀ s : State,
    (¬inMsg s →
      exec .ghashInit s = .next (ended { s with x := 0 } 0) ∧
      exec .ghashSeth s = .next (ended { s with
        h := s.hkeyin[0] ++ s.hkeyin[1] ++ s.hkeyin[2] ++ s.hkeyin[3]
        status := { s.status with hValid := true } } 0)) ∧
    (inMsg s → exec .ghashInit s = .next (ended s 8) ∧ exec .ghashSeth s = .next (ended s 8))

/-- R166, R168: GHASH_UPDATE and HASHKEY_DERIVE, with the errors in their order. (That GHASH_UPDATE folds into an X kept over
KEY_EXPAND, against R134's prose, is the model's choice: log entry 21.) -/
def Obligations.GhashUpdateAndDerive : Prop :=
  decode 0x00000021 = .instr .ghashUpdate ∧ decode 0x00000023 = .instr .hashkeyDerive ∧ onlyWord 0x00000021 ∧ onlyWord 0x00000023 ∧
    ∀ s : State,
    (¬inMsg s → s.status.hValid = true →
      exec .ghashUpdate s = .next (ended { s with x := gfMul (s.x ^^^ din s 0) s.h } 0)) ∧
    (inMsg s → exec .ghashUpdate s = .next (ended s 8)) ∧
    (¬inMsg s → s.status.hValid = false → exec .ghashUpdate s = .next (ended s 9)) ∧
    (s.status.keyValid = true → ¬inMsg s →
      exec .hashkeyDerive s = .next (ended { s with
        h := encryptBlock s.rk 0
        status := { s.status with hValid := true } } 0)) ∧
    (s.status.keyValid = false → exec .hashkeyDerive s = .next (ended s 7)) ∧
    (s.status.keyValid = true → inMsg s → exec .hashkeyDerive s = .next (ended s 8))

/-! ### The AEAD commands -/

/-- R184, R185: AEAD_INIT_ENC and AEAD_INIT_DEC, in every phase, with the errors in their order. -/
def Obligations.AeadInitCommands : Prop :=
  decode 0x00000030 = .instr .aeadInitEnc ∧ decode 0x00000031 = .instr .aeadInitDec ∧ onlyWord 0x00000030 ∧ onlyWord 0x00000031 ∧
    ∀ s : State,
    (s.status.keyValid = true → s.cfg.nonceLen = 12 →
      let j0 : Block := s.nonce[0] ++ s.nonce[1] ++ s.nonce[2] ++ 0x00000001#32
      let t := { noPlain s with
        h := encryptBlock s.rk 0
        j0 := j0
        ctr := inc32 j0
        x := 0
        aadlen := 0
        ctlen := 0
        tagv := 0
        taglenL := s.cfg.tagLen
        status := { s.status with hValid := true, authOk := false } }
      exec .aeadInitEnc s = .next (ended (inPhase t .encAad false) 0) ∧
      exec .aeadInitDec s = .next (ended (inPhase t .decAad false) 0)) ∧
    (s.status.keyValid = false →
      exec .aeadInitEnc s = .next (ended s 7) ∧ exec .aeadInitDec s = .next (ended s 7)) ∧
    (s.status.keyValid = true → s.cfg.nonceLen ≠ 12 →
      exec .aeadInitEnc s = .next (ended s 2) ∧ exec .aeadInitDec s = .next (ended s 2))

/-- R186: AEAD_AAD. -/
def Obligations.AeadAadCommand : Prop :=
  onlyChunkWords 0x32 ∧ ∀ (s : State) (nb : BitVec 5), nb.toNat ≤ 16 →
    decode (0#19 ++ nb ++ 0x32#8) = .instr (.aeadAad nb) ∧
    ((s.status.phase = .encAad ∨ s.status.phase = .decAad) → s.status.partialChunk = false →
      (nb = 0 → exec (.aeadAad nb) s = .next (ended s 0)) ∧
      (nb ≠ 0 → exec (.aeadAad nb) s = .next (ended { s with
        x := gfMul (s.x ^^^ maskNb (din s 0) nb.toNat) s.h
        aadlen := s.aadlen + BitVec.ofNat 64 (8 * nb.toNat)
        status := { s.status with partialChunk := decide (nb.toNat < 16) } } 0))) ∧
    (¬((s.status.phase = .encAad ∨ s.status.phase = .decAad) ∧ s.status.partialChunk = false) →
      exec (.aeadAad nb) s = .next (ended s 8))

/-- R187: AEAD_ENC. -/
def Obligations.AeadEncCommand : Prop :=
  onlyChunkWords 0x33 ∧ ∀ (s : State) (nb : BitVec 5), nb.toNat ≤ 16 →
    decode (0#19 ++ nb ++ 0x33#8) = .instr (.aeadEnc nb) ∧
    (mayEncrypt s → nb = 0 →
      exec (.aeadEnc nb) s = .next (ended (inPhase s .encData false) 0)) ∧
    (mayEncrypt s → nb ≠ 0 →
      let c := maskNb (din s 0 ^^^ encryptBlock s.rk s.ctr) nb.toNat
      exec (.aeadEnc nb) s = .next (ended (inPhase { s with
        dout := s.dout.set 0 c
        x := gfMul (s.x ^^^ c) s.h
        ctlen := s.ctlen + BitVec.ofNat 64 (8 * nb.toNat)
        ctr := inc32 s.ctr } .encData (decide (nb.toNat < 16))) 0)) ∧
    (¬mayEncrypt s → exec (.aeadEnc nb) s = .next (ended s 8))

/-- R188: AEAD_ENC4. -/
def Obligations.AeadEnc4Command : Prop :=
  decode 0x00000038 = .instr .aeadEnc4 ∧ onlyWord 0x00000038 ∧ ∀ s : State,
    (mayEncrypt s →
      let c0 := din s 0 ^^^ encryptBlock s.rk s.ctr
      let c1 := din s 1 ^^^ encryptBlock s.rk (inc32 s.ctr)
      let c2 := din s 2 ^^^ encryptBlock s.rk (inc32 (inc32 s.ctr))
      let c3 := din s 3 ^^^ encryptBlock s.rk (inc32 (inc32 (inc32 s.ctr)))
      exec .aeadEnc4 s = .next (ended (inPhase { s with
        dout := #v[c0, c1, c2, c3]
        x := gfMul (gfMul (gfMul (gfMul (s.x ^^^ c0) s.h ^^^ c1) s.h ^^^ c2) s.h ^^^ c3) s.h
        ctlen := s.ctlen + 512
        ctr := inc32 (inc32 (inc32 (inc32 s.ctr))) } .encData false) 0)) ∧
    (¬mayEncrypt s → exec .aeadEnc4 s = .next (ended s 8))

/-- R188: AEAD_ENC4 equals four AEAD_ENC nb=16 on DIN[0], DIN[1], DIN[2], DIN[3] in that order, except that all four DOUT
lanes are written; from every state in which it is legal, one with a partial AAD chunk absorbed included. -/
def Obligations.Enc4EqualsFourEnc : Prop :=
  ∀ s : State, mayEncrypt s →
    ∃ t1 t2 t3 t4 u : State,
      exec (.aeadEnc 16) s = .next t1 ∧
      exec (.aeadEnc 16) { t1 with din := s.din.set 0 s.din[1] } = .next t2 ∧
      exec (.aeadEnc 16) { t2 with din := s.din.set 0 s.din[2] } = .next t3 ∧
      exec (.aeadEnc 16) { t3 with din := s.din.set 0 s.din[3] } = .next t4 ∧
      exec .aeadEnc4 s = .next u ∧
      u = { t4 with din := s.din, dout := #v[t1.dout[0], t2.dout[0], t3.dout[0], t4.dout[0]] }

/-- R190: AEAD_DEC. -/
def Obligations.AeadDecCommand : Prop :=
  onlyChunkWords 0x34 ∧ ∀ (s : State) (nb : BitVec 5), nb.toNat ≤ 16 →
    decode (0#19 ++ nb ++ 0x34#8) = .instr (.aeadDec nb) ∧
    (mayDecrypt s → s.pbCount.toNat ≤ s.pbufBlocks.toNat → nb = 0 →
      exec (.aeadDec nb) s = .next (ended (inPhase s .decData false) 0)) ∧
    (mayDecrypt s → s.pbCount.toNat < s.pbufBlocks.toNat → nb ≠ 0 →
      let c := maskNb (din s 0) nb.toNat
      exec (.aeadDec nb) s = .next (ended (inPhase { s with
        x := gfMul (s.x ^^^ c) s.h
        ctlen := s.ctlen + BitVec.ofNat 64 (8 * nb.toNat)
        pbuf := s.pbuf.put s.pbCount.toNat (maskNb (c ^^^ encryptBlock s.rk s.ctr) nb.toNat)
        pbCount := s.pbCount + 1
        ctr := inc32 s.ctr } .decData (decide (nb.toNat < 16))) 0)) ∧
    (mayDecrypt s → s.pbufBlocks.toNat < s.pbCount.toNat + (if nb = 0 then 0 else 1) →
      exec (.aeadDec nb) s = .next (ended (inPhase (noPlain s) .failed false) 4)) ∧
    (¬mayDecrypt s → exec (.aeadDec nb) s = .next (ended s 8))

/-- R191: AEAD_DEC4. -/
def Obligations.AeadDec4Command : Prop :=
  decode 0x00000039 = .instr .aeadDec4 ∧ onlyWord 0x00000039 ∧ ∀ s : State,
    (mayDecrypt s → s.pbCount.toNat + 4 ≤ s.pbufBlocks.toNat →
      let p0 := din s 0 ^^^ encryptBlock s.rk s.ctr
      let p1 := din s 1 ^^^ encryptBlock s.rk (inc32 s.ctr)
      let p2 := din s 2 ^^^ encryptBlock s.rk (inc32 (inc32 s.ctr))
      let p3 := din s 3 ^^^ encryptBlock s.rk (inc32 (inc32 (inc32 s.ctr)))
      let n := s.pbCount.toNat
      exec .aeadDec4 s = .next (ended (inPhase { s with
        x := gfMul (gfMul (gfMul (gfMul (s.x ^^^ din s 0) s.h ^^^ din s 1) s.h ^^^ din s 2) s.h ^^^ din s 3) s.h
        ctlen := s.ctlen + 512
        ctr := inc32 (inc32 (inc32 (inc32 s.ctr)))
        pbCount := s.pbCount + 4
        pbuf := (((s.pbuf.put n p0).put (n + 1) p1).put (n + 2) p2).put (n + 3) p3 } .decData false) 0)) ∧
    (mayDecrypt s → s.pbufBlocks.toNat < s.pbCount.toNat + 4 →
      exec .aeadDec4 s = .next (ended (inPhase (noPlain s) .failed false) 4)) ∧
    (¬mayDecrypt s → exec .aeadDec4 s = .next (ended s 8))

/-- R192, R193: AEAD_FINAL: the length block, then the tag or its comparison over the first TAGLEN_L bytes. -/
def Obligations.AeadFinalCommand : Prop :=
  decode 0x00000035 = .instr .aeadFinal ∧ onlyWord 0x00000035 ∧ ∀ s : State,
    let hash := gfMul (s.x ^^^ (s.aadlen ++ s.ctlen)) s.h
    let tag := maskNb (encryptBlock s.rk s.j0 ^^^ hash) s.taglenL.toNat
    let supplied := maskNb (s.tagin[0] ++ s.tagin[1] ++ s.tagin[2] ++ s.tagin[3]) s.taglenL.toNat
    (s.status.phase = .encAad ∨ s.status.phase = .encData →
      exec .aeadFinal s = .next (ended (inPhase { s with x := hash, tagv := tag } .encDone false) 0)) ∧
    (s.status.phase = .decAad ∨ s.status.phase = .decData → tag = supplied →
      exec .aeadFinal s = .next (ended (inPhase { s with
        x := hash
        status := { s.status with authOk := true } } .decVerified false) 0)) ∧
    (s.status.phase = .decAad ∨ s.status.phase = .decData → tag ≠ supplied →
      exec .aeadFinal s = .next (ended (inPhase (noPlain { s with x := hash }) .failed false) 3)) ∧
    (¬inMsg s → exec .aeadFinal s = .next (ended s 8))

/-- R194: AEAD_PT_READ. -/
def Obligations.AeadPtReadCommand : Prop :=
  decode 0x00000036 = .instr .aeadPtRead ∧ onlyWord 0x00000036 ∧ ∀ s : State,
    (s.status.phase = .decVerified → s.pbRdptr.toNat < s.pbCount.toNat →
      exec .aeadPtRead s = .next (ended { s with
        dout := s.dout.set 0 (s.pbuf.get s.pbRdptr.toNat)
        pbRdptr := s.pbRdptr + 1 } 0)) ∧
    (s.status.phase ≠ .decVerified ∨ s.pbCount.toNat ≤ s.pbRdptr.toNat →
      exec .aeadPtRead s = .next (ended s 8))

/-- R195: AEAD_ABORT. -/
def Obligations.AeadAbortCommand : Prop :=
  decode 0x00000037 = .instr .aeadAbort ∧ onlyWord 0x00000037 ∧ ∀ s : State,
    exec .aeadAbort s = .next (ended { inPhase (noPlain s) .idle false with
      status := { s.status with phase := .idle, partialChunk := false, authOk := false } } 0)

/-! ### Whole-machine rules -/

/-- R196: the phase table. A successful command leaves the phase of its cell; where the cell is a dash the phase is unchanged
and the command raises SEQUENCE_ERROR, unless an error that R233 puts first applies: KEY_NOT_LOADED in HASHKEY_DERIVE, and
ILLEGAL_COMMAND for a chunk length no word encodes. -/
def Obligations.PhaseTable : Prop :=
  ∀ (i : Instr) (s t : State), exec i s = .next t →
    (t.status.err = 0 → phaseAfter i s.status.phase s.status.partialChunk = some t.status.phase) ∧
    (phaseAfter i s.status.phase s.status.partialChunk = none →
      t.status.phase = s.status.phase ∧
        (t.status.err = 8 ∨ (i = .hashkeyDerive ∧ s.status.keyValid = false ∧ t.status.err = 7) ∨
          (i.wellFormed = false ∧ t.status.err = 6)))

/-- R237 holds at reset, and so do the legal values. -/
def Obligations.InvariantsHoldAtReset : Prop := State.reset.Inv ∧ State.reset.Legal

/-- R237: every step keeps items 1 to 7, from every state that has them. -/
def Obligations.StepKeepsTheInvariants : Prop := ∀ s t : State, s.Inv → step s = .next t → t.Inv

/-- Every step keeps the legal values: the tag lengths, ERR, CMD, PBUF's form, RK a schedule, H = E(0) in a message. -/
def Obligations.StepKeepsLegalValues : Prop := ∀ s t : State, s.Legal → step s = .next t → t.Legal

/-- From a state with legal values only an access the window does not admit, or one while reset is asserted, has no
transition: the machine never faults and is never stuck (R238). -/
def Obligations.StepsGoOn : Prop :=
  ∀ s : State, s.Legal →
    (∀ a v rest, s.host.schedule = .read a :: rest ∨ s.host.schedule = .write a v :: rest → admitted a) →
    (∀ a rest, s.host.schedule ≠ .accessInReset a :: rest) → ∃ t, step s = .next t

/-- R37, R38, R41, R42, R48, R49, R51 to R56: which commands write which part of the state. -/
def Obligations.WritersOfTheState : Prop :=
  ∀ (i : Instr) (s t : State), exec i s = .next t →
    (i ≠ .ctxClear → t.key = s.key ∧ t.nonce = s.nonce ∧ t.tagin = s.tagin ∧ t.din = s.din ∧ t.hkeyin = s.hkeyin) ∧
    (i ∉ [.ctxClear, .keyExpand] →
      t.rk = s.rk ∧ t.status.keyValid = s.status.keyValid ∧ t.status.ctxStrategy = s.status.ctxStrategy) ∧
    (i ∉ [.ctxClear, .keyExpand, .hashkeyDerive, .ghashSeth, .aeadInitEnc, .aeadInitDec] →
      t.h = s.h ∧ t.status.hValid = s.status.hValid) ∧
    (i ∉ [.ctxClear, .keyExpand, .aeadInitEnc, .aeadInitDec, .aeadFinal] → t.tagv = s.tagv) ∧
    (i ∉ [.ctxClear, .aeadInitEnc, .aeadInitDec] → t.j0 = s.j0 ∧ t.taglenL = s.taglenL) ∧
    (i ∉ [.ctxClear, .batch4Enc, .batch4Dec, .aeadEnc4] →
      ∀ l : Fin 4, l ≠ 0 → t.dout[l] = s.dout[l]) ∧
    (i ∉ [.ctxClear, .blockEnc, .blockDec, .batch4Enc, .batch4Dec, .aeadEnc4, .aeadPtRead] →
      (∀ nb, nb ≠ 0 → i ≠ .aeadEnc nb) → t.dout = s.dout) ∧
    (i ∉ [.ctxClear, .ghashInit, .ghashUpdate, .aeadInitEnc, .aeadInitDec, .aeadEnc4, .aeadDec4, .aeadFinal] →
      (∀ nb, i ≠ .aeadAad nb ∧ i ≠ .aeadEnc nb ∧ i ≠ .aeadDec nb) → t.x = s.x) ∧
    (i ∉ [.ctxClear, .aeadInitEnc, .aeadInitDec] → (∀ nb, i ≠ .aeadAad nb) → t.aadlen = s.aadlen) ∧
    (i ∉ [.ctxClear, .aeadInitEnc, .aeadInitDec, .aeadEnc4, .aeadDec4] →
      (∀ nb, i ≠ .aeadEnc nb ∧ i ≠ .aeadDec nb) → t.ctr = s.ctr ∧ t.ctlen = s.ctlen) ∧
    (i ∉ [.ctxClear, .keyExpand, .aeadInitEnc, .aeadInitDec, .aeadDec4, .aeadFinal, .aeadAbort] →
      (∀ nb, i ≠ .aeadDec nb) → t.pbuf = s.pbuf ∧ t.pbCount = s.pbCount ∧ (i ≠ .aeadPtRead → t.pbRdptr = s.pbRdptr))

/-- R199: DEC_VERIFIED is entered only by an AEAD_FINAL in a decryption whose tag compared equal over the first TAGLEN_L
bytes. -/
def Obligations.OnlyAnEqualTagVerifies : Prop :=
  ∀ s t : State, step s = .next t → t.status.phase = .decVerified → s.status.phase ≠ .decVerified →
    s.pending = some 0x00000035 ∧ (s.status.phase = .decAad ∨ s.status.phase = .decData) ∧
      maskNb (encryptBlock s.rk s.j0 ^^^ gfMul (s.x ^^^ (s.aadlen ++ s.ctlen)) s.h) s.taglenL.toNat =
        maskNb (s.tagin[0] ++ s.tagin[1] ++ s.tagin[2] ++ s.tagin[3]) s.taglenL.toNat

/-- R199: every exit from DEC_DATA or DEC_AAD but verification discards PBUF, and in these phases nothing but the block
commands, CTX_CLEAR and RESET writes DOUT: no plaintext is visible before the tag is verified. -/
def Obligations.FailClosed : Prop :=
  ∀ s t : State, step s = .next t → (s.status.phase = .decAad ∨ s.status.phase = .decData) →
    (t.status.phase ≠ .decAad → t.status.phase ≠ .decData → t.status.phase ≠ .decVerified →
      (∀ k, t.pbuf.get k = 0) ∧ t.pbCount = 0 ∧ t.pbRdptr = 0) ∧
    ((∀ rest, s.host.schedule ≠ .reset :: rest) →
      s.pending ∉ [some 0x00000002, some 0x00000010, some 0x00000011, some 0x00000012, some 0x00000013] →
      t.dout = s.dout)

/-- R199, R56: until the tag is verified, the decrypted plaintext has no influence: two runs that differ in PBUF's blocks
alone take the same step, return the same values to the host, and differ again in PBUF's blocks alone. -/
def Obligations.UnverifiedPlaintextHasNoInfluence : Prop :=
  ∀ (s : State) (p : Pbuf), s.status.phase ≠ .decVerified →
    (∀ t, step s = .next t → ∃ q, step { s with pbuf := p } = .next { t with pbuf := q }) ∧
    (∀ f, step s = .fault f → step { s with pbuf := p } = .fault f) ∧
    (∀ r, step s = .refused r → step { s with pbuf := p } = .refused r)

/-- R183, R200: the chunk commands keep an encrypting and a decrypting core at the same point of the message: the
decrypting core, given the ciphertext the encrypting one put out, buffers the plaintext masked to NB bytes. -/
def Obligations.RoundTripOfAChunk : Prop :=
  ∀ (e d : State) (nb : BitVec 5), Mirror e d → nb.toNat ≤ 16 → nb ≠ 0 → mayEncrypt e →
    d.pbCount.toNat < d.pbufBlocks.toNat →
    ∃ e' d' : State, exec (.aeadEnc nb) e = .next e' ∧
      exec (.aeadDec nb) { d with din := d.din.set 0 (Vector.ofFn (fun w : Fin 4 => wordOf e'.dout[0] w)) } = .next d' ∧
      e'.status.err = 0 ∧ d'.status.err = 0 ∧ Mirror e' d' ∧ d'.pbCount.toNat = d.pbCount.toNat + 1 ∧
      d'.pbuf = d.pbuf.put d.pbCount.toNat (maskNb (din e 0) nb.toNat)

/-- R192, R200: the same associated data keeps them so, and at the end the decrypting core, given the encrypting one's tag,
verifies it. -/
def Obligations.RoundTripOfTheTag : Prop :=
  ∀ e d : State, Mirror e d →
    (∀ nb : BitVec 5, nb.toNat ≤ 16 → e.status.phase = .encAad → e.status.partialChunk = false → din d 0 = din e 0 →
      ∃ e' d' : State, exec (.aeadAad nb) e = .next e' ∧ exec (.aeadAad nb) d = .next d' ∧ e'.status.err = 0 ∧
        d'.status.err = 0 ∧ Mirror e' d') ∧
    ∃ e' d' : State, exec .aeadFinal e = .next e' ∧ e'.status.err = 0 ∧
      exec .aeadFinal { d with tagin := Vector.ofFn (fun k : Fin 4 => wordOf e'.tagv k) } = .next d' ∧
      d'.status.err = 0 ∧ d'.status.phase = .decVerified ∧ d'.pbuf = d.pbuf ∧ d'.pbCount = d.pbCount
end

