-- ==== Sys2Proof/Laws/State.lean ====
section
/-!
SUPPORT. What each named update of the state does to each field: one lemma per field per update, so that no proof unfolds a
record update.
-/

namespace Sys2Proof.Machine

/-! ### complete -/

@[simp] theorem State.complete_pending (s : State) (e : ErrCode) : (s.complete e).pending = none := rfl
@[simp] theorem State.complete_cmd (s : State) (e : ErrCode) : (s.complete e).cmd = s.cmd := rfl
@[simp] theorem State.complete_status (s : State) (e : ErrCode) :
    (s.complete e).status = { s.status with err := e.code, done := true } := rfl
@[simp] theorem State.complete_cfg (s : State) (e : ErrCode) : (s.complete e).cfg = s.cfg := rfl
@[simp] theorem State.complete_key (s : State) (e : ErrCode) : (s.complete e).key = s.key := rfl
@[simp] theorem State.complete_nonce (s : State) (e : ErrCode) : (s.complete e).nonce = s.nonce := rfl
@[simp] theorem State.complete_tagin (s : State) (e : ErrCode) : (s.complete e).tagin = s.tagin := rfl
@[simp] theorem State.complete_din (s : State) (e : ErrCode) : (s.complete e).din = s.din := rfl
@[simp] theorem State.complete_dout (s : State) (e : ErrCode) : (s.complete e).dout = s.dout := rfl
@[simp] theorem State.complete_hkeyin (s : State) (e : ErrCode) : (s.complete e).hkeyin = s.hkeyin := rfl
@[simp] theorem State.complete_rk (s : State) (e : ErrCode) : (s.complete e).rk = s.rk := rfl
@[simp] theorem State.complete_h (s : State) (e : ErrCode) : (s.complete e).h = s.h := rfl
@[simp] theorem State.complete_x (s : State) (e : ErrCode) : (s.complete e).x = s.x := rfl
@[simp] theorem State.complete_j0 (s : State) (e : ErrCode) : (s.complete e).j0 = s.j0 := rfl
@[simp] theorem State.complete_ctr (s : State) (e : ErrCode) : (s.complete e).ctr = s.ctr := rfl
@[simp] theorem State.complete_aadlen (s : State) (e : ErrCode) : (s.complete e).aadlen = s.aadlen := rfl
@[simp] theorem State.complete_ctlen (s : State) (e : ErrCode) : (s.complete e).ctlen = s.ctlen := rfl
@[simp] theorem State.complete_tagv (s : State) (e : ErrCode) : (s.complete e).tagv = s.tagv := rfl
@[simp] theorem State.complete_taglenL (s : State) (e : ErrCode) : (s.complete e).taglenL = s.taglenL := rfl
@[simp] theorem State.complete_pbuf (s : State) (e : ErrCode) : (s.complete e).pbuf = s.pbuf := rfl
@[simp] theorem State.complete_pbCount (s : State) (e : ErrCode) : (s.complete e).pbCount = s.pbCount := rfl
@[simp] theorem State.complete_pbRdptr (s : State) (e : ErrCode) : (s.complete e).pbRdptr = s.pbRdptr := rfl
@[simp] theorem State.complete_pbufBlocks (s : State) (e : ErrCode) : (s.complete e).pbufBlocks = s.pbufBlocks := rfl
@[simp] theorem State.complete_host (s : State) (e : ErrCode) : (s.complete e).host = s.host := rfl

/-! ### zeroPbuf -/

@[simp] theorem State.zeroPbuf_pending (s : State) : (s.zeroPbuf).pending = s.pending := rfl
@[simp] theorem State.zeroPbuf_cmd (s : State) : (s.zeroPbuf).cmd = s.cmd := rfl
@[simp] theorem State.zeroPbuf_status (s : State) : (s.zeroPbuf).status = s.status := rfl
@[simp] theorem State.zeroPbuf_cfg (s : State) : (s.zeroPbuf).cfg = s.cfg := rfl
@[simp] theorem State.zeroPbuf_key (s : State) : (s.zeroPbuf).key = s.key := rfl
@[simp] theorem State.zeroPbuf_nonce (s : State) : (s.zeroPbuf).nonce = s.nonce := rfl
@[simp] theorem State.zeroPbuf_tagin (s : State) : (s.zeroPbuf).tagin = s.tagin := rfl
@[simp] theorem State.zeroPbuf_din (s : State) : (s.zeroPbuf).din = s.din := rfl
@[simp] theorem State.zeroPbuf_dout (s : State) : (s.zeroPbuf).dout = s.dout := rfl
@[simp] theorem State.zeroPbuf_hkeyin (s : State) : (s.zeroPbuf).hkeyin = s.hkeyin := rfl
@[simp] theorem State.zeroPbuf_rk (s : State) : (s.zeroPbuf).rk = s.rk := rfl
@[simp] theorem State.zeroPbuf_h (s : State) : (s.zeroPbuf).h = s.h := rfl
@[simp] theorem State.zeroPbuf_x (s : State) : (s.zeroPbuf).x = s.x := rfl
@[simp] theorem State.zeroPbuf_j0 (s : State) : (s.zeroPbuf).j0 = s.j0 := rfl
@[simp] theorem State.zeroPbuf_ctr (s : State) : (s.zeroPbuf).ctr = s.ctr := rfl
@[simp] theorem State.zeroPbuf_aadlen (s : State) : (s.zeroPbuf).aadlen = s.aadlen := rfl
@[simp] theorem State.zeroPbuf_ctlen (s : State) : (s.zeroPbuf).ctlen = s.ctlen := rfl
@[simp] theorem State.zeroPbuf_tagv (s : State) : (s.zeroPbuf).tagv = s.tagv := rfl
@[simp] theorem State.zeroPbuf_taglenL (s : State) : (s.zeroPbuf).taglenL = s.taglenL := rfl
@[simp] theorem State.zeroPbuf_pbuf (s : State) : (s.zeroPbuf).pbuf = [] := rfl
@[simp] theorem State.zeroPbuf_pbCount (s : State) : (s.zeroPbuf).pbCount = 0 := rfl
@[simp] theorem State.zeroPbuf_pbRdptr (s : State) : (s.zeroPbuf).pbRdptr = 0 := rfl
@[simp] theorem State.zeroPbuf_pbufBlocks (s : State) : (s.zeroPbuf).pbufBlocks = s.pbufBlocks := rfl
@[simp] theorem State.zeroPbuf_host (s : State) : (s.zeroPbuf).host = s.host := rfl

/-! ### pushPlain -/

@[simp] theorem State.pushPlain_pending (s : State) (p : Block) : (s.pushPlain p).pending = s.pending := rfl
@[simp] theorem State.pushPlain_cmd (s : State) (p : Block) : (s.pushPlain p).cmd = s.cmd := rfl
@[simp] theorem State.pushPlain_status (s : State) (p : Block) : (s.pushPlain p).status = s.status := rfl
@[simp] theorem State.pushPlain_cfg (s : State) (p : Block) : (s.pushPlain p).cfg = s.cfg := rfl
@[simp] theorem State.pushPlain_key (s : State) (p : Block) : (s.pushPlain p).key = s.key := rfl
@[simp] theorem State.pushPlain_nonce (s : State) (p : Block) : (s.pushPlain p).nonce = s.nonce := rfl
@[simp] theorem State.pushPlain_tagin (s : State) (p : Block) : (s.pushPlain p).tagin = s.tagin := rfl
@[simp] theorem State.pushPlain_din (s : State) (p : Block) : (s.pushPlain p).din = s.din := rfl
@[simp] theorem State.pushPlain_dout (s : State) (p : Block) : (s.pushPlain p).dout = s.dout := rfl
@[simp] theorem State.pushPlain_hkeyin (s : State) (p : Block) : (s.pushPlain p).hkeyin = s.hkeyin := rfl
@[simp] theorem State.pushPlain_rk (s : State) (p : Block) : (s.pushPlain p).rk = s.rk := rfl
@[simp] theorem State.pushPlain_h (s : State) (p : Block) : (s.pushPlain p).h = s.h := rfl
@[simp] theorem State.pushPlain_x (s : State) (p : Block) : (s.pushPlain p).x = s.x := rfl
@[simp] theorem State.pushPlain_j0 (s : State) (p : Block) : (s.pushPlain p).j0 = s.j0 := rfl
@[simp] theorem State.pushPlain_ctr (s : State) (p : Block) : (s.pushPlain p).ctr = s.ctr := rfl
@[simp] theorem State.pushPlain_aadlen (s : State) (p : Block) : (s.pushPlain p).aadlen = s.aadlen := rfl
@[simp] theorem State.pushPlain_ctlen (s : State) (p : Block) : (s.pushPlain p).ctlen = s.ctlen := rfl
@[simp] theorem State.pushPlain_tagv (s : State) (p : Block) : (s.pushPlain p).tagv = s.tagv := rfl
@[simp] theorem State.pushPlain_taglenL (s : State) (p : Block) : (s.pushPlain p).taglenL = s.taglenL := rfl
@[simp] theorem State.pushPlain_pbuf (s : State) (p : Block) :
    (s.pushPlain p).pbuf = Pbuf.put s.pbuf s.pbCount.toNat p := rfl
@[simp] theorem State.pushPlain_pbCount (s : State) (p : Block) : (s.pushPlain p).pbCount = s.pbCount + 1 := rfl
@[simp] theorem State.pushPlain_pbRdptr (s : State) (p : Block) : (s.pushPlain p).pbRdptr = s.pbRdptr := rfl
@[simp] theorem State.pushPlain_pbufBlocks (s : State) (p : Block) : (s.pushPlain p).pbufBlocks = s.pbufBlocks := rfl
@[simp] theorem State.pushPlain_host (s : State) (p : Block) : (s.pushPlain p).host = s.host := rfl

/-! ### putDout -/

@[simp] theorem State.putDout_pending (s : State) (l : Fin 4) (v : Block) : (s.putDout l v).pending = s.pending := rfl
@[simp] theorem State.putDout_cmd (s : State) (l : Fin 4) (v : Block) : (s.putDout l v).cmd = s.cmd := rfl
@[simp] theorem State.putDout_status (s : State) (l : Fin 4) (v : Block) : (s.putDout l v).status = s.status := rfl
@[simp] theorem State.putDout_cfg (s : State) (l : Fin 4) (v : Block) : (s.putDout l v).cfg = s.cfg := rfl
@[simp] theorem State.putDout_key (s : State) (l : Fin 4) (v : Block) : (s.putDout l v).key = s.key := rfl
@[simp] theorem State.putDout_nonce (s : State) (l : Fin 4) (v : Block) : (s.putDout l v).nonce = s.nonce := rfl
@[simp] theorem State.putDout_tagin (s : State) (l : Fin 4) (v : Block) : (s.putDout l v).tagin = s.tagin := rfl
@[simp] theorem State.putDout_din (s : State) (l : Fin 4) (v : Block) : (s.putDout l v).din = s.din := rfl
@[simp] theorem State.putDout_dout (s : State) (l : Fin 4) (v : Block) : (s.putDout l v).dout = s.dout.set l v := rfl
@[simp] theorem State.putDout_hkeyin (s : State) (l : Fin 4) (v : Block) : (s.putDout l v).hkeyin = s.hkeyin := rfl
@[simp] theorem State.putDout_rk (s : State) (l : Fin 4) (v : Block) : (s.putDout l v).rk = s.rk := rfl
@[simp] theorem State.putDout_h (s : State) (l : Fin 4) (v : Block) : (s.putDout l v).h = s.h := rfl
@[simp] theorem State.putDout_x (s : State) (l : Fin 4) (v : Block) : (s.putDout l v).x = s.x := rfl
@[simp] theorem State.putDout_j0 (s : State) (l : Fin 4) (v : Block) : (s.putDout l v).j0 = s.j0 := rfl
@[simp] theorem State.putDout_ctr (s : State) (l : Fin 4) (v : Block) : (s.putDout l v).ctr = s.ctr := rfl
@[simp] theorem State.putDout_aadlen (s : State) (l : Fin 4) (v : Block) : (s.putDout l v).aadlen = s.aadlen := rfl
@[simp] theorem State.putDout_ctlen (s : State) (l : Fin 4) (v : Block) : (s.putDout l v).ctlen = s.ctlen := rfl
@[simp] theorem State.putDout_tagv (s : State) (l : Fin 4) (v : Block) : (s.putDout l v).tagv = s.tagv := rfl
@[simp] theorem State.putDout_taglenL (s : State) (l : Fin 4) (v : Block) : (s.putDout l v).taglenL = s.taglenL := rfl
@[simp] theorem State.putDout_pbuf (s : State) (l : Fin 4) (v : Block) : (s.putDout l v).pbuf = s.pbuf := rfl
@[simp] theorem State.putDout_pbCount (s : State) (l : Fin 4) (v : Block) : (s.putDout l v).pbCount = s.pbCount := rfl
@[simp] theorem State.putDout_pbRdptr (s : State) (l : Fin 4) (v : Block) : (s.putDout l v).pbRdptr = s.pbRdptr := rfl
@[simp] theorem State.putDout_pbufBlocks (s : State) (l : Fin 4) (v : Block) :
    (s.putDout l v).pbufBlocks = s.pbufBlocks := rfl
@[simp] theorem State.putDout_host (s : State) (l : Fin 4) (v : Block) : (s.putDout l v).host = s.host := rfl

/-! ### fold -/

@[simp] theorem State.fold_pending (s : State) (b : Block) : (s.fold b).pending = s.pending := rfl
@[simp] theorem State.fold_cmd (s : State) (b : Block) : (s.fold b).cmd = s.cmd := rfl
@[simp] theorem State.fold_status (s : State) (b : Block) : (s.fold b).status = s.status := rfl
@[simp] theorem State.fold_cfg (s : State) (b : Block) : (s.fold b).cfg = s.cfg := rfl
@[simp] theorem State.fold_key (s : State) (b : Block) : (s.fold b).key = s.key := rfl
@[simp] theorem State.fold_nonce (s : State) (b : Block) : (s.fold b).nonce = s.nonce := rfl
@[simp] theorem State.fold_tagin (s : State) (b : Block) : (s.fold b).tagin = s.tagin := rfl
@[simp] theorem State.fold_din (s : State) (b : Block) : (s.fold b).din = s.din := rfl
@[simp] theorem State.fold_dout (s : State) (b : Block) : (s.fold b).dout = s.dout := rfl
@[simp] theorem State.fold_hkeyin (s : State) (b : Block) : (s.fold b).hkeyin = s.hkeyin := rfl
@[simp] theorem State.fold_rk (s : State) (b : Block) : (s.fold b).rk = s.rk := rfl
@[simp] theorem State.fold_h (s : State) (b : Block) : (s.fold b).h = s.h := rfl
@[simp] theorem State.fold_x (s : State) (b : Block) : (s.fold b).x = gfMul (s.x ^^^ b) s.h := rfl
@[simp] theorem State.fold_j0 (s : State) (b : Block) : (s.fold b).j0 = s.j0 := rfl
@[simp] theorem State.fold_ctr (s : State) (b : Block) : (s.fold b).ctr = s.ctr := rfl
@[simp] theorem State.fold_aadlen (s : State) (b : Block) : (s.fold b).aadlen = s.aadlen := rfl
@[simp] theorem State.fold_ctlen (s : State) (b : Block) : (s.fold b).ctlen = s.ctlen := rfl
@[simp] theorem State.fold_tagv (s : State) (b : Block) : (s.fold b).tagv = s.tagv := rfl
@[simp] theorem State.fold_taglenL (s : State) (b : Block) : (s.fold b).taglenL = s.taglenL := rfl
@[simp] theorem State.fold_pbuf (s : State) (b : Block) : (s.fold b).pbuf = s.pbuf := rfl
@[simp] theorem State.fold_pbCount (s : State) (b : Block) : (s.fold b).pbCount = s.pbCount := rfl
@[simp] theorem State.fold_pbRdptr (s : State) (b : Block) : (s.fold b).pbRdptr = s.pbRdptr := rfl
@[simp] theorem State.fold_pbufBlocks (s : State) (b : Block) : (s.fold b).pbufBlocks = s.pbufBlocks := rfl
@[simp] theorem State.fold_host (s : State) (b : Block) : (s.fold b).host = s.host := rfl

/-! ### absorb -/

@[simp] theorem State.absorb_pending (s : State) (c : Block) (n : BitVec 64) : (s.absorb c n).pending = s.pending := rfl
@[simp] theorem State.absorb_cmd (s : State) (c : Block) (n : BitVec 64) : (s.absorb c n).cmd = s.cmd := rfl
@[simp] theorem State.absorb_status (s : State) (c : Block) (n : BitVec 64) : (s.absorb c n).status = s.status := rfl
@[simp] theorem State.absorb_cfg (s : State) (c : Block) (n : BitVec 64) : (s.absorb c n).cfg = s.cfg := rfl
@[simp] theorem State.absorb_key (s : State) (c : Block) (n : BitVec 64) : (s.absorb c n).key = s.key := rfl
@[simp] theorem State.absorb_nonce (s : State) (c : Block) (n : BitVec 64) : (s.absorb c n).nonce = s.nonce := rfl
@[simp] theorem State.absorb_tagin (s : State) (c : Block) (n : BitVec 64) : (s.absorb c n).tagin = s.tagin := rfl
@[simp] theorem State.absorb_din (s : State) (c : Block) (n : BitVec 64) : (s.absorb c n).din = s.din := rfl
@[simp] theorem State.absorb_dout (s : State) (c : Block) (n : BitVec 64) : (s.absorb c n).dout = s.dout := rfl
@[simp] theorem State.absorb_hkeyin (s : State) (c : Block) (n : BitVec 64) : (s.absorb c n).hkeyin = s.hkeyin := rfl
@[simp] theorem State.absorb_rk (s : State) (c : Block) (n : BitVec 64) : (s.absorb c n).rk = s.rk := rfl
@[simp] theorem State.absorb_h (s : State) (c : Block) (n : BitVec 64) : (s.absorb c n).h = s.h := rfl
@[simp] theorem State.absorb_x (s : State) (c : Block) (n : BitVec 64) : (s.absorb c n).x = gfMul (s.x ^^^ c) s.h := rfl
@[simp] theorem State.absorb_j0 (s : State) (c : Block) (n : BitVec 64) : (s.absorb c n).j0 = s.j0 := rfl
@[simp] theorem State.absorb_ctr (s : State) (c : Block) (n : BitVec 64) : (s.absorb c n).ctr = inc32 s.ctr := rfl
@[simp] theorem State.absorb_aadlen (s : State) (c : Block) (n : BitVec 64) : (s.absorb c n).aadlen = s.aadlen := rfl
@[simp] theorem State.absorb_ctlen (s : State) (c : Block) (n : BitVec 64) : (s.absorb c n).ctlen = s.ctlen + n := rfl
@[simp] theorem State.absorb_tagv (s : State) (c : Block) (n : BitVec 64) : (s.absorb c n).tagv = s.tagv := rfl
@[simp] theorem State.absorb_taglenL (s : State) (c : Block) (n : BitVec 64) : (s.absorb c n).taglenL = s.taglenL := rfl
@[simp] theorem State.absorb_pbuf (s : State) (c : Block) (n : BitVec 64) : (s.absorb c n).pbuf = s.pbuf := rfl
@[simp] theorem State.absorb_pbCount (s : State) (c : Block) (n : BitVec 64) : (s.absorb c n).pbCount = s.pbCount := rfl
@[simp] theorem State.absorb_pbRdptr (s : State) (c : Block) (n : BitVec 64) : (s.absorb c n).pbRdptr = s.pbRdptr := rfl
@[simp] theorem State.absorb_pbufBlocks (s : State) (c : Block) (n : BitVec 64) :
    (s.absorb c n).pbufBlocks = s.pbufBlocks := rfl
@[simp] theorem State.absorb_host (s : State) (c : Block) (n : BitVec 64) : (s.absorb c n).host = s.host := rfl

/-! ### notePartial -/

@[simp] theorem State.notePartial_pending (s : State) (nb : BitVec 5) : (s.notePartial nb).pending = s.pending := rfl
@[simp] theorem State.notePartial_cmd (s : State) (nb : BitVec 5) : (s.notePartial nb).cmd = s.cmd := rfl
@[simp] theorem State.notePartial_status (s : State) (nb : BitVec 5) :
    (s.notePartial nb).status = { s.status with partialChunk := if nb.toNat < 16 then true else s.status.partialChunk } := rfl
@[simp] theorem State.notePartial_cfg (s : State) (nb : BitVec 5) : (s.notePartial nb).cfg = s.cfg := rfl
@[simp] theorem State.notePartial_key (s : State) (nb : BitVec 5) : (s.notePartial nb).key = s.key := rfl
@[simp] theorem State.notePartial_nonce (s : State) (nb : BitVec 5) : (s.notePartial nb).nonce = s.nonce := rfl
@[simp] theorem State.notePartial_tagin (s : State) (nb : BitVec 5) : (s.notePartial nb).tagin = s.tagin := rfl
@[simp] theorem State.notePartial_din (s : State) (nb : BitVec 5) : (s.notePartial nb).din = s.din := rfl
@[simp] theorem State.notePartial_dout (s : State) (nb : BitVec 5) : (s.notePartial nb).dout = s.dout := rfl
@[simp] theorem State.notePartial_hkeyin (s : State) (nb : BitVec 5) : (s.notePartial nb).hkeyin = s.hkeyin := rfl
@[simp] theorem State.notePartial_rk (s : State) (nb : BitVec 5) : (s.notePartial nb).rk = s.rk := rfl
@[simp] theorem State.notePartial_h (s : State) (nb : BitVec 5) : (s.notePartial nb).h = s.h := rfl
@[simp] theorem State.notePartial_x (s : State) (nb : BitVec 5) : (s.notePartial nb).x = s.x := rfl
@[simp] theorem State.notePartial_j0 (s : State) (nb : BitVec 5) : (s.notePartial nb).j0 = s.j0 := rfl
@[simp] theorem State.notePartial_ctr (s : State) (nb : BitVec 5) : (s.notePartial nb).ctr = s.ctr := rfl
@[simp] theorem State.notePartial_aadlen (s : State) (nb : BitVec 5) : (s.notePartial nb).aadlen = s.aadlen := rfl
@[simp] theorem State.notePartial_ctlen (s : State) (nb : BitVec 5) : (s.notePartial nb).ctlen = s.ctlen := rfl
@[simp] theorem State.notePartial_tagv (s : State) (nb : BitVec 5) : (s.notePartial nb).tagv = s.tagv := rfl
@[simp] theorem State.notePartial_taglenL (s : State) (nb : BitVec 5) : (s.notePartial nb).taglenL = s.taglenL := rfl
@[simp] theorem State.notePartial_pbuf (s : State) (nb : BitVec 5) : (s.notePartial nb).pbuf = s.pbuf := rfl
@[simp] theorem State.notePartial_pbCount (s : State) (nb : BitVec 5) : (s.notePartial nb).pbCount = s.pbCount := rfl
@[simp] theorem State.notePartial_pbRdptr (s : State) (nb : BitVec 5) : (s.notePartial nb).pbRdptr = s.pbRdptr := rfl
@[simp] theorem State.notePartial_pbufBlocks (s : State) (nb : BitVec 5) :
    (s.notePartial nb).pbufBlocks = s.pbufBlocks := rfl
@[simp] theorem State.notePartial_host (s : State) (nb : BitVec 5) : (s.notePartial nb).host = s.host := rfl

/-! ### openPlaintext -/

@[simp] theorem State.openPlaintext_pending (s : State) : (s.openPlaintext).pending = s.pending := by
  unfold State.openPlaintext; split <;> rfl
@[simp] theorem State.openPlaintext_cmd (s : State) : (s.openPlaintext).cmd = s.cmd := by
  unfold State.openPlaintext; split <;> rfl
/-- Not a simp lemma: the next ones give the fields. -/
theorem State.openPlaintext_status (s : State) :
    (s.openPlaintext).status = if s.status.phase = .encAad then { s.status with phase := .encData, partialChunk := false } else s.status := by
  unfold State.openPlaintext; split <;> rfl
@[simp] theorem State.openPlaintext_status_done (s : State) : s.openPlaintext.status.done = s.status.done := by
  unfold State.openPlaintext; split <;> rfl
@[simp] theorem State.openPlaintext_status_ovr (s : State) : s.openPlaintext.status.ovr = s.status.ovr := by
  unfold State.openPlaintext; split <;> rfl
@[simp] theorem State.openPlaintext_status_err (s : State) : s.openPlaintext.status.err = s.status.err := by
  unfold State.openPlaintext; split <;> rfl
@[simp] theorem State.openPlaintext_status_keyValid (s : State) : s.openPlaintext.status.keyValid = s.status.keyValid := by
  unfold State.openPlaintext; split <;> rfl
@[simp] theorem State.openPlaintext_status_hValid (s : State) : s.openPlaintext.status.hValid = s.status.hValid := by
  unfold State.openPlaintext; split <;> rfl
@[simp] theorem State.openPlaintext_status_authOk (s : State) : s.openPlaintext.status.authOk = s.status.authOk := by
  unfold State.openPlaintext; split <;> rfl
@[simp] theorem State.openPlaintext_status_ctxStrategy (s : State) : s.openPlaintext.status.ctxStrategy = s.status.ctxStrategy := by
  unfold State.openPlaintext; split <;> rfl
@[simp] theorem State.openPlaintext_status_phase (s : State) :
    s.openPlaintext.status.phase = if s.status.phase = .encAad then .encData else s.status.phase := by
  unfold State.openPlaintext; split <;> rfl
@[simp] theorem State.openPlaintext_status_partialChunk (s : State) :
    s.openPlaintext.status.partialChunk = if s.status.phase = .encAad then false else s.status.partialChunk := by
  unfold State.openPlaintext; split <;> rfl
@[simp] theorem State.openPlaintext_cfg (s : State) : (s.openPlaintext).cfg = s.cfg := by
  unfold State.openPlaintext; split <;> rfl
@[simp] theorem State.openPlaintext_key (s : State) : (s.openPlaintext).key = s.key := by
  unfold State.openPlaintext; split <;> rfl
@[simp] theorem State.openPlaintext_nonce (s : State) : (s.openPlaintext).nonce = s.nonce := by
  unfold State.openPlaintext; split <;> rfl
@[simp] theorem State.openPlaintext_tagin (s : State) : (s.openPlaintext).tagin = s.tagin := by
  unfold State.openPlaintext; split <;> rfl
@[simp] theorem State.openPlaintext_din (s : State) : (s.openPlaintext).din = s.din := by
  unfold State.openPlaintext; split <;> rfl
@[simp] theorem State.openPlaintext_dout (s : State) : (s.openPlaintext).dout = s.dout := by
  unfold State.openPlaintext; split <;> rfl
@[simp] theorem State.openPlaintext_hkeyin (s : State) : (s.openPlaintext).hkeyin = s.hkeyin := by
  unfold State.openPlaintext; split <;> rfl
@[simp] theorem State.openPlaintext_rk (s : State) : (s.openPlaintext).rk = s.rk := by
  unfold State.openPlaintext; split <;> rfl
@[simp] theorem State.openPlaintext_h (s : State) : (s.openPlaintext).h = s.h := by
  unfold State.openPlaintext; split <;> rfl
@[simp] theorem State.openPlaintext_x (s : State) : (s.openPlaintext).x = s.x := by
  unfold State.openPlaintext; split <;> rfl
@[simp] theorem State.openPlaintext_j0 (s : State) : (s.openPlaintext).j0 = s.j0 := by
  unfold State.openPlaintext; split <;> rfl
@[simp] theorem State.openPlaintext_ctr (s : State) : (s.openPlaintext).ctr = s.ctr := by
  unfold State.openPlaintext; split <;> rfl
@[simp] theorem State.openPlaintext_aadlen (s : State) : (s.openPlaintext).aadlen = s.aadlen := by
  unfold State.openPlaintext; split <;> rfl
@[simp] theorem State.openPlaintext_ctlen (s : State) : (s.openPlaintext).ctlen = s.ctlen := by
  unfold State.openPlaintext; split <;> rfl
@[simp] theorem State.openPlaintext_tagv (s : State) : (s.openPlaintext).tagv = s.tagv := by
  unfold State.openPlaintext; split <;> rfl
@[simp] theorem State.openPlaintext_taglenL (s : State) : (s.openPlaintext).taglenL = s.taglenL := by
  unfold State.openPlaintext; split <;> rfl
@[simp] theorem State.openPlaintext_pbuf (s : State) : (s.openPlaintext).pbuf = s.pbuf := by
  unfold State.openPlaintext; split <;> rfl
@[simp] theorem State.openPlaintext_pbCount (s : State) : (s.openPlaintext).pbCount = s.pbCount := by
  unfold State.openPlaintext; split <;> rfl
@[simp] theorem State.openPlaintext_pbRdptr (s : State) : (s.openPlaintext).pbRdptr = s.pbRdptr := by
  unfold State.openPlaintext; split <;> rfl
@[simp] theorem State.openPlaintext_pbufBlocks (s : State) : (s.openPlaintext).pbufBlocks = s.pbufBlocks := by
  unfold State.openPlaintext; split <;> rfl
@[simp] theorem State.openPlaintext_host (s : State) : (s.openPlaintext).host = s.host := by
  unfold State.openPlaintext; split <;> rfl

/-! ### openCiphertext -/

@[simp] theorem State.openCiphertext_pending (s : State) : (s.openCiphertext).pending = s.pending := by
  unfold State.openCiphertext; split <;> rfl
@[simp] theorem State.openCiphertext_cmd (s : State) : (s.openCiphertext).cmd = s.cmd := by
  unfold State.openCiphertext; split <;> rfl
/-- Not a simp lemma: the next ones give the fields. -/
theorem State.openCiphertext_status (s : State) :
    (s.openCiphertext).status = if s.status.phase = .decAad then { s.status with phase := .decData, partialChunk := false } else s.status := by
  unfold State.openCiphertext; split <;> rfl
@[simp] theorem State.openCiphertext_status_done (s : State) : s.openCiphertext.status.done = s.status.done := by
  unfold State.openCiphertext; split <;> rfl
@[simp] theorem State.openCiphertext_status_ovr (s : State) : s.openCiphertext.status.ovr = s.status.ovr := by
  unfold State.openCiphertext; split <;> rfl
@[simp] theorem State.openCiphertext_status_err (s : State) : s.openCiphertext.status.err = s.status.err := by
  unfold State.openCiphertext; split <;> rfl
@[simp] theorem State.openCiphertext_status_keyValid (s : State) : s.openCiphertext.status.keyValid = s.status.keyValid := by
  unfold State.openCiphertext; split <;> rfl
@[simp] theorem State.openCiphertext_status_hValid (s : State) : s.openCiphertext.status.hValid = s.status.hValid := by
  unfold State.openCiphertext; split <;> rfl
@[simp] theorem State.openCiphertext_status_authOk (s : State) : s.openCiphertext.status.authOk = s.status.authOk := by
  unfold State.openCiphertext; split <;> rfl
@[simp] theorem State.openCiphertext_status_ctxStrategy (s : State) : s.openCiphertext.status.ctxStrategy = s.status.ctxStrategy := by
  unfold State.openCiphertext; split <;> rfl
@[simp] theorem State.openCiphertext_status_phase (s : State) :
    s.openCiphertext.status.phase = if s.status.phase = .decAad then .decData else s.status.phase := by
  unfold State.openCiphertext; split <;> rfl
@[simp] theorem State.openCiphertext_status_partialChunk (s : State) :
    s.openCiphertext.status.partialChunk = if s.status.phase = .decAad then false else s.status.partialChunk := by
  unfold State.openCiphertext; split <;> rfl
@[simp] theorem State.openCiphertext_cfg (s : State) : (s.openCiphertext).cfg = s.cfg := by
  unfold State.openCiphertext; split <;> rfl
@[simp] theorem State.openCiphertext_key (s : State) : (s.openCiphertext).key = s.key := by
  unfold State.openCiphertext; split <;> rfl
@[simp] theorem State.openCiphertext_nonce (s : State) : (s.openCiphertext).nonce = s.nonce := by
  unfold State.openCiphertext; split <;> rfl
@[simp] theorem State.openCiphertext_tagin (s : State) : (s.openCiphertext).tagin = s.tagin := by
  unfold State.openCiphertext; split <;> rfl
@[simp] theorem State.openCiphertext_din (s : State) : (s.openCiphertext).din = s.din := by
  unfold State.openCiphertext; split <;> rfl
@[simp] theorem State.openCiphertext_dout (s : State) : (s.openCiphertext).dout = s.dout := by
  unfold State.openCiphertext; split <;> rfl
@[simp] theorem State.openCiphertext_hkeyin (s : State) : (s.openCiphertext).hkeyin = s.hkeyin := by
  unfold State.openCiphertext; split <;> rfl
@[simp] theorem State.openCiphertext_rk (s : State) : (s.openCiphertext).rk = s.rk := by
  unfold State.openCiphertext; split <;> rfl
@[simp] theorem State.openCiphertext_h (s : State) : (s.openCiphertext).h = s.h := by
  unfold State.openCiphertext; split <;> rfl
@[simp] theorem State.openCiphertext_x (s : State) : (s.openCiphertext).x = s.x := by
  unfold State.openCiphertext; split <;> rfl
@[simp] theorem State.openCiphertext_j0 (s : State) : (s.openCiphertext).j0 = s.j0 := by
  unfold State.openCiphertext; split <;> rfl
@[simp] theorem State.openCiphertext_ctr (s : State) : (s.openCiphertext).ctr = s.ctr := by
  unfold State.openCiphertext; split <;> rfl
@[simp] theorem State.openCiphertext_aadlen (s : State) : (s.openCiphertext).aadlen = s.aadlen := by
  unfold State.openCiphertext; split <;> rfl
@[simp] theorem State.openCiphertext_ctlen (s : State) : (s.openCiphertext).ctlen = s.ctlen := by
  unfold State.openCiphertext; split <;> rfl
@[simp] theorem State.openCiphertext_tagv (s : State) : (s.openCiphertext).tagv = s.tagv := by
  unfold State.openCiphertext; split <;> rfl
@[simp] theorem State.openCiphertext_taglenL (s : State) : (s.openCiphertext).taglenL = s.taglenL := by
  unfold State.openCiphertext; split <;> rfl
@[simp] theorem State.openCiphertext_pbuf (s : State) : (s.openCiphertext).pbuf = s.pbuf := by
  unfold State.openCiphertext; split <;> rfl
@[simp] theorem State.openCiphertext_pbCount (s : State) : (s.openCiphertext).pbCount = s.pbCount := by
  unfold State.openCiphertext; split <;> rfl
@[simp] theorem State.openCiphertext_pbRdptr (s : State) : (s.openCiphertext).pbRdptr = s.pbRdptr := by
  unfold State.openCiphertext; split <;> rfl
@[simp] theorem State.openCiphertext_pbufBlocks (s : State) : (s.openCiphertext).pbufBlocks = s.pbufBlocks := by
  unfold State.openCiphertext; split <;> rfl
@[simp] theorem State.openCiphertext_host (s : State) : (s.openCiphertext).host = s.host := by
  unfold State.openCiphertext; split <;> rfl

/-! ### emitCipher -/

@[simp] theorem State.emitCipher_pending (s : State) (l : Fin 4) (c : Block) (n : BitVec 64) :
    (s.emitCipher l c n).pending = s.pending := rfl
@[simp] theorem State.emitCipher_cmd (s : State) (l : Fin 4) (c : Block) (n : BitVec 64) :
    (s.emitCipher l c n).cmd = s.cmd := rfl
@[simp] theorem State.emitCipher_status (s : State) (l : Fin 4) (c : Block) (n : BitVec 64) :
    (s.emitCipher l c n).status = s.status := rfl
@[simp] theorem State.emitCipher_cfg (s : State) (l : Fin 4) (c : Block) (n : BitVec 64) :
    (s.emitCipher l c n).cfg = s.cfg := rfl
@[simp] theorem State.emitCipher_key (s : State) (l : Fin 4) (c : Block) (n : BitVec 64) :
    (s.emitCipher l c n).key = s.key := rfl
@[simp] theorem State.emitCipher_nonce (s : State) (l : Fin 4) (c : Block) (n : BitVec 64) :
    (s.emitCipher l c n).nonce = s.nonce := rfl
@[simp] theorem State.emitCipher_tagin (s : State) (l : Fin 4) (c : Block) (n : BitVec 64) :
    (s.emitCipher l c n).tagin = s.tagin := rfl
@[simp] theorem State.emitCipher_din (s : State) (l : Fin 4) (c : Block) (n : BitVec 64) :
    (s.emitCipher l c n).din = s.din := rfl
@[simp] theorem State.emitCipher_dout (s : State) (l : Fin 4) (c : Block) (n : BitVec 64) :
    (s.emitCipher l c n).dout = s.dout.set l c := rfl
@[simp] theorem State.emitCipher_hkeyin (s : State) (l : Fin 4) (c : Block) (n : BitVec 64) :
    (s.emitCipher l c n).hkeyin = s.hkeyin := rfl
@[simp] theorem State.emitCipher_rk (s : State) (l : Fin 4) (c : Block) (n : BitVec 64) :
    (s.emitCipher l c n).rk = s.rk := rfl
@[simp] theorem State.emitCipher_h (s : State) (l : Fin 4) (c : Block) (n : BitVec 64) :
    (s.emitCipher l c n).h = s.h := rfl
@[simp] theorem State.emitCipher_x (s : State) (l : Fin 4) (c : Block) (n : BitVec 64) :
    (s.emitCipher l c n).x = gfMul (s.x ^^^ c) s.h := rfl
@[simp] theorem State.emitCipher_j0 (s : State) (l : Fin 4) (c : Block) (n : BitVec 64) :
    (s.emitCipher l c n).j0 = s.j0 := rfl
@[simp] theorem State.emitCipher_ctr (s : State) (l : Fin 4) (c : Block) (n : BitVec 64) :
    (s.emitCipher l c n).ctr = inc32 s.ctr := rfl
@[simp] theorem State.emitCipher_aadlen (s : State) (l : Fin 4) (c : Block) (n : BitVec 64) :
    (s.emitCipher l c n).aadlen = s.aadlen := rfl
@[simp] theorem State.emitCipher_ctlen (s : State) (l : Fin 4) (c : Block) (n : BitVec 64) :
    (s.emitCipher l c n).ctlen = s.ctlen + n := rfl
@[simp] theorem State.emitCipher_tagv (s : State) (l : Fin 4) (c : Block) (n : BitVec 64) :
    (s.emitCipher l c n).tagv = s.tagv := rfl
@[simp] theorem State.emitCipher_taglenL (s : State) (l : Fin 4) (c : Block) (n : BitVec 64) :
    (s.emitCipher l c n).taglenL = s.taglenL := rfl
@[simp] theorem State.emitCipher_pbuf (s : State) (l : Fin 4) (c : Block) (n : BitVec 64) :
    (s.emitCipher l c n).pbuf = s.pbuf := rfl
@[simp] theorem State.emitCipher_pbCount (s : State) (l : Fin 4) (c : Block) (n : BitVec 64) :
    (s.emitCipher l c n).pbCount = s.pbCount := rfl
@[simp] theorem State.emitCipher_pbRdptr (s : State) (l : Fin 4) (c : Block) (n : BitVec 64) :
    (s.emitCipher l c n).pbRdptr = s.pbRdptr := rfl
@[simp] theorem State.emitCipher_pbufBlocks (s : State) (l : Fin 4) (c : Block) (n : BitVec 64) :
    (s.emitCipher l c n).pbufBlocks = s.pbufBlocks := rfl
@[simp] theorem State.emitCipher_host (s : State) (l : Fin 4) (c : Block) (n : BitVec 64) :
    (s.emitCipher l c n).host = s.host := rfl

/-! ### encryptLane -/

@[simp] theorem State.encryptLane_pending (s : State) (l : Fin 4) : (s.encryptLane l).pending = s.pending := rfl
@[simp] theorem State.encryptLane_cmd (s : State) (l : Fin 4) : (s.encryptLane l).cmd = s.cmd := rfl
@[simp] theorem State.encryptLane_status (s : State) (l : Fin 4) : (s.encryptLane l).status = s.status := rfl
@[simp] theorem State.encryptLane_cfg (s : State) (l : Fin 4) : (s.encryptLane l).cfg = s.cfg := rfl
@[simp] theorem State.encryptLane_key (s : State) (l : Fin 4) : (s.encryptLane l).key = s.key := rfl
@[simp] theorem State.encryptLane_nonce (s : State) (l : Fin 4) : (s.encryptLane l).nonce = s.nonce := rfl
@[simp] theorem State.encryptLane_tagin (s : State) (l : Fin 4) : (s.encryptLane l).tagin = s.tagin := rfl
@[simp] theorem State.encryptLane_din (s : State) (l : Fin 4) : (s.encryptLane l).din = s.din := rfl
@[simp] theorem State.encryptLane_dout (s : State) (l : Fin 4) :
    (s.encryptLane l).dout = s.dout.set l (s.dinBlock l ^^^ s.encrypt s.ctr) := rfl
@[simp] theorem State.encryptLane_hkeyin (s : State) (l : Fin 4) : (s.encryptLane l).hkeyin = s.hkeyin := rfl
@[simp] theorem State.encryptLane_rk (s : State) (l : Fin 4) : (s.encryptLane l).rk = s.rk := rfl
@[simp] theorem State.encryptLane_h (s : State) (l : Fin 4) : (s.encryptLane l).h = s.h := rfl
@[simp] theorem State.encryptLane_x (s : State) (l : Fin 4) :
    (s.encryptLane l).x = gfMul (s.x ^^^ (s.dinBlock l ^^^ s.encrypt s.ctr)) s.h := rfl
@[simp] theorem State.encryptLane_j0 (s : State) (l : Fin 4) : (s.encryptLane l).j0 = s.j0 := rfl
@[simp] theorem State.encryptLane_ctr (s : State) (l : Fin 4) : (s.encryptLane l).ctr = inc32 s.ctr := rfl
@[simp] theorem State.encryptLane_aadlen (s : State) (l : Fin 4) : (s.encryptLane l).aadlen = s.aadlen := rfl
@[simp] theorem State.encryptLane_ctlen (s : State) (l : Fin 4) : (s.encryptLane l).ctlen = s.ctlen + 128 := rfl
@[simp] theorem State.encryptLane_tagv (s : State) (l : Fin 4) : (s.encryptLane l).tagv = s.tagv := rfl
@[simp] theorem State.encryptLane_taglenL (s : State) (l : Fin 4) : (s.encryptLane l).taglenL = s.taglenL := rfl
@[simp] theorem State.encryptLane_pbuf (s : State) (l : Fin 4) : (s.encryptLane l).pbuf = s.pbuf := rfl
@[simp] theorem State.encryptLane_pbCount (s : State) (l : Fin 4) : (s.encryptLane l).pbCount = s.pbCount := rfl
@[simp] theorem State.encryptLane_pbRdptr (s : State) (l : Fin 4) : (s.encryptLane l).pbRdptr = s.pbRdptr := rfl
@[simp] theorem State.encryptLane_pbufBlocks (s : State) (l : Fin 4) :
    (s.encryptLane l).pbufBlocks = s.pbufBlocks := rfl
@[simp] theorem State.encryptLane_host (s : State) (l : Fin 4) : (s.encryptLane l).host = s.host := rfl

/-! ### decryptLane -/

@[simp] theorem State.decryptLane_pending (s : State) (l : Fin 4) : (s.decryptLane l).pending = s.pending := rfl
@[simp] theorem State.decryptLane_cmd (s : State) (l : Fin 4) : (s.decryptLane l).cmd = s.cmd := rfl
@[simp] theorem State.decryptLane_status (s : State) (l : Fin 4) : (s.decryptLane l).status = s.status := rfl
@[simp] theorem State.decryptLane_cfg (s : State) (l : Fin 4) : (s.decryptLane l).cfg = s.cfg := rfl
@[simp] theorem State.decryptLane_key (s : State) (l : Fin 4) : (s.decryptLane l).key = s.key := rfl
@[simp] theorem State.decryptLane_nonce (s : State) (l : Fin 4) : (s.decryptLane l).nonce = s.nonce := rfl
@[simp] theorem State.decryptLane_tagin (s : State) (l : Fin 4) : (s.decryptLane l).tagin = s.tagin := rfl
@[simp] theorem State.decryptLane_din (s : State) (l : Fin 4) : (s.decryptLane l).din = s.din := rfl
@[simp] theorem State.decryptLane_dout (s : State) (l : Fin 4) : (s.decryptLane l).dout = s.dout := rfl
@[simp] theorem State.decryptLane_hkeyin (s : State) (l : Fin 4) : (s.decryptLane l).hkeyin = s.hkeyin := rfl
@[simp] theorem State.decryptLane_rk (s : State) (l : Fin 4) : (s.decryptLane l).rk = s.rk := rfl
@[simp] theorem State.decryptLane_h (s : State) (l : Fin 4) : (s.decryptLane l).h = s.h := rfl
@[simp] theorem State.decryptLane_x (s : State) (l : Fin 4) :
    (s.decryptLane l).x = gfMul (s.x ^^^ s.dinBlock l) s.h := rfl
@[simp] theorem State.decryptLane_j0 (s : State) (l : Fin 4) : (s.decryptLane l).j0 = s.j0 := rfl
@[simp] theorem State.decryptLane_ctr (s : State) (l : Fin 4) : (s.decryptLane l).ctr = inc32 s.ctr := rfl
@[simp] theorem State.decryptLane_aadlen (s : State) (l : Fin 4) : (s.decryptLane l).aadlen = s.aadlen := rfl
@[simp] theorem State.decryptLane_ctlen (s : State) (l : Fin 4) : (s.decryptLane l).ctlen = s.ctlen + 128 := rfl
@[simp] theorem State.decryptLane_tagv (s : State) (l : Fin 4) : (s.decryptLane l).tagv = s.tagv := rfl
@[simp] theorem State.decryptLane_taglenL (s : State) (l : Fin 4) : (s.decryptLane l).taglenL = s.taglenL := rfl
@[simp] theorem State.decryptLane_pbuf (s : State) (l : Fin 4) :
    (s.decryptLane l).pbuf = Pbuf.put s.pbuf s.pbCount.toNat (s.dinBlock l ^^^ s.encrypt s.ctr) := rfl
@[simp] theorem State.decryptLane_pbCount (s : State) (l : Fin 4) : (s.decryptLane l).pbCount = s.pbCount + 1 := rfl
@[simp] theorem State.decryptLane_pbRdptr (s : State) (l : Fin 4) : (s.decryptLane l).pbRdptr = s.pbRdptr := rfl
@[simp] theorem State.decryptLane_pbufBlocks (s : State) (l : Fin 4) :
    (s.decryptLane l).pbufBlocks = s.pbufBlocks := rfl
@[simp] theorem State.decryptLane_host (s : State) (l : Fin 4) : (s.decryptLane l).host = s.host := rfl

/-! ### failMessage -/

@[simp] theorem State.failMessage_pending (s : State) : (s.failMessage).pending = s.pending := rfl
@[simp] theorem State.failMessage_cmd (s : State) : (s.failMessage).cmd = s.cmd := rfl
@[simp] theorem State.failMessage_status (s : State) :
    (s.failMessage).status = { s.status with phase := .failed, partialChunk := false } := rfl
@[simp] theorem State.failMessage_cfg (s : State) : (s.failMessage).cfg = s.cfg := rfl
@[simp] theorem State.failMessage_key (s : State) : (s.failMessage).key = s.key := rfl
@[simp] theorem State.failMessage_nonce (s : State) : (s.failMessage).nonce = s.nonce := rfl
@[simp] theorem State.failMessage_tagin (s : State) : (s.failMessage).tagin = s.tagin := rfl
@[simp] theorem State.failMessage_din (s : State) : (s.failMessage).din = s.din := rfl
@[simp] theorem State.failMessage_dout (s : State) : (s.failMessage).dout = s.dout := rfl
@[simp] theorem State.failMessage_hkeyin (s : State) : (s.failMessage).hkeyin = s.hkeyin := rfl
@[simp] theorem State.failMessage_rk (s : State) : (s.failMessage).rk = s.rk := rfl
@[simp] theorem State.failMessage_h (s : State) : (s.failMessage).h = s.h := rfl
@[simp] theorem State.failMessage_x (s : State) : (s.failMessage).x = s.x := rfl
@[simp] theorem State.failMessage_j0 (s : State) : (s.failMessage).j0 = s.j0 := rfl
@[simp] theorem State.failMessage_ctr (s : State) : (s.failMessage).ctr = s.ctr := rfl
@[simp] theorem State.failMessage_aadlen (s : State) : (s.failMessage).aadlen = s.aadlen := rfl
@[simp] theorem State.failMessage_ctlen (s : State) : (s.failMessage).ctlen = s.ctlen := rfl
@[simp] theorem State.failMessage_tagv (s : State) : (s.failMessage).tagv = s.tagv := rfl
@[simp] theorem State.failMessage_taglenL (s : State) : (s.failMessage).taglenL = s.taglenL := rfl
@[simp] theorem State.failMessage_pbuf (s : State) : (s.failMessage).pbuf = [] := rfl
@[simp] theorem State.failMessage_pbCount (s : State) : (s.failMessage).pbCount = 0 := rfl
@[simp] theorem State.failMessage_pbRdptr (s : State) : (s.failMessage).pbRdptr = 0 := rfl
@[simp] theorem State.failMessage_pbufBlocks (s : State) : (s.failMessage).pbufBlocks = s.pbufBlocks := rfl
@[simp] theorem State.failMessage_host (s : State) : (s.failMessage).host = s.host := rfl

/-! ### startMessage -/

@[simp] theorem State.startMessage_pending (s : State) (p : Phase) : (s.startMessage p).pending = s.pending := rfl
@[simp] theorem State.startMessage_cmd (s : State) (p : Phase) : (s.startMessage p).cmd = s.cmd := rfl
@[simp] theorem State.startMessage_status (s : State) (p : Phase) :
    (s.startMessage p).status = { s.status with hValid := true, authOk := false, partialChunk := false, phase := p } := rfl
@[simp] theorem State.startMessage_cfg (s : State) (p : Phase) : (s.startMessage p).cfg = s.cfg := rfl
@[simp] theorem State.startMessage_key (s : State) (p : Phase) : (s.startMessage p).key = s.key := rfl
@[simp] theorem State.startMessage_nonce (s : State) (p : Phase) : (s.startMessage p).nonce = s.nonce := rfl
@[simp] theorem State.startMessage_tagin (s : State) (p : Phase) : (s.startMessage p).tagin = s.tagin := rfl
@[simp] theorem State.startMessage_din (s : State) (p : Phase) : (s.startMessage p).din = s.din := rfl
@[simp] theorem State.startMessage_dout (s : State) (p : Phase) : (s.startMessage p).dout = s.dout := rfl
@[simp] theorem State.startMessage_hkeyin (s : State) (p : Phase) : (s.startMessage p).hkeyin = s.hkeyin := rfl
@[simp] theorem State.startMessage_rk (s : State) (p : Phase) : (s.startMessage p).rk = s.rk := rfl
@[simp] theorem State.startMessage_h (s : State) (p : Phase) : (s.startMessage p).h = s.encrypt 0 := rfl
@[simp] theorem State.startMessage_x (s : State) (p : Phase) : (s.startMessage p).x = 0 := rfl
@[simp] theorem State.startMessage_j0 (s : State) (p : Phase) : (s.startMessage p).j0 = s.stagedJ0 := rfl
@[simp] theorem State.startMessage_ctr (s : State) (p : Phase) : (s.startMessage p).ctr = inc32 s.stagedJ0 := rfl
@[simp] theorem State.startMessage_aadlen (s : State) (p : Phase) : (s.startMessage p).aadlen = 0 := rfl
@[simp] theorem State.startMessage_ctlen (s : State) (p : Phase) : (s.startMessage p).ctlen = 0 := rfl
@[simp] theorem State.startMessage_tagv (s : State) (p : Phase) : (s.startMessage p).tagv = 0 := rfl
@[simp] theorem State.startMessage_taglenL (s : State) (p : Phase) : (s.startMessage p).taglenL = s.cfg.tagLen := rfl
@[simp] theorem State.startMessage_pbuf (s : State) (p : Phase) : (s.startMessage p).pbuf = [] := rfl
@[simp] theorem State.startMessage_pbCount (s : State) (p : Phase) : (s.startMessage p).pbCount = 0 := rfl
@[simp] theorem State.startMessage_pbRdptr (s : State) (p : Phase) : (s.startMessage p).pbRdptr = 0 := rfl
@[simp] theorem State.startMessage_pbufBlocks (s : State) (p : Phase) :
    (s.startMessage p).pbufBlocks = s.pbufBlocks := rfl
@[simp] theorem State.startMessage_host (s : State) (p : Phase) : (s.startMessage p).host = s.host := rfl

/-! ### closeHash -/

@[simp] theorem State.closeHash_pending (s : State) : (s.closeHash).pending = s.pending := rfl
@[simp] theorem State.closeHash_cmd (s : State) : (s.closeHash).cmd = s.cmd := rfl
@[simp] theorem State.closeHash_status (s : State) :
    (s.closeHash).status = { s.status with partialChunk := false } := rfl
@[simp] theorem State.closeHash_cfg (s : State) : (s.closeHash).cfg = s.cfg := rfl
@[simp] theorem State.closeHash_key (s : State) : (s.closeHash).key = s.key := rfl
@[simp] theorem State.closeHash_nonce (s : State) : (s.closeHash).nonce = s.nonce := rfl
@[simp] theorem State.closeHash_tagin (s : State) : (s.closeHash).tagin = s.tagin := rfl
@[simp] theorem State.closeHash_din (s : State) : (s.closeHash).din = s.din := rfl
@[simp] theorem State.closeHash_dout (s : State) : (s.closeHash).dout = s.dout := rfl
@[simp] theorem State.closeHash_hkeyin (s : State) : (s.closeHash).hkeyin = s.hkeyin := rfl
@[simp] theorem State.closeHash_rk (s : State) : (s.closeHash).rk = s.rk := rfl
@[simp] theorem State.closeHash_h (s : State) : (s.closeHash).h = s.h := rfl
@[simp] theorem State.closeHash_x (s : State) : (s.closeHash).x = s.finalHash := rfl
@[simp] theorem State.closeHash_j0 (s : State) : (s.closeHash).j0 = s.j0 := rfl
@[simp] theorem State.closeHash_ctr (s : State) : (s.closeHash).ctr = s.ctr := rfl
@[simp] theorem State.closeHash_aadlen (s : State) : (s.closeHash).aadlen = s.aadlen := rfl
@[simp] theorem State.closeHash_ctlen (s : State) : (s.closeHash).ctlen = s.ctlen := rfl
@[simp] theorem State.closeHash_tagv (s : State) : (s.closeHash).tagv = s.tagv := rfl
@[simp] theorem State.closeHash_taglenL (s : State) : (s.closeHash).taglenL = s.taglenL := rfl
@[simp] theorem State.closeHash_pbuf (s : State) : (s.closeHash).pbuf = s.pbuf := rfl
@[simp] theorem State.closeHash_pbCount (s : State) : (s.closeHash).pbCount = s.pbCount := rfl
@[simp] theorem State.closeHash_pbRdptr (s : State) : (s.closeHash).pbRdptr = s.pbRdptr := rfl
@[simp] theorem State.closeHash_pbufBlocks (s : State) : (s.closeHash).pbufBlocks = s.pbufBlocks := rfl
@[simp] theorem State.closeHash_host (s : State) : (s.closeHash).host = s.host := rfl

/-! ### resetCore -/

@[simp] theorem State.resetCore_pending (s : State) : (s.resetCore).pending = State.reset.pending := rfl
@[simp] theorem State.resetCore_cmd (s : State) : (s.resetCore).cmd = State.reset.cmd := rfl
@[simp] theorem State.resetCore_status (s : State) : (s.resetCore).status = State.reset.status := rfl
@[simp] theorem State.resetCore_cfg (s : State) : (s.resetCore).cfg = State.reset.cfg := rfl
@[simp] theorem State.resetCore_key (s : State) : (s.resetCore).key = State.reset.key := rfl
@[simp] theorem State.resetCore_nonce (s : State) : (s.resetCore).nonce = State.reset.nonce := rfl
@[simp] theorem State.resetCore_tagin (s : State) : (s.resetCore).tagin = State.reset.tagin := rfl
@[simp] theorem State.resetCore_din (s : State) : (s.resetCore).din = State.reset.din := rfl
@[simp] theorem State.resetCore_dout (s : State) : (s.resetCore).dout = State.reset.dout := rfl
@[simp] theorem State.resetCore_hkeyin (s : State) : (s.resetCore).hkeyin = State.reset.hkeyin := rfl
@[simp] theorem State.resetCore_rk (s : State) : (s.resetCore).rk = State.reset.rk := rfl
@[simp] theorem State.resetCore_h (s : State) : (s.resetCore).h = State.reset.h := rfl
@[simp] theorem State.resetCore_x (s : State) : (s.resetCore).x = State.reset.x := rfl
@[simp] theorem State.resetCore_j0 (s : State) : (s.resetCore).j0 = State.reset.j0 := rfl
@[simp] theorem State.resetCore_ctr (s : State) : (s.resetCore).ctr = State.reset.ctr := rfl
@[simp] theorem State.resetCore_aadlen (s : State) : (s.resetCore).aadlen = State.reset.aadlen := rfl
@[simp] theorem State.resetCore_ctlen (s : State) : (s.resetCore).ctlen = State.reset.ctlen := rfl
@[simp] theorem State.resetCore_tagv (s : State) : (s.resetCore).tagv = State.reset.tagv := rfl
@[simp] theorem State.resetCore_taglenL (s : State) : (s.resetCore).taglenL = State.reset.taglenL := rfl
@[simp] theorem State.resetCore_pbuf (s : State) : (s.resetCore).pbuf = State.reset.pbuf := rfl
@[simp] theorem State.resetCore_pbCount (s : State) : (s.resetCore).pbCount = State.reset.pbCount := rfl
@[simp] theorem State.resetCore_pbRdptr (s : State) : (s.resetCore).pbRdptr = State.reset.pbRdptr := rfl
@[simp] theorem State.resetCore_pbufBlocks (s : State) : (s.resetCore).pbufBlocks = s.pbufBlocks := rfl
@[simp] theorem State.resetCore_host (s : State) : (s.resetCore).host = s.host := rfl

/-! ### issue -/

@[simp] theorem State.issue_pending (s : State) (w : Word) : (s.issue w).pending = some w := rfl
@[simp] theorem State.issue_cmd (s : State) (w : Word) : (s.issue w).cmd = w := rfl
@[simp] theorem State.issue_status (s : State) (w : Word) : (s.issue w).status = { s.status with done := false } := rfl
@[simp] theorem State.issue_cfg (s : State) (w : Word) : (s.issue w).cfg = s.cfg := rfl
@[simp] theorem State.issue_key (s : State) (w : Word) : (s.issue w).key = s.key := rfl
@[simp] theorem State.issue_nonce (s : State) (w : Word) : (s.issue w).nonce = s.nonce := rfl
@[simp] theorem State.issue_tagin (s : State) (w : Word) : (s.issue w).tagin = s.tagin := rfl
@[simp] theorem State.issue_din (s : State) (w : Word) : (s.issue w).din = s.din := rfl
@[simp] theorem State.issue_dout (s : State) (w : Word) : (s.issue w).dout = s.dout := rfl
@[simp] theorem State.issue_hkeyin (s : State) (w : Word) : (s.issue w).hkeyin = s.hkeyin := rfl
@[simp] theorem State.issue_rk (s : State) (w : Word) : (s.issue w).rk = s.rk := rfl
@[simp] theorem State.issue_h (s : State) (w : Word) : (s.issue w).h = s.h := rfl
@[simp] theorem State.issue_x (s : State) (w : Word) : (s.issue w).x = s.x := rfl
@[simp] theorem State.issue_j0 (s : State) (w : Word) : (s.issue w).j0 = s.j0 := rfl
@[simp] theorem State.issue_ctr (s : State) (w : Word) : (s.issue w).ctr = s.ctr := rfl
@[simp] theorem State.issue_aadlen (s : State) (w : Word) : (s.issue w).aadlen = s.aadlen := rfl
@[simp] theorem State.issue_ctlen (s : State) (w : Word) : (s.issue w).ctlen = s.ctlen := rfl
@[simp] theorem State.issue_tagv (s : State) (w : Word) : (s.issue w).tagv = s.tagv := rfl
@[simp] theorem State.issue_taglenL (s : State) (w : Word) : (s.issue w).taglenL = s.taglenL := rfl
@[simp] theorem State.issue_pbuf (s : State) (w : Word) : (s.issue w).pbuf = s.pbuf := rfl
@[simp] theorem State.issue_pbCount (s : State) (w : Word) : (s.issue w).pbCount = s.pbCount := rfl
@[simp] theorem State.issue_pbRdptr (s : State) (w : Word) : (s.issue w).pbRdptr = s.pbRdptr := rfl
@[simp] theorem State.issue_pbufBlocks (s : State) (w : Word) : (s.issue w).pbufBlocks = s.pbufBlocks := rfl
@[simp] theorem State.issue_host (s : State) (w : Word) : (s.issue w).host = s.host := rfl

/-! ### writeStatus -/

@[simp] theorem State.writeStatus_pending (s : State) (v : Word) : (s.writeStatus v).pending = s.pending := rfl
@[simp] theorem State.writeStatus_cmd (s : State) (v : Word) : (s.writeStatus v).cmd = s.cmd := rfl
@[simp] theorem State.writeStatus_status (s : State) (v : Word) :
    (s.writeStatus v).status = { s.status with ovr := if v.getLsbD 2 then false else s.status.ovr } := rfl
@[simp] theorem State.writeStatus_cfg (s : State) (v : Word) : (s.writeStatus v).cfg = s.cfg := rfl
@[simp] theorem State.writeStatus_key (s : State) (v : Word) : (s.writeStatus v).key = s.key := rfl
@[simp] theorem State.writeStatus_nonce (s : State) (v : Word) : (s.writeStatus v).nonce = s.nonce := rfl
@[simp] theorem State.writeStatus_tagin (s : State) (v : Word) : (s.writeStatus v).tagin = s.tagin := rfl
@[simp] theorem State.writeStatus_din (s : State) (v : Word) : (s.writeStatus v).din = s.din := rfl
@[simp] theorem State.writeStatus_dout (s : State) (v : Word) : (s.writeStatus v).dout = s.dout := rfl
@[simp] theorem State.writeStatus_hkeyin (s : State) (v : Word) : (s.writeStatus v).hkeyin = s.hkeyin := rfl
@[simp] theorem State.writeStatus_rk (s : State) (v : Word) : (s.writeStatus v).rk = s.rk := rfl
@[simp] theorem State.writeStatus_h (s : State) (v : Word) : (s.writeStatus v).h = s.h := rfl
@[simp] theorem State.writeStatus_x (s : State) (v : Word) : (s.writeStatus v).x = s.x := rfl
@[simp] theorem State.writeStatus_j0 (s : State) (v : Word) : (s.writeStatus v).j0 = s.j0 := rfl
@[simp] theorem State.writeStatus_ctr (s : State) (v : Word) : (s.writeStatus v).ctr = s.ctr := rfl
@[simp] theorem State.writeStatus_aadlen (s : State) (v : Word) : (s.writeStatus v).aadlen = s.aadlen := rfl
@[simp] theorem State.writeStatus_ctlen (s : State) (v : Word) : (s.writeStatus v).ctlen = s.ctlen := rfl
@[simp] theorem State.writeStatus_tagv (s : State) (v : Word) : (s.writeStatus v).tagv = s.tagv := rfl
@[simp] theorem State.writeStatus_taglenL (s : State) (v : Word) : (s.writeStatus v).taglenL = s.taglenL := rfl
@[simp] theorem State.writeStatus_pbuf (s : State) (v : Word) : (s.writeStatus v).pbuf = s.pbuf := rfl
@[simp] theorem State.writeStatus_pbCount (s : State) (v : Word) : (s.writeStatus v).pbCount = s.pbCount := rfl
@[simp] theorem State.writeStatus_pbRdptr (s : State) (v : Word) : (s.writeStatus v).pbRdptr = s.pbRdptr := rfl
@[simp] theorem State.writeStatus_pbufBlocks (s : State) (v : Word) : (s.writeStatus v).pbufBlocks = s.pbufBlocks := rfl
@[simp] theorem State.writeStatus_host (s : State) (v : Word) : (s.writeStatus v).host = s.host := rfl

/-! ### dropWrite -/

@[simp] theorem State.dropWrite_pending (s : State) : (s.dropWrite).pending = s.pending := rfl
@[simp] theorem State.dropWrite_cmd (s : State) : (s.dropWrite).cmd = s.cmd := rfl
@[simp] theorem State.dropWrite_status (s : State) : (s.dropWrite).status = { s.status with ovr := true } := rfl
@[simp] theorem State.dropWrite_cfg (s : State) : (s.dropWrite).cfg = s.cfg := rfl
@[simp] theorem State.dropWrite_key (s : State) : (s.dropWrite).key = s.key := rfl
@[simp] theorem State.dropWrite_nonce (s : State) : (s.dropWrite).nonce = s.nonce := rfl
@[simp] theorem State.dropWrite_tagin (s : State) : (s.dropWrite).tagin = s.tagin := rfl
@[simp] theorem State.dropWrite_din (s : State) : (s.dropWrite).din = s.din := rfl
@[simp] theorem State.dropWrite_dout (s : State) : (s.dropWrite).dout = s.dout := rfl
@[simp] theorem State.dropWrite_hkeyin (s : State) : (s.dropWrite).hkeyin = s.hkeyin := rfl
@[simp] theorem State.dropWrite_rk (s : State) : (s.dropWrite).rk = s.rk := rfl
@[simp] theorem State.dropWrite_h (s : State) : (s.dropWrite).h = s.h := rfl
@[simp] theorem State.dropWrite_x (s : State) : (s.dropWrite).x = s.x := rfl
@[simp] theorem State.dropWrite_j0 (s : State) : (s.dropWrite).j0 = s.j0 := rfl
@[simp] theorem State.dropWrite_ctr (s : State) : (s.dropWrite).ctr = s.ctr := rfl
@[simp] theorem State.dropWrite_aadlen (s : State) : (s.dropWrite).aadlen = s.aadlen := rfl
@[simp] theorem State.dropWrite_ctlen (s : State) : (s.dropWrite).ctlen = s.ctlen := rfl
@[simp] theorem State.dropWrite_tagv (s : State) : (s.dropWrite).tagv = s.tagv := rfl
@[simp] theorem State.dropWrite_taglenL (s : State) : (s.dropWrite).taglenL = s.taglenL := rfl
@[simp] theorem State.dropWrite_pbuf (s : State) : (s.dropWrite).pbuf = s.pbuf := rfl
@[simp] theorem State.dropWrite_pbCount (s : State) : (s.dropWrite).pbCount = s.pbCount := rfl
@[simp] theorem State.dropWrite_pbRdptr (s : State) : (s.dropWrite).pbRdptr = s.pbRdptr := rfl
@[simp] theorem State.dropWrite_pbufBlocks (s : State) : (s.dropWrite).pbufBlocks = s.pbufBlocks := rfl
@[simp] theorem State.dropWrite_host (s : State) : (s.dropWrite).host = s.host := rfl

/-! ### observe -/

@[simp] theorem State.observe_pending (s : State) (v : Word) : (s.observe v).pending = s.pending := rfl
@[simp] theorem State.observe_cmd (s : State) (v : Word) : (s.observe v).cmd = s.cmd := rfl
@[simp] theorem State.observe_status (s : State) (v : Word) : (s.observe v).status = s.status := rfl
@[simp] theorem State.observe_cfg (s : State) (v : Word) : (s.observe v).cfg = s.cfg := rfl
@[simp] theorem State.observe_key (s : State) (v : Word) : (s.observe v).key = s.key := rfl
@[simp] theorem State.observe_nonce (s : State) (v : Word) : (s.observe v).nonce = s.nonce := rfl
@[simp] theorem State.observe_tagin (s : State) (v : Word) : (s.observe v).tagin = s.tagin := rfl
@[simp] theorem State.observe_din (s : State) (v : Word) : (s.observe v).din = s.din := rfl
@[simp] theorem State.observe_dout (s : State) (v : Word) : (s.observe v).dout = s.dout := rfl
@[simp] theorem State.observe_hkeyin (s : State) (v : Word) : (s.observe v).hkeyin = s.hkeyin := rfl
@[simp] theorem State.observe_rk (s : State) (v : Word) : (s.observe v).rk = s.rk := rfl
@[simp] theorem State.observe_h (s : State) (v : Word) : (s.observe v).h = s.h := rfl
@[simp] theorem State.observe_x (s : State) (v : Word) : (s.observe v).x = s.x := rfl
@[simp] theorem State.observe_j0 (s : State) (v : Word) : (s.observe v).j0 = s.j0 := rfl
@[simp] theorem State.observe_ctr (s : State) (v : Word) : (s.observe v).ctr = s.ctr := rfl
@[simp] theorem State.observe_aadlen (s : State) (v : Word) : (s.observe v).aadlen = s.aadlen := rfl
@[simp] theorem State.observe_ctlen (s : State) (v : Word) : (s.observe v).ctlen = s.ctlen := rfl
@[simp] theorem State.observe_tagv (s : State) (v : Word) : (s.observe v).tagv = s.tagv := rfl
@[simp] theorem State.observe_taglenL (s : State) (v : Word) : (s.observe v).taglenL = s.taglenL := rfl
@[simp] theorem State.observe_pbuf (s : State) (v : Word) : (s.observe v).pbuf = s.pbuf := rfl
@[simp] theorem State.observe_pbCount (s : State) (v : Word) : (s.observe v).pbCount = s.pbCount := rfl
@[simp] theorem State.observe_pbRdptr (s : State) (v : Word) : (s.observe v).pbRdptr = s.pbRdptr := rfl
@[simp] theorem State.observe_pbufBlocks (s : State) (v : Word) : (s.observe v).pbufBlocks = s.pbufBlocks := rfl
@[simp] theorem State.observe_host (s : State) (v : Word) :
    (s.observe v).host = { s.host with observed := v :: s.host.observed } := rfl

/-! ### takeDraw -/

@[simp] theorem State.takeDraw_pending (s : State) : (s.takeDraw).pending = s.pending := rfl
@[simp] theorem State.takeDraw_cmd (s : State) : (s.takeDraw).cmd = s.cmd := rfl
@[simp] theorem State.takeDraw_status (s : State) : (s.takeDraw).status = s.status := rfl
@[simp] theorem State.takeDraw_cfg (s : State) : (s.takeDraw).cfg = s.cfg := rfl
@[simp] theorem State.takeDraw_key (s : State) : (s.takeDraw).key = s.key := rfl
@[simp] theorem State.takeDraw_nonce (s : State) : (s.takeDraw).nonce = s.nonce := rfl
@[simp] theorem State.takeDraw_tagin (s : State) : (s.takeDraw).tagin = s.tagin := rfl
@[simp] theorem State.takeDraw_din (s : State) : (s.takeDraw).din = s.din := rfl
@[simp] theorem State.takeDraw_dout (s : State) : (s.takeDraw).dout = s.dout := rfl
@[simp] theorem State.takeDraw_hkeyin (s : State) : (s.takeDraw).hkeyin = s.hkeyin := rfl
@[simp] theorem State.takeDraw_rk (s : State) : (s.takeDraw).rk = s.rk := rfl
@[simp] theorem State.takeDraw_h (s : State) : (s.takeDraw).h = s.h := rfl
@[simp] theorem State.takeDraw_x (s : State) : (s.takeDraw).x = s.x := rfl
@[simp] theorem State.takeDraw_j0 (s : State) : (s.takeDraw).j0 = s.j0 := rfl
@[simp] theorem State.takeDraw_ctr (s : State) : (s.takeDraw).ctr = s.ctr := rfl
@[simp] theorem State.takeDraw_aadlen (s : State) : (s.takeDraw).aadlen = s.aadlen := rfl
@[simp] theorem State.takeDraw_ctlen (s : State) : (s.takeDraw).ctlen = s.ctlen := rfl
@[simp] theorem State.takeDraw_tagv (s : State) : (s.takeDraw).tagv = s.tagv := rfl
@[simp] theorem State.takeDraw_taglenL (s : State) : (s.takeDraw).taglenL = s.taglenL := rfl
@[simp] theorem State.takeDraw_pbuf (s : State) : (s.takeDraw).pbuf = s.pbuf := rfl
@[simp] theorem State.takeDraw_pbCount (s : State) : (s.takeDraw).pbCount = s.pbCount := rfl
@[simp] theorem State.takeDraw_pbRdptr (s : State) : (s.takeDraw).pbRdptr = s.pbRdptr := rfl
@[simp] theorem State.takeDraw_pbufBlocks (s : State) : (s.takeDraw).pbufBlocks = s.pbufBlocks := rfl
@[simp] theorem State.takeDraw_host (s : State) : (s.takeDraw).host = { s.host with draws := s.host.draws + 1 } := rfl

/-! ### withSchedule -/

@[simp] theorem State.withSchedule_pending (s : State) (rest : List Event) :
    (s.withSchedule rest).pending = s.pending := rfl
@[simp] theorem State.withSchedule_cmd (s : State) (rest : List Event) : (s.withSchedule rest).cmd = s.cmd := rfl
@[simp] theorem State.withSchedule_status (s : State) (rest : List Event) :
    (s.withSchedule rest).status = s.status := rfl
@[simp] theorem State.withSchedule_cfg (s : State) (rest : List Event) : (s.withSchedule rest).cfg = s.cfg := rfl
@[simp] theorem State.withSchedule_key (s : State) (rest : List Event) : (s.withSchedule rest).key = s.key := rfl
@[simp] theorem State.withSchedule_nonce (s : State) (rest : List Event) : (s.withSchedule rest).nonce = s.nonce := rfl
@[simp] theorem State.withSchedule_tagin (s : State) (rest : List Event) : (s.withSchedule rest).tagin = s.tagin := rfl
@[simp] theorem State.withSchedule_din (s : State) (rest : List Event) : (s.withSchedule rest).din = s.din := rfl
@[simp] theorem State.withSchedule_dout (s : State) (rest : List Event) : (s.withSchedule rest).dout = s.dout := rfl
@[simp] theorem State.withSchedule_hkeyin (s : State) (rest : List Event) :
    (s.withSchedule rest).hkeyin = s.hkeyin := rfl
@[simp] theorem State.withSchedule_rk (s : State) (rest : List Event) : (s.withSchedule rest).rk = s.rk := rfl
@[simp] theorem State.withSchedule_h (s : State) (rest : List Event) : (s.withSchedule rest).h = s.h := rfl
@[simp] theorem State.withSchedule_x (s : State) (rest : List Event) : (s.withSchedule rest).x = s.x := rfl
@[simp] theorem State.withSchedule_j0 (s : State) (rest : List Event) : (s.withSchedule rest).j0 = s.j0 := rfl
@[simp] theorem State.withSchedule_ctr (s : State) (rest : List Event) : (s.withSchedule rest).ctr = s.ctr := rfl
@[simp] theorem State.withSchedule_aadlen (s : State) (rest : List Event) :
    (s.withSchedule rest).aadlen = s.aadlen := rfl
@[simp] theorem State.withSchedule_ctlen (s : State) (rest : List Event) : (s.withSchedule rest).ctlen = s.ctlen := rfl
@[simp] theorem State.withSchedule_tagv (s : State) (rest : List Event) : (s.withSchedule rest).tagv = s.tagv := rfl
@[simp] theorem State.withSchedule_taglenL (s : State) (rest : List Event) :
    (s.withSchedule rest).taglenL = s.taglenL := rfl
@[simp] theorem State.withSchedule_pbuf (s : State) (rest : List Event) : (s.withSchedule rest).pbuf = s.pbuf := rfl
@[simp] theorem State.withSchedule_pbCount (s : State) (rest : List Event) :
    (s.withSchedule rest).pbCount = s.pbCount := rfl
@[simp] theorem State.withSchedule_pbRdptr (s : State) (rest : List Event) :
    (s.withSchedule rest).pbRdptr = s.pbRdptr := rfl
@[simp] theorem State.withSchedule_pbufBlocks (s : State) (rest : List Event) :
    (s.withSchedule rest).pbufBlocks = s.pbufBlocks := rfl
@[simp] theorem State.withSchedule_host (s : State) (rest : List Event) :
    (s.withSchedule rest).host = { s.host with schedule := rest } := rfl

/-! ### loadKey -/

@[simp] theorem State.loadKey_pending (s : State) : (s.loadKey).pending = s.pending := rfl
@[simp] theorem State.loadKey_cmd (s : State) : (s.loadKey).cmd = s.cmd := rfl
@[simp] theorem State.loadKey_status (s : State) :
    (s.loadKey).status = { s.status with keyValid := true, ctxStrategy := s.cfg.strategy, hValid := false, phase := .idle, partialChunk := false, authOk := false } := rfl
@[simp] theorem State.loadKey_cfg (s : State) : (s.loadKey).cfg = s.cfg := rfl
@[simp] theorem State.loadKey_key (s : State) : (s.loadKey).key = s.key := rfl
@[simp] theorem State.loadKey_nonce (s : State) : (s.loadKey).nonce = s.nonce := rfl
@[simp] theorem State.loadKey_tagin (s : State) : (s.loadKey).tagin = s.tagin := rfl
@[simp] theorem State.loadKey_din (s : State) : (s.loadKey).din = s.din := rfl
@[simp] theorem State.loadKey_dout (s : State) : (s.loadKey).dout = s.dout := rfl
@[simp] theorem State.loadKey_hkeyin (s : State) : (s.loadKey).hkeyin = s.hkeyin := rfl
@[simp] theorem State.loadKey_rk (s : State) : (s.loadKey).rk = keySchedule s.key := rfl
@[simp] theorem State.loadKey_h (s : State) : (s.loadKey).h = 0 := rfl
@[simp] theorem State.loadKey_x (s : State) : (s.loadKey).x = s.x := rfl
@[simp] theorem State.loadKey_j0 (s : State) : (s.loadKey).j0 = s.j0 := rfl
@[simp] theorem State.loadKey_ctr (s : State) : (s.loadKey).ctr = s.ctr := rfl
@[simp] theorem State.loadKey_aadlen (s : State) : (s.loadKey).aadlen = s.aadlen := rfl
@[simp] theorem State.loadKey_ctlen (s : State) : (s.loadKey).ctlen = s.ctlen := rfl
@[simp] theorem State.loadKey_tagv (s : State) : (s.loadKey).tagv = 0 := rfl
@[simp] theorem State.loadKey_taglenL (s : State) : (s.loadKey).taglenL = s.taglenL := rfl
@[simp] theorem State.loadKey_pbuf (s : State) : (s.loadKey).pbuf = [] := rfl
@[simp] theorem State.loadKey_pbCount (s : State) : (s.loadKey).pbCount = 0 := rfl
@[simp] theorem State.loadKey_pbRdptr (s : State) : (s.loadKey).pbRdptr = 0 := rfl
@[simp] theorem State.loadKey_pbufBlocks (s : State) : (s.loadKey).pbufBlocks = s.pbufBlocks := rfl
@[simp] theorem State.loadKey_host (s : State) : (s.loadKey).host = s.host := rfl

/-! ### clearContext -/

@[simp] theorem State.clearContext_pending (s : State) : (s.clearContext).pending = s.pending := rfl
@[simp] theorem State.clearContext_cmd (s : State) : (s.clearContext).cmd = s.cmd := rfl
@[simp] theorem State.clearContext_status (s : State) :
    (s.clearContext).status = { s.status with keyValid := false, ctxStrategy := .reference, hValid := false, phase := .idle, partialChunk := false, authOk := false } := rfl
@[simp] theorem State.clearContext_cfg (s : State) : (s.clearContext).cfg = s.cfg := rfl
@[simp] theorem State.clearContext_key (s : State) : (s.clearContext).key = State.reset.key := rfl
@[simp] theorem State.clearContext_nonce (s : State) : (s.clearContext).nonce = State.reset.nonce := rfl
@[simp] theorem State.clearContext_tagin (s : State) : (s.clearContext).tagin = State.reset.tagin := rfl
@[simp] theorem State.clearContext_din (s : State) : (s.clearContext).din = State.reset.din := rfl
@[simp] theorem State.clearContext_dout (s : State) : (s.clearContext).dout = State.reset.dout := rfl
@[simp] theorem State.clearContext_hkeyin (s : State) : (s.clearContext).hkeyin = State.reset.hkeyin := rfl
@[simp] theorem State.clearContext_rk (s : State) : (s.clearContext).rk = State.reset.rk := rfl
@[simp] theorem State.clearContext_h (s : State) : (s.clearContext).h = State.reset.h := rfl
@[simp] theorem State.clearContext_x (s : State) : (s.clearContext).x = State.reset.x := rfl
@[simp] theorem State.clearContext_j0 (s : State) : (s.clearContext).j0 = State.reset.j0 := rfl
@[simp] theorem State.clearContext_ctr (s : State) : (s.clearContext).ctr = State.reset.ctr := rfl
@[simp] theorem State.clearContext_aadlen (s : State) : (s.clearContext).aadlen = State.reset.aadlen := rfl
@[simp] theorem State.clearContext_ctlen (s : State) : (s.clearContext).ctlen = State.reset.ctlen := rfl
@[simp] theorem State.clearContext_tagv (s : State) : (s.clearContext).tagv = State.reset.tagv := rfl
@[simp] theorem State.clearContext_taglenL (s : State) : (s.clearContext).taglenL = State.reset.taglenL := rfl
@[simp] theorem State.clearContext_pbuf (s : State) : (s.clearContext).pbuf = State.reset.pbuf := rfl
@[simp] theorem State.clearContext_pbCount (s : State) : (s.clearContext).pbCount = State.reset.pbCount := rfl
@[simp] theorem State.clearContext_pbRdptr (s : State) : (s.clearContext).pbRdptr = State.reset.pbRdptr := rfl
@[simp] theorem State.clearContext_pbufBlocks (s : State) : (s.clearContext).pbufBlocks = s.pbufBlocks := rfl
@[simp] theorem State.clearContext_host (s : State) : (s.clearContext).host = s.host := rfl

/-! ### loadH -/

@[simp] theorem State.loadH_pending (s : State) (v : Block) : (s.loadH v).pending = s.pending := rfl
@[simp] theorem State.loadH_cmd (s : State) (v : Block) : (s.loadH v).cmd = s.cmd := rfl
@[simp] theorem State.loadH_status (s : State) (v : Block) :
    (s.loadH v).status = { s.status with hValid := true } := rfl
@[simp] theorem State.loadH_cfg (s : State) (v : Block) : (s.loadH v).cfg = s.cfg := rfl
@[simp] theorem State.loadH_key (s : State) (v : Block) : (s.loadH v).key = s.key := rfl
@[simp] theorem State.loadH_nonce (s : State) (v : Block) : (s.loadH v).nonce = s.nonce := rfl
@[simp] theorem State.loadH_tagin (s : State) (v : Block) : (s.loadH v).tagin = s.tagin := rfl
@[simp] theorem State.loadH_din (s : State) (v : Block) : (s.loadH v).din = s.din := rfl
@[simp] theorem State.loadH_dout (s : State) (v : Block) : (s.loadH v).dout = s.dout := rfl
@[simp] theorem State.loadH_hkeyin (s : State) (v : Block) : (s.loadH v).hkeyin = s.hkeyin := rfl
@[simp] theorem State.loadH_rk (s : State) (v : Block) : (s.loadH v).rk = s.rk := rfl
@[simp] theorem State.loadH_h (s : State) (v : Block) : (s.loadH v).h = v := rfl
@[simp] theorem State.loadH_x (s : State) (v : Block) : (s.loadH v).x = s.x := rfl
@[simp] theorem State.loadH_j0 (s : State) (v : Block) : (s.loadH v).j0 = s.j0 := rfl
@[simp] theorem State.loadH_ctr (s : State) (v : Block) : (s.loadH v).ctr = s.ctr := rfl
@[simp] theorem State.loadH_aadlen (s : State) (v : Block) : (s.loadH v).aadlen = s.aadlen := rfl
@[simp] theorem State.loadH_ctlen (s : State) (v : Block) : (s.loadH v).ctlen = s.ctlen := rfl
@[simp] theorem State.loadH_tagv (s : State) (v : Block) : (s.loadH v).tagv = s.tagv := rfl
@[simp] theorem State.loadH_taglenL (s : State) (v : Block) : (s.loadH v).taglenL = s.taglenL := rfl
@[simp] theorem State.loadH_pbuf (s : State) (v : Block) : (s.loadH v).pbuf = s.pbuf := rfl
@[simp] theorem State.loadH_pbCount (s : State) (v : Block) : (s.loadH v).pbCount = s.pbCount := rfl
@[simp] theorem State.loadH_pbRdptr (s : State) (v : Block) : (s.loadH v).pbRdptr = s.pbRdptr := rfl
@[simp] theorem State.loadH_pbufBlocks (s : State) (v : Block) : (s.loadH v).pbufBlocks = s.pbufBlocks := rfl
@[simp] theorem State.loadH_host (s : State) (v : Block) : (s.loadH v).host = s.host := rfl

/-! ### absorbAad -/

@[simp] theorem State.absorbAad_pending (s : State) (nb : BitVec 5) : (s.absorbAad nb).pending = s.pending := rfl
@[simp] theorem State.absorbAad_cmd (s : State) (nb : BitVec 5) : (s.absorbAad nb).cmd = s.cmd := rfl
@[simp] theorem State.absorbAad_status (s : State) (nb : BitVec 5) :
    (s.absorbAad nb).status = { s.status with partialChunk := if nb.toNat < 16 then true else s.status.partialChunk } := rfl
@[simp] theorem State.absorbAad_cfg (s : State) (nb : BitVec 5) : (s.absorbAad nb).cfg = s.cfg := rfl
@[simp] theorem State.absorbAad_key (s : State) (nb : BitVec 5) : (s.absorbAad nb).key = s.key := rfl
@[simp] theorem State.absorbAad_nonce (s : State) (nb : BitVec 5) : (s.absorbAad nb).nonce = s.nonce := rfl
@[simp] theorem State.absorbAad_tagin (s : State) (nb : BitVec 5) : (s.absorbAad nb).tagin = s.tagin := rfl
@[simp] theorem State.absorbAad_din (s : State) (nb : BitVec 5) : (s.absorbAad nb).din = s.din := rfl
@[simp] theorem State.absorbAad_dout (s : State) (nb : BitVec 5) : (s.absorbAad nb).dout = s.dout := rfl
@[simp] theorem State.absorbAad_hkeyin (s : State) (nb : BitVec 5) : (s.absorbAad nb).hkeyin = s.hkeyin := rfl
@[simp] theorem State.absorbAad_rk (s : State) (nb : BitVec 5) : (s.absorbAad nb).rk = s.rk := rfl
@[simp] theorem State.absorbAad_h (s : State) (nb : BitVec 5) : (s.absorbAad nb).h = s.h := rfl
@[simp] theorem State.absorbAad_x (s : State) (nb : BitVec 5) :
    (s.absorbAad nb).x = gfMul (s.x ^^^ s.chunk nb) s.h := rfl
@[simp] theorem State.absorbAad_j0 (s : State) (nb : BitVec 5) : (s.absorbAad nb).j0 = s.j0 := rfl
@[simp] theorem State.absorbAad_ctr (s : State) (nb : BitVec 5) : (s.absorbAad nb).ctr = s.ctr := rfl
@[simp] theorem State.absorbAad_aadlen (s : State) (nb : BitVec 5) :
    (s.absorbAad nb).aadlen = s.aadlen + chunkBits nb := rfl
@[simp] theorem State.absorbAad_ctlen (s : State) (nb : BitVec 5) : (s.absorbAad nb).ctlen = s.ctlen := rfl
@[simp] theorem State.absorbAad_tagv (s : State) (nb : BitVec 5) : (s.absorbAad nb).tagv = s.tagv := rfl
@[simp] theorem State.absorbAad_taglenL (s : State) (nb : BitVec 5) : (s.absorbAad nb).taglenL = s.taglenL := rfl
@[simp] theorem State.absorbAad_pbuf (s : State) (nb : BitVec 5) : (s.absorbAad nb).pbuf = s.pbuf := rfl
@[simp] theorem State.absorbAad_pbCount (s : State) (nb : BitVec 5) : (s.absorbAad nb).pbCount = s.pbCount := rfl
@[simp] theorem State.absorbAad_pbRdptr (s : State) (nb : BitVec 5) : (s.absorbAad nb).pbRdptr = s.pbRdptr := rfl
@[simp] theorem State.absorbAad_pbufBlocks (s : State) (nb : BitVec 5) :
    (s.absorbAad nb).pbufBlocks = s.pbufBlocks := rfl
@[simp] theorem State.absorbAad_host (s : State) (nb : BitVec 5) : (s.absorbAad nb).host = s.host := rfl

/-! ### encryptChunk -/

@[simp] theorem State.encryptChunk_pending (s : State) (nb : BitVec 5) : (s.encryptChunk nb).pending = s.pending := rfl
@[simp] theorem State.encryptChunk_cmd (s : State) (nb : BitVec 5) : (s.encryptChunk nb).cmd = s.cmd := rfl
@[simp] theorem State.encryptChunk_status (s : State) (nb : BitVec 5) :
    (s.encryptChunk nb).status = { s.status with partialChunk := if nb.toNat < 16 then true else s.status.partialChunk } := rfl
@[simp] theorem State.encryptChunk_cfg (s : State) (nb : BitVec 5) : (s.encryptChunk nb).cfg = s.cfg := rfl
@[simp] theorem State.encryptChunk_key (s : State) (nb : BitVec 5) : (s.encryptChunk nb).key = s.key := rfl
@[simp] theorem State.encryptChunk_nonce (s : State) (nb : BitVec 5) : (s.encryptChunk nb).nonce = s.nonce := rfl
@[simp] theorem State.encryptChunk_tagin (s : State) (nb : BitVec 5) : (s.encryptChunk nb).tagin = s.tagin := rfl
@[simp] theorem State.encryptChunk_din (s : State) (nb : BitVec 5) : (s.encryptChunk nb).din = s.din := rfl
@[simp] theorem State.encryptChunk_dout (s : State) (nb : BitVec 5) :
    (s.encryptChunk nb).dout = s.dout.set 0 (maskNb (s.dinBlock 0 ^^^ s.encrypt s.ctr) nb.toNat) := rfl
@[simp] theorem State.encryptChunk_hkeyin (s : State) (nb : BitVec 5) : (s.encryptChunk nb).hkeyin = s.hkeyin := rfl
@[simp] theorem State.encryptChunk_rk (s : State) (nb : BitVec 5) : (s.encryptChunk nb).rk = s.rk := rfl
@[simp] theorem State.encryptChunk_h (s : State) (nb : BitVec 5) : (s.encryptChunk nb).h = s.h := rfl
@[simp] theorem State.encryptChunk_x (s : State) (nb : BitVec 5) :
    (s.encryptChunk nb).x = gfMul (s.x ^^^ maskNb (s.dinBlock 0 ^^^ s.encrypt s.ctr) nb.toNat) s.h := rfl
@[simp] theorem State.encryptChunk_j0 (s : State) (nb : BitVec 5) : (s.encryptChunk nb).j0 = s.j0 := rfl
@[simp] theorem State.encryptChunk_ctr (s : State) (nb : BitVec 5) : (s.encryptChunk nb).ctr = inc32 s.ctr := rfl
@[simp] theorem State.encryptChunk_aadlen (s : State) (nb : BitVec 5) : (s.encryptChunk nb).aadlen = s.aadlen := rfl
@[simp] theorem State.encryptChunk_ctlen (s : State) (nb : BitVec 5) :
    (s.encryptChunk nb).ctlen = s.ctlen + chunkBits nb := rfl
@[simp] theorem State.encryptChunk_tagv (s : State) (nb : BitVec 5) : (s.encryptChunk nb).tagv = s.tagv := rfl
@[simp] theorem State.encryptChunk_taglenL (s : State) (nb : BitVec 5) : (s.encryptChunk nb).taglenL = s.taglenL := rfl
@[simp] theorem State.encryptChunk_pbuf (s : State) (nb : BitVec 5) : (s.encryptChunk nb).pbuf = s.pbuf := rfl
@[simp] theorem State.encryptChunk_pbCount (s : State) (nb : BitVec 5) : (s.encryptChunk nb).pbCount = s.pbCount := rfl
@[simp] theorem State.encryptChunk_pbRdptr (s : State) (nb : BitVec 5) : (s.encryptChunk nb).pbRdptr = s.pbRdptr := rfl
@[simp] theorem State.encryptChunk_pbufBlocks (s : State) (nb : BitVec 5) :
    (s.encryptChunk nb).pbufBlocks = s.pbufBlocks := rfl
@[simp] theorem State.encryptChunk_host (s : State) (nb : BitVec 5) : (s.encryptChunk nb).host = s.host := rfl

/-! ### decryptChunk -/

@[simp] theorem State.decryptChunk_pending (s : State) (nb : BitVec 5) : (s.decryptChunk nb).pending = s.pending := rfl
@[simp] theorem State.decryptChunk_cmd (s : State) (nb : BitVec 5) : (s.decryptChunk nb).cmd = s.cmd := rfl
@[simp] theorem State.decryptChunk_status (s : State) (nb : BitVec 5) :
    (s.decryptChunk nb).status = { s.status with partialChunk := if nb.toNat < 16 then true else s.status.partialChunk } := rfl
@[simp] theorem State.decryptChunk_cfg (s : State) (nb : BitVec 5) : (s.decryptChunk nb).cfg = s.cfg := rfl
@[simp] theorem State.decryptChunk_key (s : State) (nb : BitVec 5) : (s.decryptChunk nb).key = s.key := rfl
@[simp] theorem State.decryptChunk_nonce (s : State) (nb : BitVec 5) : (s.decryptChunk nb).nonce = s.nonce := rfl
@[simp] theorem State.decryptChunk_tagin (s : State) (nb : BitVec 5) : (s.decryptChunk nb).tagin = s.tagin := rfl
@[simp] theorem State.decryptChunk_din (s : State) (nb : BitVec 5) : (s.decryptChunk nb).din = s.din := rfl
@[simp] theorem State.decryptChunk_dout (s : State) (nb : BitVec 5) : (s.decryptChunk nb).dout = s.dout := rfl
@[simp] theorem State.decryptChunk_hkeyin (s : State) (nb : BitVec 5) : (s.decryptChunk nb).hkeyin = s.hkeyin := rfl
@[simp] theorem State.decryptChunk_rk (s : State) (nb : BitVec 5) : (s.decryptChunk nb).rk = s.rk := rfl
@[simp] theorem State.decryptChunk_h (s : State) (nb : BitVec 5) : (s.decryptChunk nb).h = s.h := rfl
@[simp] theorem State.decryptChunk_x (s : State) (nb : BitVec 5) :
    (s.decryptChunk nb).x = gfMul (s.x ^^^ s.chunk nb) s.h := rfl
@[simp] theorem State.decryptChunk_j0 (s : State) (nb : BitVec 5) : (s.decryptChunk nb).j0 = s.j0 := rfl
@[simp] theorem State.decryptChunk_ctr (s : State) (nb : BitVec 5) : (s.decryptChunk nb).ctr = inc32 s.ctr := rfl
@[simp] theorem State.decryptChunk_aadlen (s : State) (nb : BitVec 5) : (s.decryptChunk nb).aadlen = s.aadlen := rfl
@[simp] theorem State.decryptChunk_ctlen (s : State) (nb : BitVec 5) :
    (s.decryptChunk nb).ctlen = s.ctlen + chunkBits nb := rfl
@[simp] theorem State.decryptChunk_tagv (s : State) (nb : BitVec 5) : (s.decryptChunk nb).tagv = s.tagv := rfl
@[simp] theorem State.decryptChunk_taglenL (s : State) (nb : BitVec 5) : (s.decryptChunk nb).taglenL = s.taglenL := rfl
@[simp] theorem State.decryptChunk_pbuf (s : State) (nb : BitVec 5) :
    (s.decryptChunk nb).pbuf = Pbuf.put s.pbuf s.pbCount.toNat (maskNb (s.chunk nb ^^^ s.encrypt s.ctr) nb.toNat) := rfl
@[simp] theorem State.decryptChunk_pbCount (s : State) (nb : BitVec 5) :
    (s.decryptChunk nb).pbCount = s.pbCount + 1 := rfl
@[simp] theorem State.decryptChunk_pbRdptr (s : State) (nb : BitVec 5) : (s.decryptChunk nb).pbRdptr = s.pbRdptr := rfl
@[simp] theorem State.decryptChunk_pbufBlocks (s : State) (nb : BitVec 5) :
    (s.decryptChunk nb).pbufBlocks = s.pbufBlocks := rfl
@[simp] theorem State.decryptChunk_host (s : State) (nb : BitVec 5) : (s.decryptChunk nb).host = s.host := rfl

/-! ### emitTag -/

@[simp] theorem State.emitTag_pending (s : State) : (s.emitTag).pending = s.pending := rfl
@[simp] theorem State.emitTag_cmd (s : State) : (s.emitTag).cmd = s.cmd := rfl
@[simp] theorem State.emitTag_status (s : State) :
    (s.emitTag).status = { s.status with partialChunk := false, phase := .encDone } := rfl
@[simp] theorem State.emitTag_cfg (s : State) : (s.emitTag).cfg = s.cfg := rfl
@[simp] theorem State.emitTag_key (s : State) : (s.emitTag).key = s.key := rfl
@[simp] theorem State.emitTag_nonce (s : State) : (s.emitTag).nonce = s.nonce := rfl
@[simp] theorem State.emitTag_tagin (s : State) : (s.emitTag).tagin = s.tagin := rfl
@[simp] theorem State.emitTag_din (s : State) : (s.emitTag).din = s.din := rfl
@[simp] theorem State.emitTag_dout (s : State) : (s.emitTag).dout = s.dout := rfl
@[simp] theorem State.emitTag_hkeyin (s : State) : (s.emitTag).hkeyin = s.hkeyin := rfl
@[simp] theorem State.emitTag_rk (s : State) : (s.emitTag).rk = s.rk := rfl
@[simp] theorem State.emitTag_h (s : State) : (s.emitTag).h = s.h := rfl
@[simp] theorem State.emitTag_x (s : State) : (s.emitTag).x = s.finalHash := rfl
@[simp] theorem State.emitTag_j0 (s : State) : (s.emitTag).j0 = s.j0 := rfl
@[simp] theorem State.emitTag_ctr (s : State) : (s.emitTag).ctr = s.ctr := rfl
@[simp] theorem State.emitTag_aadlen (s : State) : (s.emitTag).aadlen = s.aadlen := rfl
@[simp] theorem State.emitTag_ctlen (s : State) : (s.emitTag).ctlen = s.ctlen := rfl
@[simp] theorem State.emitTag_tagv (s : State) : (s.emitTag).tagv = s.finalTag := rfl
@[simp] theorem State.emitTag_taglenL (s : State) : (s.emitTag).taglenL = s.taglenL := rfl
@[simp] theorem State.emitTag_pbuf (s : State) : (s.emitTag).pbuf = s.pbuf := rfl
@[simp] theorem State.emitTag_pbCount (s : State) : (s.emitTag).pbCount = s.pbCount := rfl
@[simp] theorem State.emitTag_pbRdptr (s : State) : (s.emitTag).pbRdptr = s.pbRdptr := rfl
@[simp] theorem State.emitTag_pbufBlocks (s : State) : (s.emitTag).pbufBlocks = s.pbufBlocks := rfl
@[simp] theorem State.emitTag_host (s : State) : (s.emitTag).host = s.host := rfl

/-! ### verified -/

@[simp] theorem State.verified_pending (s : State) : (s.verified).pending = s.pending := rfl
@[simp] theorem State.verified_cmd (s : State) : (s.verified).cmd = s.cmd := rfl
@[simp] theorem State.verified_status (s : State) :
    (s.verified).status = { s.status with partialChunk := false, authOk := true, phase := .decVerified } := rfl
@[simp] theorem State.verified_cfg (s : State) : (s.verified).cfg = s.cfg := rfl
@[simp] theorem State.verified_key (s : State) : (s.verified).key = s.key := rfl
@[simp] theorem State.verified_nonce (s : State) : (s.verified).nonce = s.nonce := rfl
@[simp] theorem State.verified_tagin (s : State) : (s.verified).tagin = s.tagin := rfl
@[simp] theorem State.verified_din (s : State) : (s.verified).din = s.din := rfl
@[simp] theorem State.verified_dout (s : State) : (s.verified).dout = s.dout := rfl
@[simp] theorem State.verified_hkeyin (s : State) : (s.verified).hkeyin = s.hkeyin := rfl
@[simp] theorem State.verified_rk (s : State) : (s.verified).rk = s.rk := rfl
@[simp] theorem State.verified_h (s : State) : (s.verified).h = s.h := rfl
@[simp] theorem State.verified_x (s : State) : (s.verified).x = s.finalHash := rfl
@[simp] theorem State.verified_j0 (s : State) : (s.verified).j0 = s.j0 := rfl
@[simp] theorem State.verified_ctr (s : State) : (s.verified).ctr = s.ctr := rfl
@[simp] theorem State.verified_aadlen (s : State) : (s.verified).aadlen = s.aadlen := rfl
@[simp] theorem State.verified_ctlen (s : State) : (s.verified).ctlen = s.ctlen := rfl
@[simp] theorem State.verified_tagv (s : State) : (s.verified).tagv = s.tagv := rfl
@[simp] theorem State.verified_taglenL (s : State) : (s.verified).taglenL = s.taglenL := rfl
@[simp] theorem State.verified_pbuf (s : State) : (s.verified).pbuf = s.pbuf := rfl
@[simp] theorem State.verified_pbCount (s : State) : (s.verified).pbCount = s.pbCount := rfl
@[simp] theorem State.verified_pbRdptr (s : State) : (s.verified).pbRdptr = s.pbRdptr := rfl
@[simp] theorem State.verified_pbufBlocks (s : State) : (s.verified).pbufBlocks = s.pbufBlocks := rfl
@[simp] theorem State.verified_host (s : State) : (s.verified).host = s.host := rfl

/-! ### releaseBlock -/

@[simp] theorem State.releaseBlock_pending (s : State) : (s.releaseBlock).pending = s.pending := rfl
@[simp] theorem State.releaseBlock_cmd (s : State) : (s.releaseBlock).cmd = s.cmd := rfl
@[simp] theorem State.releaseBlock_status (s : State) : (s.releaseBlock).status = s.status := rfl
@[simp] theorem State.releaseBlock_cfg (s : State) : (s.releaseBlock).cfg = s.cfg := rfl
@[simp] theorem State.releaseBlock_key (s : State) : (s.releaseBlock).key = s.key := rfl
@[simp] theorem State.releaseBlock_nonce (s : State) : (s.releaseBlock).nonce = s.nonce := rfl
@[simp] theorem State.releaseBlock_tagin (s : State) : (s.releaseBlock).tagin = s.tagin := rfl
@[simp] theorem State.releaseBlock_din (s : State) : (s.releaseBlock).din = s.din := rfl
@[simp] theorem State.releaseBlock_dout (s : State) :
    (s.releaseBlock).dout = s.dout.set 0 (Pbuf.get s.pbuf s.pbRdptr.toNat) := rfl
@[simp] theorem State.releaseBlock_hkeyin (s : State) : (s.releaseBlock).hkeyin = s.hkeyin := rfl
@[simp] theorem State.releaseBlock_rk (s : State) : (s.releaseBlock).rk = s.rk := rfl
@[simp] theorem State.releaseBlock_h (s : State) : (s.releaseBlock).h = s.h := rfl
@[simp] theorem State.releaseBlock_x (s : State) : (s.releaseBlock).x = s.x := rfl
@[simp] theorem State.releaseBlock_j0 (s : State) : (s.releaseBlock).j0 = s.j0 := rfl
@[simp] theorem State.releaseBlock_ctr (s : State) : (s.releaseBlock).ctr = s.ctr := rfl
@[simp] theorem State.releaseBlock_aadlen (s : State) : (s.releaseBlock).aadlen = s.aadlen := rfl
@[simp] theorem State.releaseBlock_ctlen (s : State) : (s.releaseBlock).ctlen = s.ctlen := rfl
@[simp] theorem State.releaseBlock_tagv (s : State) : (s.releaseBlock).tagv = s.tagv := rfl
@[simp] theorem State.releaseBlock_taglenL (s : State) : (s.releaseBlock).taglenL = s.taglenL := rfl
@[simp] theorem State.releaseBlock_pbuf (s : State) : (s.releaseBlock).pbuf = s.pbuf := rfl
@[simp] theorem State.releaseBlock_pbCount (s : State) : (s.releaseBlock).pbCount = s.pbCount := rfl
@[simp] theorem State.releaseBlock_pbRdptr (s : State) : (s.releaseBlock).pbRdptr = s.pbRdptr + 1 := rfl
@[simp] theorem State.releaseBlock_pbufBlocks (s : State) : (s.releaseBlock).pbufBlocks = s.pbufBlocks := rfl
@[simp] theorem State.releaseBlock_host (s : State) : (s.releaseBlock).host = s.host := rfl

/-! ### abortMessage -/

@[simp] theorem State.abortMessage_pending (s : State) : (s.abortMessage).pending = s.pending := rfl
@[simp] theorem State.abortMessage_cmd (s : State) : (s.abortMessage).cmd = s.cmd := rfl
@[simp] theorem State.abortMessage_status (s : State) :
    (s.abortMessage).status = { s.status with phase := .idle, partialChunk := false, authOk := false } := rfl
@[simp] theorem State.abortMessage_cfg (s : State) : (s.abortMessage).cfg = s.cfg := rfl
@[simp] theorem State.abortMessage_key (s : State) : (s.abortMessage).key = s.key := rfl
@[simp] theorem State.abortMessage_nonce (s : State) : (s.abortMessage).nonce = s.nonce := rfl
@[simp] theorem State.abortMessage_tagin (s : State) : (s.abortMessage).tagin = s.tagin := rfl
@[simp] theorem State.abortMessage_din (s : State) : (s.abortMessage).din = s.din := rfl
@[simp] theorem State.abortMessage_dout (s : State) : (s.abortMessage).dout = s.dout := rfl
@[simp] theorem State.abortMessage_hkeyin (s : State) : (s.abortMessage).hkeyin = s.hkeyin := rfl
@[simp] theorem State.abortMessage_rk (s : State) : (s.abortMessage).rk = s.rk := rfl
@[simp] theorem State.abortMessage_h (s : State) : (s.abortMessage).h = s.h := rfl
@[simp] theorem State.abortMessage_x (s : State) : (s.abortMessage).x = s.x := rfl
@[simp] theorem State.abortMessage_j0 (s : State) : (s.abortMessage).j0 = s.j0 := rfl
@[simp] theorem State.abortMessage_ctr (s : State) : (s.abortMessage).ctr = s.ctr := rfl
@[simp] theorem State.abortMessage_aadlen (s : State) : (s.abortMessage).aadlen = s.aadlen := rfl
@[simp] theorem State.abortMessage_ctlen (s : State) : (s.abortMessage).ctlen = s.ctlen := rfl
@[simp] theorem State.abortMessage_tagv (s : State) : (s.abortMessage).tagv = s.tagv := rfl
@[simp] theorem State.abortMessage_taglenL (s : State) : (s.abortMessage).taglenL = s.taglenL := rfl
@[simp] theorem State.abortMessage_pbuf (s : State) : (s.abortMessage).pbuf = [] := rfl
@[simp] theorem State.abortMessage_pbCount (s : State) : (s.abortMessage).pbCount = 0 := rfl
@[simp] theorem State.abortMessage_pbRdptr (s : State) : (s.abortMessage).pbRdptr = 0 := rfl
@[simp] theorem State.abortMessage_pbufBlocks (s : State) : (s.abortMessage).pbufBlocks = s.pbufBlocks := rfl
@[simp] theorem State.abortMessage_host (s : State) : (s.abortMessage).host = s.host := rfl

/-! ### The states the operations read -/

@[simp] theorem State.complete_dinBlock (s : State) (e : ErrCode) (k : Fin 4) : (s.complete e).dinBlock k = s.dinBlock k := by
  simp [State.dinBlock]
@[simp] theorem State.complete_encrypt (s : State) (e : ErrCode) (blk : Block) : (s.complete e).encrypt blk = s.encrypt blk := by
  simp [State.encrypt]
@[simp] theorem State.zeroPbuf_busy (s : State) : (s.zeroPbuf).busy = s.busy := by simp [State.busy]
@[simp] theorem State.zeroPbuf_dinBlock (s : State) (k : Fin 4) : (s.zeroPbuf).dinBlock k = s.dinBlock k := by
  simp [State.dinBlock]
@[simp] theorem State.zeroPbuf_encrypt (s : State) (blk : Block) : (s.zeroPbuf).encrypt blk = s.encrypt blk := by
  simp [State.encrypt]
@[simp] theorem State.pushPlain_busy (s : State) (p : Block) : (s.pushPlain p).busy = s.busy := by simp [State.busy]
@[simp] theorem State.pushPlain_dinBlock (s : State) (p : Block) (k : Fin 4) : (s.pushPlain p).dinBlock k = s.dinBlock k := by
  simp [State.dinBlock]
@[simp] theorem State.pushPlain_encrypt (s : State) (p : Block) (blk : Block) : (s.pushPlain p).encrypt blk = s.encrypt blk := by
  simp [State.encrypt]
@[simp] theorem State.putDout_busy (s : State) (l : Fin 4) (v : Block) : (s.putDout l v).busy = s.busy := by simp [State.busy]
@[simp] theorem State.putDout_dinBlock (s : State) (l : Fin 4) (v : Block) (k : Fin 4) : (s.putDout l v).dinBlock k = s.dinBlock k := by
  simp [State.dinBlock]
@[simp] theorem State.putDout_encrypt (s : State) (l : Fin 4) (v : Block) (blk : Block) : (s.putDout l v).encrypt blk = s.encrypt blk := by
  simp [State.encrypt]
@[simp] theorem State.fold_busy (s : State) (b : Block) : (s.fold b).busy = s.busy := by simp [State.busy]
@[simp] theorem State.fold_dinBlock (s : State) (b : Block) (k : Fin 4) : (s.fold b).dinBlock k = s.dinBlock k := by
  simp [State.dinBlock]
@[simp] theorem State.fold_encrypt (s : State) (b : Block) (blk : Block) : (s.fold b).encrypt blk = s.encrypt blk := by
  simp [State.encrypt]
@[simp] theorem State.absorb_busy (s : State) (c : Block) (n : BitVec 64) : (s.absorb c n).busy = s.busy := by simp [State.busy]
@[simp] theorem State.absorb_dinBlock (s : State) (c : Block) (n : BitVec 64) (k : Fin 4) : (s.absorb c n).dinBlock k = s.dinBlock k := by
  simp [State.dinBlock]
@[simp] theorem State.absorb_encrypt (s : State) (c : Block) (n : BitVec 64) (blk : Block) : (s.absorb c n).encrypt blk = s.encrypt blk := by
  simp [State.encrypt]
@[simp] theorem State.notePartial_busy (s : State) (nb : BitVec 5) : (s.notePartial nb).busy = s.busy := by simp [State.busy]
@[simp] theorem State.notePartial_dinBlock (s : State) (nb : BitVec 5) (k : Fin 4) : (s.notePartial nb).dinBlock k = s.dinBlock k := by
  simp [State.dinBlock]
@[simp] theorem State.notePartial_encrypt (s : State) (nb : BitVec 5) (blk : Block) : (s.notePartial nb).encrypt blk = s.encrypt blk := by
  simp [State.encrypt]
@[simp] theorem State.openPlaintext_busy (s : State) : (s.openPlaintext).busy = s.busy := by simp [State.busy]
@[simp] theorem State.openPlaintext_dinBlock (s : State) (k : Fin 4) : (s.openPlaintext).dinBlock k = s.dinBlock k := by
  simp [State.dinBlock]
@[simp] theorem State.openPlaintext_encrypt (s : State) (blk : Block) : (s.openPlaintext).encrypt blk = s.encrypt blk := by
  simp [State.encrypt]
@[simp] theorem State.openCiphertext_busy (s : State) : (s.openCiphertext).busy = s.busy := by simp [State.busy]
@[simp] theorem State.openCiphertext_dinBlock (s : State) (k : Fin 4) : (s.openCiphertext).dinBlock k = s.dinBlock k := by
  simp [State.dinBlock]
@[simp] theorem State.openCiphertext_encrypt (s : State) (blk : Block) : (s.openCiphertext).encrypt blk = s.encrypt blk := by
  simp [State.encrypt]
@[simp] theorem State.emitCipher_busy (s : State) (l : Fin 4) (c : Block) (n : BitVec 64) : (s.emitCipher l c n).busy = s.busy := by simp [State.busy]
@[simp] theorem State.emitCipher_dinBlock (s : State) (l : Fin 4) (c : Block) (n : BitVec 64) (k : Fin 4) : (s.emitCipher l c n).dinBlock k = s.dinBlock k := by
  simp [State.dinBlock]
@[simp] theorem State.emitCipher_encrypt (s : State) (l : Fin 4) (c : Block) (n : BitVec 64) (blk : Block) : (s.emitCipher l c n).encrypt blk = s.encrypt blk := by
  simp [State.encrypt]
@[simp] theorem State.encryptLane_busy (s : State) (l : Fin 4) : (s.encryptLane l).busy = s.busy := by simp [State.busy]
@[simp] theorem State.encryptLane_dinBlock (s : State) (l : Fin 4) (k : Fin 4) : (s.encryptLane l).dinBlock k = s.dinBlock k := by
  simp [State.dinBlock]
@[simp] theorem State.encryptLane_encrypt (s : State) (l : Fin 4) (blk : Block) : (s.encryptLane l).encrypt blk = s.encrypt blk := by
  simp [State.encrypt]
@[simp] theorem State.decryptLane_busy (s : State) (l : Fin 4) : (s.decryptLane l).busy = s.busy := by simp [State.busy]
@[simp] theorem State.decryptLane_dinBlock (s : State) (l : Fin 4) (k : Fin 4) : (s.decryptLane l).dinBlock k = s.dinBlock k := by
  simp [State.dinBlock]
@[simp] theorem State.decryptLane_encrypt (s : State) (l : Fin 4) (blk : Block) : (s.decryptLane l).encrypt blk = s.encrypt blk := by
  simp [State.encrypt]
@[simp] theorem State.failMessage_busy (s : State) : (s.failMessage).busy = s.busy := by simp [State.busy]
@[simp] theorem State.failMessage_dinBlock (s : State) (k : Fin 4) : (s.failMessage).dinBlock k = s.dinBlock k := by
  simp [State.dinBlock]
@[simp] theorem State.failMessage_encrypt (s : State) (blk : Block) : (s.failMessage).encrypt blk = s.encrypt blk := by
  simp [State.encrypt]
@[simp] theorem State.startMessage_busy (s : State) (p : Phase) : (s.startMessage p).busy = s.busy := by simp [State.busy]
@[simp] theorem State.startMessage_dinBlock (s : State) (p : Phase) (k : Fin 4) : (s.startMessage p).dinBlock k = s.dinBlock k := by
  simp [State.dinBlock]
@[simp] theorem State.startMessage_encrypt (s : State) (p : Phase) (blk : Block) : (s.startMessage p).encrypt blk = s.encrypt blk := by
  simp [State.encrypt]
@[simp] theorem State.closeHash_busy (s : State) : (s.closeHash).busy = s.busy := by simp [State.busy]
@[simp] theorem State.closeHash_dinBlock (s : State) (k : Fin 4) : (s.closeHash).dinBlock k = s.dinBlock k := by
  simp [State.dinBlock]
@[simp] theorem State.closeHash_encrypt (s : State) (blk : Block) : (s.closeHash).encrypt blk = s.encrypt blk := by
  simp [State.encrypt]
@[simp] theorem State.issue_dinBlock (s : State) (w : Word) (k : Fin 4) : (s.issue w).dinBlock k = s.dinBlock k := by
  simp [State.dinBlock]
@[simp] theorem State.issue_encrypt (s : State) (w : Word) (blk : Block) : (s.issue w).encrypt blk = s.encrypt blk := by
  simp [State.encrypt]
@[simp] theorem State.writeStatus_busy (s : State) (v : Word) : (s.writeStatus v).busy = s.busy := by simp [State.busy]
@[simp] theorem State.writeStatus_dinBlock (s : State) (v : Word) (k : Fin 4) : (s.writeStatus v).dinBlock k = s.dinBlock k := by
  simp [State.dinBlock]
@[simp] theorem State.writeStatus_encrypt (s : State) (v : Word) (blk : Block) : (s.writeStatus v).encrypt blk = s.encrypt blk := by
  simp [State.encrypt]
@[simp] theorem State.dropWrite_busy (s : State) : (s.dropWrite).busy = s.busy := by simp [State.busy]
@[simp] theorem State.dropWrite_dinBlock (s : State) (k : Fin 4) : (s.dropWrite).dinBlock k = s.dinBlock k := by
  simp [State.dinBlock]
@[simp] theorem State.dropWrite_encrypt (s : State) (blk : Block) : (s.dropWrite).encrypt blk = s.encrypt blk := by
  simp [State.encrypt]
@[simp] theorem State.observe_busy (s : State) (v : Word) : (s.observe v).busy = s.busy := by simp [State.busy]
@[simp] theorem State.observe_dinBlock (s : State) (v : Word) (k : Fin 4) : (s.observe v).dinBlock k = s.dinBlock k := by
  simp [State.dinBlock]
@[simp] theorem State.observe_encrypt (s : State) (v : Word) (blk : Block) : (s.observe v).encrypt blk = s.encrypt blk := by
  simp [State.encrypt]
@[simp] theorem State.takeDraw_busy (s : State) : (s.takeDraw).busy = s.busy := by simp [State.busy]
@[simp] theorem State.takeDraw_dinBlock (s : State) (k : Fin 4) : (s.takeDraw).dinBlock k = s.dinBlock k := by
  simp [State.dinBlock]
@[simp] theorem State.takeDraw_encrypt (s : State) (blk : Block) : (s.takeDraw).encrypt blk = s.encrypt blk := by
  simp [State.encrypt]
@[simp] theorem State.withSchedule_busy (s : State) (rest : List Event) : (s.withSchedule rest).busy = s.busy := by simp [State.busy]
@[simp] theorem State.withSchedule_dinBlock (s : State) (rest : List Event) (k : Fin 4) : (s.withSchedule rest).dinBlock k = s.dinBlock k := by
  simp [State.dinBlock]
@[simp] theorem State.withSchedule_encrypt (s : State) (rest : List Event) (blk : Block) : (s.withSchedule rest).encrypt blk = s.encrypt blk := by
  simp [State.encrypt]
@[simp] theorem State.loadKey_busy (s : State) : (s.loadKey).busy = s.busy := by simp [State.busy]
@[simp] theorem State.loadKey_dinBlock (s : State) (k : Fin 4) : (s.loadKey).dinBlock k = s.dinBlock k := by
  simp [State.dinBlock]
@[simp] theorem State.loadH_busy (s : State) (v : Block) : (s.loadH v).busy = s.busy := by simp [State.busy]
@[simp] theorem State.loadH_dinBlock (s : State) (v : Block) (k : Fin 4) : (s.loadH v).dinBlock k = s.dinBlock k := by
  simp [State.dinBlock]
@[simp] theorem State.loadH_encrypt (s : State) (v : Block) (blk : Block) : (s.loadH v).encrypt blk = s.encrypt blk := by
  simp [State.encrypt]
@[simp] theorem State.absorbAad_busy (s : State) (nb : BitVec 5) : (s.absorbAad nb).busy = s.busy := by simp [State.busy]
@[simp] theorem State.absorbAad_dinBlock (s : State) (nb : BitVec 5) (k : Fin 4) : (s.absorbAad nb).dinBlock k = s.dinBlock k := by
  simp [State.dinBlock]
@[simp] theorem State.absorbAad_encrypt (s : State) (nb : BitVec 5) (blk : Block) : (s.absorbAad nb).encrypt blk = s.encrypt blk := by
  simp [State.encrypt]
@[simp] theorem State.encryptChunk_busy (s : State) (nb : BitVec 5) : (s.encryptChunk nb).busy = s.busy := by simp [State.busy]
@[simp] theorem State.encryptChunk_dinBlock (s : State) (nb : BitVec 5) (k : Fin 4) : (s.encryptChunk nb).dinBlock k = s.dinBlock k := by
  simp [State.dinBlock]
@[simp] theorem State.encryptChunk_encrypt (s : State) (nb : BitVec 5) (blk : Block) : (s.encryptChunk nb).encrypt blk = s.encrypt blk := by
  simp [State.encrypt]
@[simp] theorem State.decryptChunk_busy (s : State) (nb : BitVec 5) : (s.decryptChunk nb).busy = s.busy := by simp [State.busy]
@[simp] theorem State.decryptChunk_dinBlock (s : State) (nb : BitVec 5) (k : Fin 4) : (s.decryptChunk nb).dinBlock k = s.dinBlock k := by
  simp [State.dinBlock]
@[simp] theorem State.decryptChunk_encrypt (s : State) (nb : BitVec 5) (blk : Block) : (s.decryptChunk nb).encrypt blk = s.encrypt blk := by
  simp [State.encrypt]
@[simp] theorem State.emitTag_busy (s : State) : (s.emitTag).busy = s.busy := by simp [State.busy]
@[simp] theorem State.emitTag_dinBlock (s : State) (k : Fin 4) : (s.emitTag).dinBlock k = s.dinBlock k := by
  simp [State.dinBlock]
@[simp] theorem State.emitTag_encrypt (s : State) (blk : Block) : (s.emitTag).encrypt blk = s.encrypt blk := by
  simp [State.encrypt]
@[simp] theorem State.verified_busy (s : State) : (s.verified).busy = s.busy := by simp [State.busy]
@[simp] theorem State.verified_dinBlock (s : State) (k : Fin 4) : (s.verified).dinBlock k = s.dinBlock k := by
  simp [State.dinBlock]
@[simp] theorem State.verified_encrypt (s : State) (blk : Block) : (s.verified).encrypt blk = s.encrypt blk := by
  simp [State.encrypt]
@[simp] theorem State.releaseBlock_busy (s : State) : (s.releaseBlock).busy = s.busy := by simp [State.busy]
@[simp] theorem State.releaseBlock_dinBlock (s : State) (k : Fin 4) : (s.releaseBlock).dinBlock k = s.dinBlock k := by
  simp [State.dinBlock]
@[simp] theorem State.releaseBlock_encrypt (s : State) (blk : Block) : (s.releaseBlock).encrypt blk = s.encrypt blk := by
  simp [State.encrypt]
@[simp] theorem State.abortMessage_busy (s : State) : (s.abortMessage).busy = s.busy := by simp [State.busy]
@[simp] theorem State.abortMessage_dinBlock (s : State) (k : Fin 4) : (s.abortMessage).dinBlock k = s.dinBlock k := by
  simp [State.dinBlock]
@[simp] theorem State.abortMessage_encrypt (s : State) (blk : Block) : (s.abortMessage).encrypt blk = s.encrypt blk := by
  simp [State.encrypt]

@[simp] theorem State.complete_busy (s : State) (e : ErrCode) : (s.complete e).busy = false := rfl
@[simp] theorem State.issue_busy (s : State) (w : Word) : (s.issue w).busy = true := rfl

end Sys2Proof.Machine
end

