-- ==== Sys2Proof/Laws/Exec.lean ====
section
/-!
SUPPORT. What a command can do, said once: it ends with an error that changes nothing else, with one of the two errors that
close the message, or with its effect. And the plaintext buffer's form, which every operation keeps.
-/

namespace Sys2Proof.Machine

/-! ### Completion -/

@[simp] theorem finish_eq (s : State) : finish s = .next (s.complete .ok) := rfl

@[simp] theorem raise_eq (e : ErrCode) (s : State) : raise e s = .next (s.complete e) := rfl

/-- A block command ends with KEY_NOT_LOADED or with the lanes it was given. -/
theorem blockCommand_next {s t : State} {out : Vector Block 4} (h : blockCommand s out = .next t) :
    (s.status.keyValid = false ∧ t = s.complete .keyNotLoaded) ∨
      (s.status.keyValid = true ∧ t = State.complete { s with dout := out } .ok) := by
  unfold blockCommand at h
  split at h
  · rename_i hk; simp_all
  · rename_i hk; simp_all

/-- AEAD_INIT_* ends with one of its two errors or with a new message. -/
theorem initMessage_next {p : Phase} {s t : State} (h : initMessage p s = .next t) :
    (s.status.keyValid = false ∧ t = s.complete .keyNotLoaded) ∨
      (s.status.keyValid = true ∧ s.cfg.nonceLen ≠ 12 ∧ t = s.complete .invalidNonceLength) ∨
      (s.status.keyValid = true ∧ s.cfg.nonceLen = 12 ∧ t = (s.startMessage p).complete .ok) := by
  unfold initMessage at h
  split at h
  · simp_all
  · split at h <;> simp_all

/-! ### The commands -/

/-- The conditions under which a command has its full effect. -/
def completes (i : Instr) (s : State) : Bool :=
  match i with
  | .nop | .ctxClear | .aeadAbort => true
  | .keyExpand => s.cfg.keyLen == 16
  | .blockEnc | .blockDec | .batch4Enc | .batch4Dec => s.status.keyValid
  | .ghashInit | .ghashSeth => !s.status.phase.inMessage
  | .ghashUpdate => !s.status.phase.inMessage && s.status.hValid
  | .hashkeyDerive => s.status.keyValid && !s.status.phase.inMessage
  | .aeadInitEnc | .aeadInitDec => s.status.keyValid && s.cfg.nonceLen == 12
  | .aeadAad nb => decide (nb.toNat ≤ 16) && s.takesAad
  | .aeadEnc nb => decide (nb.toNat ≤ 16) && s.takesPlaintext
  | .aeadDec nb => decide (nb.toNat ≤ 16) && s.takesCiphertext && s.pbufHasRoom (if nb = 0 then 0 else 1)
  | .aeadFinal =>
    match s.status.phase with
    | .encAad | .encData => true
    | .decAad | .decData => s.tagMatches
    | .idle | .encDone | .decVerified | .failed => false
  | .aeadPtRead => s.hasVerifiedBlock
  | .aeadEnc4 => s.takesPlaintext
  | .aeadDec4 => s.takesCiphertext && s.pbufHasRoom 4

/-- The state a command leaves when it has its full effect, before it is completed. -/
def effect (i : Instr) (s : State) : State :=
  match i with
  | .nop => s
  | .keyExpand => s.loadKey
  | .ctxClear => s.clearContext
  | .blockEnc => { s with dout := s.dout.set 0 (s.encrypt (s.dinBlock 0)) }
  | .blockDec => { s with dout := s.dout.set 0 (s.decrypt (s.dinBlock 0)) }
  | .batch4Enc => { s with dout := s.batch s.encrypt }
  | .batch4Dec => { s with dout := s.batch s.decrypt }
  | .ghashInit => { s with x := 0 }
  | .ghashUpdate => s.fold (s.dinBlock 0)
  | .ghashSeth => s.loadH s.hkeyinBlock
  | .hashkeyDerive => s.loadH (s.encrypt 0)
  | .aeadInitEnc => s.startMessage .encAad
  | .aeadInitDec => s.startMessage .decAad
  | .aeadAad nb => if nb = 0 then s else s.absorbAad nb
  | .aeadEnc nb => if nb = 0 then s.openPlaintext else s.openPlaintext.encryptChunk nb
  | .aeadDec nb => if nb = 0 then s.openCiphertext else s.openCiphertext.decryptChunk nb
  | .aeadFinal =>
    match s.status.phase with
    | .encAad | .encData => s.emitTag
    | .decAad | .decData => s.verified
    | .idle | .encDone | .decVerified | .failed => s
  | .aeadPtRead => s.releaseBlock
  | .aeadAbort => s.abortMessage
  | .aeadEnc4 => (((s.openPlaintext.encryptLane 0).encryptLane 1).encryptLane 2).encryptLane 3
  | .aeadDec4 => (((s.openCiphertext.decryptLane 0).decryptLane 1).decryptLane 2).decryptLane 3

/-- A command that may complete does: it has its effect, and ERR = 0. -/
theorem exec_of_completes {i : Instr} {s : State} (h : completes i s = true) :
    exec i s = .next ((effect i s).complete .ok) := by
  cases i <;> simp only [completes, Bool.and_eq_true, Bool.not_eq_true', decide_eq_true_eq, beq_iff_eq] at h
  case aeadFinal =>
    cases hp : s.status.phase <;> simp_all [exec, execAeadFinal, effect]
  case aeadAad nb =>
    by_cases hn : nb = 0 <;> simp_all [exec, execAeadAad, effect, Nat.not_lt.mpr h.1]
  case aeadEnc nb =>
    by_cases hn : nb = 0 <;> simp_all [exec, execAeadEnc, effect, Nat.not_lt.mpr h.1]
  case aeadDec nb =>
    by_cases hn : nb = 0 <;> simp_all [exec, execAeadDec, effect, Nat.not_lt.mpr h.1.1]
  all_goals
    simp [exec, effect, h, execNop, execKeyExpand, execCtxClear, execBlockEnc, execBlockDec, execBatch4Enc,
      execBatch4Dec, blockCommand, execGhashInit, execGhashUpdate, execGhashSeth, execHashkeyDerive, execAeadInitEnc,
      execAeadInitDec, initMessage, execAeadPtRead, execAeadAbort, execAeadEnc4, execAeadDec4]

/-- A command that may not complete ends with an error; two errors close the message, the others change nothing else. -/
theorem exec_of_not_completes {i : Instr} {s : State} (h : completes i s = false) :
    (∃ e, e ≠ .ok ∧ e ≠ .bufferTooSmall ∧ e ≠ .authenticationFailure ∧ exec i s = .next (s.complete e)) ∨
      (((∃ nb, i = .aeadDec nb) ∨ i = .aeadDec4) ∧ s.takesCiphertext = true ∧
        exec i s = .next (s.failMessage.complete .bufferTooSmall)) ∨
      (i = .aeadFinal ∧ (s.status.phase = .decAad ∨ s.status.phase = .decData) ∧ s.tagMatches = false ∧
        exec i s = .next (s.closeHash.failMessage.complete .authenticationFailure)) := by
  cases i <;> simp only [completes, Bool.and_eq_false_iff, Bool.not_eq_false', decide_eq_false_iff_not, beq_eq_false_iff_ne,
    Bool.true_eq_false] at h
  case aeadFinal =>
    cases hp : s.status.phase <;> simp_all [exec, execAeadFinal]
    all_goals exact ⟨.sequenceError, by decide, by decide, by decide, rfl⟩
  case keyExpand => exact .inl ⟨.invalidKeyLength, by decide, by decide, by decide, by simp_all [exec, execKeyExpand]⟩
  case blockEnc => exact .inl ⟨.keyNotLoaded, by decide, by decide, by decide, by simp [exec, execBlockEnc, blockCommand, h]⟩
  case blockDec => exact .inl ⟨.keyNotLoaded, by decide, by decide, by decide, by simp [exec, execBlockDec, blockCommand, h]⟩
  case batch4Enc => exact .inl ⟨.keyNotLoaded, by decide, by decide, by decide, by simp [exec, execBatch4Enc, blockCommand, h]⟩
  case batch4Dec => exact .inl ⟨.keyNotLoaded, by decide, by decide, by decide, by simp [exec, execBatch4Dec, blockCommand, h]⟩
  case ghashInit => exact .inl ⟨.sequenceError, by decide, by decide, by decide, by simp [exec, execGhashInit, h]⟩
  case ghashSeth => exact .inl ⟨.sequenceError, by decide, by decide, by decide, by simp [exec, execGhashSeth, h]⟩
  case ghashUpdate =>
    by_cases hp : s.status.phase.inMessage = true
    · exact .inl ⟨.sequenceError, by decide, by decide, by decide, by simp [exec, execGhashUpdate, hp]⟩
    · exact .inl ⟨.hashKeyNotLoaded, by decide, by decide, by decide, by simp_all [exec, execGhashUpdate]⟩
  case hashkeyDerive =>
    by_cases hk : s.status.keyValid = true
    · exact .inl ⟨.sequenceError, by decide, by decide, by decide, by simp_all [exec, execHashkeyDerive]⟩
    · exact .inl ⟨.keyNotLoaded, by decide, by decide, by decide, by simp_all [exec, execHashkeyDerive]⟩
  case aeadInitEnc =>
    by_cases hk : s.status.keyValid = true
    · exact .inl ⟨.invalidNonceLength, by decide, by decide, by decide, by simp_all [exec, execAeadInitEnc, initMessage]⟩
    · exact .inl ⟨.keyNotLoaded, by decide, by decide, by decide, by simp_all [exec, execAeadInitEnc, initMessage]⟩
  case aeadInitDec =>
    by_cases hk : s.status.keyValid = true
    · exact .inl ⟨.invalidNonceLength, by decide, by decide, by decide, by simp_all [exec, execAeadInitDec, initMessage]⟩
    · exact .inl ⟨.keyNotLoaded, by decide, by decide, by decide, by simp_all [exec, execAeadInitDec, initMessage]⟩
  case aeadAad nb =>
    by_cases hn : 16 < nb.toNat
    · exact .inl ⟨.illegalCommand, by decide, by decide, by decide, by simp [exec, execAeadAad, hn]⟩
    · exact .inl ⟨.sequenceError, by decide, by decide, by decide, by simp_all [exec, execAeadAad]⟩
  case aeadEnc nb =>
    by_cases hn : 16 < nb.toNat
    · exact .inl ⟨.illegalCommand, by decide, by decide, by decide, by simp [exec, execAeadEnc, hn]⟩
    · exact .inl ⟨.sequenceError, by decide, by decide, by decide, by simp_all [exec, execAeadEnc]⟩
  case aeadDec nb =>
    by_cases hn : 16 < nb.toNat
    · exact .inl ⟨.illegalCommand, by decide, by decide, by decide, by simp [exec, execAeadDec, hn]⟩
    · by_cases hc : s.takesCiphertext = true
      · exact .inr (.inl ⟨.inl ⟨nb, rfl⟩, hc, by simp_all [exec, execAeadDec]⟩)
      · exact .inl ⟨.sequenceError, by decide, by decide, by decide, by simp_all [exec, execAeadDec]⟩
  case aeadPtRead => exact .inl ⟨.sequenceError, by decide, by decide, by decide, by simp [exec, execAeadPtRead, h]⟩
  case aeadEnc4 => exact .inl ⟨.sequenceError, by decide, by decide, by decide, by simp [exec, execAeadEnc4, h]⟩
  case aeadDec4 =>
    by_cases hc : s.takesCiphertext = true
    · exact .inr (.inl ⟨.inr rfl, hc, by simp_all [exec, execAeadDec4]⟩)
    · exact .inl ⟨.sequenceError, by decide, by decide, by decide, by simp_all [exec, execAeadDec4]⟩

/-- Every command gives a next state. -/
theorem exec_next (i : Instr) (s : State) : ∃ (u : State) (e : ErrCode), exec i s = .next (u.complete e) := by
  cases h : completes i s
  · obtain ⟨e, -, -, -, h⟩ | ⟨-, -, h⟩ | ⟨-, -, -, h⟩ := exec_of_not_completes h <;> exact ⟨_, _, h⟩
  · exact ⟨_, _, exec_of_completes h⟩

/-! ### The plaintext buffer -/

theorem Pbuf.wf_cons {j : Nat} {v : Block} {m : Pbuf} :
    Pbuf.wf ((j, v) :: m) = true ↔ v ≠ 0 ∧ (∀ e ∈ m.head?, j < e.1) ∧ Pbuf.wf m = true := by
  cases m with
  | nil => simp [Pbuf.wf]
  | cons e m => obtain ⟨k, u⟩ := e; simp [Pbuf.wf, and_assoc]

theorem Pbuf.put_head {m : Pbuf} {j k : Nat} {v : Block} (hk : j < k) (hm : ∀ e ∈ m.head?, j < e.1) (hw : Pbuf.wf m = true) :
    ∀ e ∈ (Pbuf.put m k v).head?, j < e.1 := by
  cases m with
  | nil => unfold Pbuf.put; split <;> simp_all
  | cons a m =>
    obtain ⟨i, u⟩ := a
    have hi : j < i := hm (i, u) rfl
    have hnext := (Pbuf.wf_cons.mp hw).2.1
    intro e he
    unfold Pbuf.put at he
    repeat' split at he
    all_goals first
      | (obtain rfl := Option.some.inj (Option.mem_def.mp he); assumption)
      | exact Nat.lt_trans hi (hnext e he)

/-- Writing an entry keeps the canonical form. -/
theorem Pbuf.put_wf {m : Pbuf} (k : Nat) (v : Block) (hw : Pbuf.wf m = true) : Pbuf.wf (Pbuf.put m k v) = true := by
  induction m with
  | nil => unfold Pbuf.put; split <;> simp_all [Pbuf.wf]
  | cons a m ih =>
    obtain ⟨j, u⟩ := a
    obtain ⟨hu, hh, hm⟩ := Pbuf.wf_cons.mp hw
    unfold Pbuf.put
    split
    · split
      · exact hw
      · rename_i hlt hv; exact Pbuf.wf_cons.mpr ⟨hv, fun e he => by obtain rfl := Option.some.inj (Option.mem_def.mp he); exact hlt, hw⟩
    · split
      · split
        · exact hm
        · rename_i hkj hv; subst hkj; exact Pbuf.wf_cons.mpr ⟨hv, hh, hm⟩
      · exact Pbuf.wf_cons.mpr ⟨hu, Pbuf.put_head (by omega) hh hm, ih hm⟩

/-- PBUF at reset is in canonical form. -/
theorem State.reset_pbuf_wf : Pbuf.wf State.reset.pbuf = true := rfl

/-- PBUF is emptied or left, or it gets the blocks of a data chunk: its form is kept by every command. -/
theorem exec_keeps_pbuf_wf {i : Instr} {s t : State} (hs : Pbuf.wf s.pbuf = true) (h : exec i s = .next t) :
    Pbuf.wf t.pbuf = true := by
  cases hc : completes i s
  · obtain ⟨e, -, -, -, h'⟩ | ⟨-, -, h'⟩ | ⟨-, -, -, h'⟩ := exec_of_not_completes hc <;>
      (rw [h'] at h; obtain rfl := Host.Outcome.next.inj h; first | exact hs | rfl)
  · rw [exec_of_completes hc] at h
    obtain rfl := Host.Outcome.next.inj h
    cases i <;> simp only [effect, State.complete_pbuf] <;> repeat' split
    all_goals first
      | exact hs
      | rfl
      | (simp only [State.decryptChunk_pbuf, State.decryptLane_pbuf, State.openCiphertext_pbuf]
         repeat apply Pbuf.put_wf
         exact hs)
      | simpa using hs

end Sys2Proof.Machine
end

