-- ==== Sys2Proof/Laws/PerInstr.lean ====
section
/-!
SUPPORT. Families of facts about every command as syntax, one lemma per constructor.
-/

namespace Sys2Proof.Laws.WordFields

/-- The word of a command holds its opcode in OP, its chunk length (0 where it takes none) in NB, and 0 in RSV
(spec/30_encoding.md R90, R92, R93). -/
def Statement (i : Instr) : Prop :=
  opField (encode i) = i.opcode ∧ nbField (encode i) = i.chunk?.getD 0 ∧ rsvField (encode i) = 0

/-- The same as a Bool, for the chunk commands' 32 lengths. -/
def holds (i : Instr) : Bool :=
  opField (encode i) == i.opcode && nbField (encode i) == i.chunk?.getD 0 && rsvField (encode i) == 0

theorem statement_of_holds {i : Instr} (h : holds i = true) : Statement i := by
  simpa [holds, Statement, and_assoc] using h

theorem chunk_holds : ∀ nb : BitVec 5, (holds (.aeadAad nb) && holds (.aeadEnc nb) && holds (.aeadDec nb)) = true := by
  decide +kernel

theorem nop : Statement .nop := statement_of_holds (by decide)
theorem keyExpand : Statement .keyExpand := statement_of_holds (by decide)
theorem ctxClear : Statement .ctxClear := statement_of_holds (by decide)
theorem blockEnc : Statement .blockEnc := statement_of_holds (by decide)
theorem blockDec : Statement .blockDec := statement_of_holds (by decide)
theorem batch4Enc : Statement .batch4Enc := statement_of_holds (by decide)
theorem batch4Dec : Statement .batch4Dec := statement_of_holds (by decide)
theorem ghashInit : Statement .ghashInit := statement_of_holds (by decide)
theorem ghashUpdate : Statement .ghashUpdate := statement_of_holds (by decide)
theorem ghashSeth : Statement .ghashSeth := statement_of_holds (by decide)
theorem hashkeyDerive : Statement .hashkeyDerive := statement_of_holds (by decide)
theorem aeadInitEnc : Statement .aeadInitEnc := statement_of_holds (by decide)
theorem aeadInitDec : Statement .aeadInitDec := statement_of_holds (by decide)
theorem aeadAad (nb : BitVec 5) : Statement (.aeadAad nb) := by
  have h := chunk_holds nb
  simp only [Bool.and_eq_true] at h
  exact statement_of_holds h.1.1

theorem aeadEnc (nb : BitVec 5) : Statement (.aeadEnc nb) := by
  have h := chunk_holds nb
  simp only [Bool.and_eq_true] at h
  exact statement_of_holds h.1.2

theorem aeadDec (nb : BitVec 5) : Statement (.aeadDec nb) := by
  have h := chunk_holds nb
  simp only [Bool.and_eq_true] at h
  exact statement_of_holds h.2

theorem aeadFinal : Statement .aeadFinal := statement_of_holds (by decide)
theorem aeadPtRead : Statement .aeadPtRead := statement_of_holds (by decide)
theorem aeadAbort : Statement .aeadAbort := statement_of_holds (by decide)
theorem aeadEnc4 : Statement .aeadEnc4 := statement_of_holds (by decide)
theorem aeadDec4 : Statement .aeadDec4 := statement_of_holds (by decide)

end Sys2Proof.Laws.WordFields
end

