-- ==== Sys2Proof/Laws/Step.lean ====
section
/-!
SUPPORT. What a step can do, said once: the core runs its pending word or has nothing to run, the host reads or writes, or
the core is reset.
-/

namespace Sys2Proof.Machine

/-- The core moves next: its turn heads the schedule, or the schedule is used up. -/
def State.coreMoves (s : State) : Prop := s.host.schedule = [] ∨ ∃ rest, s.host.schedule = .coreTurn :: rest

/-- The state with the head of its schedule taken off. -/
def State.advance (s : State) : State := s.withSchedule s.host.schedule.tail

@[simp] theorem State.withSchedule_self (s : State) : s.withSchedule s.host.schedule = s := rfl

/-- The core's move is EXEC on the pending word (spec/60_exceptions.md R231). -/
theorem step_of_pending {s : State} {w : Word} (hm : s.coreMoves) (hp : s.pending = some w) :
    step s = runWord w s.advance := by
  obtain hs | ⟨rest, hs⟩ := hm
  · have hadv : s.advance = s := by
      have : s.host.schedule.tail = s.host.schedule := by rw [hs]; rfl
      rw [State.advance, this, State.withSchedule_self]
    simp [step, runNext, hs, afterSchedule, hp, hadv]
  · simp [step, runNext, hs, runEvent, coreTurn, hp, State.advance]

/-- An idle core's move changes nothing but the schedule, unless its ERR is one no command writes. -/
theorem step_of_idle_turn {s t : State} (hm : s.coreMoves) (hp : s.pending = none) (h : step s = .next t) :
    t = s.advance := by
  obtain hs | ⟨rest, hs⟩ := hm
  · have hadv : s.advance = s := by
      have : s.host.schedule.tail = s.host.schedule := by rw [hs]; rfl
      rw [State.advance, this, State.withSchedule_self]
    simp only [step, runNext, hs, afterSchedule, hp] at h
    cases hf : reportedFault s.status.err <;> simp_all
  · simp only [step, runNext, hs, runEvent, coreTurn, State.withSchedule_pending, hp] at h
    simp [State.advance, hs, Host.Outcome.next.inj h]

/-- A host read that is not refused changes the host's side only. -/
theorem hostRead_next {a : Access} {s t : State} (h : hostRead a s = .next t) :
    ∃ v d, t = { s with host := { s.host with observed := v :: s.host.observed, draws := d } } := by
  simp only [hostRead, readBusy, readIdle] at h
  repeat' split at h
  all_goals first
    | (cases h; exact ⟨_, _, rfl⟩)
    | cases h

/-- A host write that is not refused is dropped while BUSY = 1 and stored while BUSY = 0. -/
theorem hostWrite_next {a : Access} {v : Word} {s t : State} (h : hostWrite a v s = .next t) :
    (s.busy = true ∧ t = s.dropWrite) ∨ (s.busy = false ∧ t = s.writeAt a.off v) := by
  simp only [hostWrite] at h
  repeat' split at h
  all_goals simp_all

/-- What a step can do. -/
theorem step_cases {s t : State} (h : step s = .next t) :
    (∃ w, s.coreMoves ∧ s.pending = some w ∧ runWord w s.advance = .next t) ∨
      (s.coreMoves ∧ s.pending = none ∧ t = s.advance) ∨
      (∃ a rest v d, s.host.schedule = .read a :: rest ∧
        t = { s.advance with host := { s.advance.host with observed := v :: s.host.observed, draws := d } }) ∨
      (∃ a v rest, s.host.schedule = .write a v :: rest ∧
        ((s.busy = true ∧ t = s.advance.dropWrite) ∨ (s.busy = false ∧ t = s.advance.writeAt a.off v))) ∨
      (∃ rest, s.host.schedule = .reset :: rest ∧ t = s.advance.resetCore) := by
  have core (hm : s.coreMoves) :
      (∃ w, s.coreMoves ∧ s.pending = some w ∧ runWord w s.advance = .next t) ∨
        (s.coreMoves ∧ s.pending = none ∧ t = s.advance) := by
    cases hp : s.pending with
    | some w => exact .inl ⟨w, hm, rfl, (step_of_pending hm hp).symm.trans h⟩
    | none => exact .inr ⟨hm, rfl, step_of_idle_turn hm hp h⟩
  have hadv {e rest} (hs : s.host.schedule = e :: rest) : s.advance = s.withSchedule rest := by
    simp [State.advance, hs]
  cases hs : s.host.schedule with
  | nil => exact (core (.inl hs)).elim .inl (fun h => .inr (.inl h))
  | cons e rest =>
    have h' : runEvent e s.advance = .next t := by rw [hadv hs]; simpa [step, runNext, hs] using h
    cases e with
    | coreTurn => exact (core (.inr ⟨rest, hs⟩)).elim .inl (fun h => .inr (.inl h))
    | read a =>
      obtain ⟨v, d, rfl⟩ := hostRead_next h'
      exact .inr (.inr (.inl ⟨a, rest, v, d, rfl, by simp [State.advance]⟩))
    | write a v => exact .inr (.inr (.inr (.inl ⟨a, v, rest, rfl, by simpa [State.advance] using hostWrite_next h'⟩)))
    | reset => exact .inr (.inr (.inr (.inr ⟨rest, rfl, (Host.Outcome.next.inj h').symm⟩)))
    | accessInReset a => cases h'

/-- A write of one register, by the kind of register: only CMD, STATUS, CFG and the staging registers change. -/
theorem regWrite_other (s : State) (v : Word) (r : Reg) :
    s.regWrite v r = s.issue v ∨ s.regWrite v r = s.writeStatus v ∨ s.regWrite v r = { s with cfg := s.cfg.write v } ∨
      ∃ key nonce tagin din hkeyin, s.regWrite v r =
        { s with key := key, nonce := nonce, tagin := tagin, din := din, hkeyin := hkeyin } := by
  cases r
  case cmd => exact .inl rfl
  case status => exact .inr (.inl rfl)
  case cfg => exact .inr (.inr (.inl rfl))
  all_goals exact .inr (.inr (.inr ⟨_, _, _, _, _, rfl⟩))

/-- The write at an offset, likewise. -/
theorem writeAt_cases (s : State) (off : Nat) (v : Word) :
    s.writeAt off v = s.issue v ∨ s.writeAt off v = s.writeStatus v ∨ s.writeAt off v = { s with cfg := s.cfg.write v } ∨
      ∃ key nonce tagin din hkeyin, s.writeAt off v =
        { s with key := key, nonce := nonce, tagin := tagin, din := din, hkeyin := hkeyin } := by
  unfold State.writeAt
  split
  · exact regWrite_other s v _
  · exact .inr (.inr (.inr ⟨_, _, _, _, _, rfl⟩))

/-- EXEC of a word (spec/60_exceptions.md R231): the decoded command, or ILLEGAL_COMMAND with nothing else changed. -/
theorem runWord_next {w : Word} {s t : State} (h : runWord w s = .next t) :
    (∃ i, decode w = .instr i ∧ exec i s = .next t) ∨ (∃ r, decode w = .illegal r ∧ t = s.complete .illegalCommand) := by
  unfold runWord at h
  cases hd : decode w with
  | instr i => exact .inl ⟨i, rfl, by simpa [hd] using h⟩
  | illegal r => exact .inr ⟨r, rfl, by simpa [hd, eq_comm] using h⟩

end Sys2Proof.Machine
end

