-- ==== Sys2Proof/Tests/Slice0.lean ====
section
/-!
SUPPORT. Tests. Every expected value is a printed one of spec/95_test_vectors.md (the vector is named), or of the rule a test
names; none is the model's own answer. The second half shows, for every statement with hypotheses, values that meet them.
-/

namespace Sys2Proof.Tests

set_option Elab.async false

open Sys2Proof Sys2Proof.Machine Sys2Proof.Claims

/-! ### States to start from -/

/-- What a field of the next state holds; none after a fault or a refusal. -/
def after {α : Type} (f : State → α) (r : Result) : Option α :=
  match r with
  | .next t => some (f t)
  | .fault _ => none
  | .refused _ => none

/-- A 128-bit value in a group of four registers (R8). -/
def group (b : Block) : Vector Word 4 := #v[wordOf b 0, wordOf b 1, wordOf b 2, wordOf b 3]

/-- Reset, with PBUF_BLOCKS = 4 as the vectors have it. -/
def base : State := { State.reset with pbufBlocks := 4 }

/-- V4: the round keys of the key of section 8 of the source. -/
def rk8 : Vector Word 32 := #v[
  0xF12186F9, 0x41662B61, 0x5A6AB19A, 0x7BA92077, 0x367360F4, 0x776A0C61, 0xB6BB89B3, 0x24763151,
  0xA520307C, 0xB7584DBD, 0xC30753ED, 0x7EE55B57, 0x6988608C, 0x30D895B7, 0x44BA14AF, 0x104495A1,
  0xD120B428, 0x73B55FA3, 0xCC874966, 0x92244439, 0xE89E641F, 0x98CA015A, 0xC7159060, 0x99E1FD2E,
  0xB79BD80C, 0x1D2115B0, 0x0E228AEB, 0xF1780C81, 0x428D3654, 0x62293496, 0x01CF72E5, 0x9124A012]

/-- That key in KEY0..KEY3. -/
def key8 : Vector Word 4 := #v[0x01234567, 0x89ABCDEF, 0xFEDCBA98, 0x76543210]

/-- V21's start: the key loaded, the nonce staged, DONE. -/
def keyed : State := { base with
  key := key8
  rk := rk8
  nonce := #v[0x00001234, 0x56780000, 0x0000ABCD]
  status := { Status.reset with done := true, keyValid := true } }

/-- A message in phase `p` under that key and nonce (R184's example). -/
def msg (p : Phase) : State := { keyed with
  h := 0x2677F46B09C122CC975533105BD4A22A
  j0 := 0x00001234567800000000ABCD00000001
  ctr := 0x00001234567800000000ABCD00000002
  status := { keyed.status with hValid := true, phase := p } }

/-- The state with `b` in DIN[0]. -/
def withDin (s : State) (b : Block) : State := { s with din := s.din.set 0 (group b) }

/-- The state with these events to come. -/
def sched (s : State) (es : List Event) : State := { s with host := { s.host with schedule := es } }

/-! ### Well-formedness: an ill-formed term for the one check (R92) -/

theorem test_wf_refuses_long_chunks :
    (Instr.aeadAad 17).wellFormed = false ∧ (Instr.aeadEnc 31).wellFormed = false ∧
      (Instr.aeadDec 17).wellFormed = false := by decide

theorem test_wf_accepts_the_ends :
    (Instr.aeadAad 0).wellFormed = true ∧ (Instr.aeadEnc 16).wellFormed = true ∧ (Instr.aeadDec 16).wellFormed = true ∧
      Instr.nop.wellFormed = true := by decide

/-! ### Decoding (R90, R94, V22): words written out field by field, RSV (19 bits), NB (5 bits), OP (8 bits) -/

theorem test_decode_control :
    decode 0b0000000000000000000_00000_00000000 = .instr .nop ∧
      decode 0b0000000000000000000_00000_00000001 = .instr .keyExpand ∧
      decode 0b0000000000000000000_00000_00000010 = .instr .ctxClear := by decide

theorem test_decode_block :
    decode 0b0000000000000000000_00000_00010000 = .instr .blockEnc ∧
      decode 0b0000000000000000000_00000_00010001 = .instr .blockDec ∧
      decode 0b0000000000000000000_00000_00010010 = .instr .batch4Enc ∧
      decode 0b0000000000000000000_00000_00010011 = .instr .batch4Dec := by decide

theorem test_decode_ghash :
    decode 0b0000000000000000000_00000_00100000 = .instr .ghashInit ∧
      decode 0b0000000000000000000_00000_00100001 = .instr .ghashUpdate ∧
      decode 0b0000000000000000000_00000_00100010 = .instr .ghashSeth ∧
      decode 0b0000000000000000000_00000_00100011 = .instr .hashkeyDerive := by decide

theorem test_decode_aead :
    decode 0b0000000000000000000_00000_00110000 = .instr .aeadInitEnc ∧
      decode 0b0000000000000000000_00000_00110001 = .instr .aeadInitDec ∧
      decode 0b0000000000000000000_00000_00110101 = .instr .aeadFinal ∧
      decode 0b0000000000000000000_00000_00110110 = .instr .aeadPtRead ∧
      decode 0b0000000000000000000_00000_00110111 = .instr .aeadAbort ∧
      decode 0b0000000000000000000_00000_00111000 = .instr .aeadEnc4 ∧
      decode 0b0000000000000000000_00000_00111001 = .instr .aeadDec4 := by decide

theorem test_decode_chunks :
    decode 0b0000000000000000000_10000_00110010 = .instr (.aeadAad 16) ∧
      decode 0b0000000000000000000_00101_00110011 = .instr (.aeadEnc 5) ∧
      decode 0b0000000000000000000_00000_00110100 = .instr (.aeadDec 0) := by decide

theorem test_decode_illegal :
    decode 0x00000003 = .illegal .reservedOpcode ∧ decode 0x0000000F = .illegal .reservedOpcode ∧
      decode 0x00000014 = .illegal .reservedOpcode ∧ decode 0x0000002F = .illegal .reservedOpcode ∧
      decode 0x0000003A = .illegal .reservedOpcode ∧ decode 0x000000FF = .illegal .reservedOpcode ∧
      decode 0x00002000 = .illegal .reservedBits ∧ decode 0x80000010 = .illegal .reservedBits ∧
      decode 0x00000110 = .illegal .chunkNotTaken ∧ decode 0x00001132 = .illegal .chunkTooLong ∧
      decode 0x00001F33 = .illegal .chunkTooLong ∧ decode 0x00000138 = .illegal .chunkNotTaken := by decide

/-- R95's ranges, both ends of each and their neighbours. -/
theorem test_opcode_ranges :
    [0x03, 0x0F, 0x14, 0x1F, 0x24, 0x2F, 0x3A, 0xFF].map decode = List.replicate 8 (.illegal .reservedOpcode) ∧
      [0x02, 0x10, 0x13, 0x20, 0x23, 0x30, 0x39].map decode = [.instr .ctxClear, .instr .blockEnc, .instr .batch4Dec,
        .instr .ghashInit, .instr .hashkeyDerive, .instr .aeadInitEnc, .instr .aeadDec4] := by decide

theorem test_table_word :
    decodeTableWord 32 0x00001034 = some (.aeadDec 16) ∧ decodeTableWord 32 0x00001132 = none ∧
      decodeTableWord 8 0x10 = some .blockEnc := by decide

/-! ### Pure functions -/

/-- V9. -/
theorem test_substitution :
    sbox 0x01 = 0x90 ∧ sbox 0x10 = 0x2B ∧ sbox 0x8F = 0xA1 ∧ tau 0x01234567 = 0x90F473A2 ∧ tau 0xDEADBEEF = 0xB4535B84 := by
  decide +kernel

/-- V9. -/
theorem test_diffusion :
    diffuse 0x80000000 = 0x80820202 ∧ roundT 0x01234567 = 0x6EF180C9 ∧ roundT 0xDEADBEEF = 0xC2D6A551 ∧
      diffuseKey 0x00000001 = 0x00802001 ∧ keyT 0x01234567 = 0xCFC85B85 := by
  decide +kernel

/-- V9. -/
theorem test_strategies :
    tTable 0 0xFF = 0x68492121 ∧ tTable 1 0xFF = 0x21684921 ∧ tTable 2 0x00 = 0x5B5B8ED5 ∧ tTable 3 0xFF = 0x49212168 ∧
      roundTable 0xDEADBEEF = 0xC2D6A551 ∧ roundSmall 0xDEADBEEF = 0xC2D6A551 ∧ sboxSmall 0xAB = 0xAB := by
  decide +kernel

/-- V4. -/
theorem test_key_schedule : keySchedule key8 = rk8 := by decide +kernel

/-- V10: the last key. -/
theorem test_key_schedule_ends :
    (keySchedule #v[0x00010203, 0x04050607, 0x08090A0B, 0x0C0D0E0F])[0] = 0x5390401C ∧
      (keySchedule #v[0x00010203, 0x04050607, 0x08090A0B, 0x0C0D0E0F])[31] = 0x4DF4A6AA := by
  decide +kernel

/-- V1, V3. -/
theorem test_cipher :
    encryptBlock rk8 0x0123456789ABCDEFFEDCBA9876543210 = 0x681EDF34D206965E86B3E94F536E4246 ∧
      decryptBlock rk8 0x681EDF34D206965E86B3E94F536E4246 = 0x0123456789ABCDEFFEDCBA9876543210 := by
  decide +kernel

/-- V16. -/
theorem test_field :
    gfMul 0x00000000000000000000000000000001 0x40000000000000000000000000000000 = 0xE1000000000000000000000000000000 ∧
      gfMul 0x0388DACE60B6A392F328C2B971B2FE78 0x66E94BD4EF8A2C3B884CFA59CA342B2E = 0x5E2EC746917062882C85B0685353DEB7 ∧
      gfMul 0xFFFFFFFFFFFFFFFFFFFFFFFFFFFFFFFF 0xFFFFFFFFFFFFFFFFFFFFFFFFFFFFFFFF =
        0xF402AAAAAAAAAAAAAAAAAAAAAAAAAAAA := by
  decide +kernel

/-- V6. -/
theorem test_ghash :
    ghash 0x66E94BD4EF8A2C3B884CFA59CA342B2E
      [0x0388DACE60B6A392F328C2B971B2FE78, 0x00000000000000000000000000000080] = 0xF38CBB1AD69223DCC3457AE5B6B0F885 := by
  decide +kernel

/-- V18; R9 on the first byte and on all bytes. -/
theorem test_counter_and_mask :
    inc32 0x00001234567800000000ABCDFFFFFFFF = 0x00001234567800000000ABCD00000000 ∧
      maskNb 0x0123456789ABCDEFFEDCBA9876543210 1 = 0x01000000000000000000000000000000 ∧
      maskNb 0x0123456789ABCDEFFEDCBA9876543210 16 = 0x0123456789ABCDEFFEDCBA9876543210 ∧
      maskNb 0x0123456789ABCDEFFEDCBA9876543210 0 = 0 := by
  decide

/-! ### The commands -/

/-- V24. -/
theorem test_nop : after State.statusWord (exec .nop { base with status := { Status.reset with err := 6 } }) =
    some 0x00000002 := by decide

/-- V11, row 2, and V4. -/
theorem test_key_expand :
    after (fun t => (t.statusWord, t.rk)) (exec .keyExpand { base with key := key8, cfg := base.cfg.write 0x100C1002 }) =
      some (0x00020102, rk8) := by decide +kernel

/-- V11, row 3. -/
theorem test_key_expand_length :
    after (fun t => (t.statusWord, t.rk)) (exec .keyExpand { base with key := key8, cfg := base.cfg.write 0x100C0F00 }) =
      some (0x00000012, base.rk) := by decide

/-- V24: after a finished encryption. -/
theorem test_ctx_clear :
    after (fun t => (t.statusWord, t.key, t.rk, t.ctr, t.cfg.word)) (exec .ctxClear (msg .encDone)) =
      some (0x00000002, base.key, base.rk, 0, 0x100C1000) := by decide

/-- V1, V15: lane 1 keeps its value. -/
theorem test_block_enc :
    after (fun t => (t.statusWord, t.dout))
      (exec .blockEnc (withDin { keyed with dout := #v[0, 5, 0, 0] } 0x0123456789ABCDEFFEDCBA9876543210)) =
      some (0x00000102, #v[0x681EDF34D206965E86B3E94F536E4246, 5, 0, 0]) := by decide +kernel

/-- V15: no key. -/
theorem test_block_enc_no_key : after (fun t => (t.statusWord, t.dout)) (exec .blockEnc base) =
    some (0x00000072, #v[0, 0, 0, 0]) := by decide

/-- V3. -/
theorem test_block_dec :
    after (fun t => t.dout[0]) (exec .blockDec (withDin keyed 0x681EDF34D206965E86B3E94F536E4246)) =
      some 0x0123456789ABCDEFFEDCBA9876543210 := by decide +kernel

/-- V14. -/
theorem test_batch4_enc :
    after (·.dout) (exec .batch4Enc { keyed with din := #v[group 0, group 1, group 2, group 3] }) =
      some #v[0x2677F46B09C122CC975533105BD4A22A, 0x4E595BF03F23BD10329BAF5698E898EC,
        0xB3136C044E95482D4F652E694F2741CD, 0xA12512558B0EE7529BFDA71530C140E1] := by decide +kernel

/-- V14. -/
theorem test_batch4_dec :
    after (·.dout) (exec .batch4Dec { keyed with
      din := #v[group 0x2677F46B09C122CC975533105BD4A22A, group 0x4E595BF03F23BD10329BAF5698E898EC,
        group 0xB3136C044E95482D4F652E694F2741CD, group 0xA12512558B0EE7529BFDA71530C140E1] }) =
      some #v[0, 1, 2, 3] := by decide +kernel

/-- V17: ENC_DONE stays, and in a message the command is refused. -/
theorem test_ghash_init :
    after (fun t => (t.x, t.status.phase)) (exec .ghashInit { msg .encDone with x := 9 }) = some (0, .encDone) ∧
      after (fun t => (t.x, t.status.err)) (exec .ghashInit { msg .encAad with x := 9 }) = some (9, 8) := by decide

/-- P5. -/
theorem test_ghash_update :
    after (fun t => (t.statusWord, t.x))
      (exec .ghashUpdate (withDin { base with
        h := 0x66E94BD4EF8A2C3B884CFA59CA342B2E
        status := { Status.reset with hValid := true } } 0x0388DACE60B6A392F328C2B971B2FE78)) =
      some (0x00000202, 0x5E2EC746917062882C85B0685353DEB7) := by decide +kernel

/-- V17: no H. -/
theorem test_ghash_update_no_h : after (·.status.err) (exec .ghashUpdate base) = some 9 := by decide

/-- P5. -/
theorem test_ghash_seth :
    after (fun t => (t.statusWord, t.h)) (exec .ghashSeth { base with hkeyin := group 0x66E94BD4EF8A2C3B884CFA59CA342B2E }) =
      some (0x00000202, 0x66E94BD4EF8A2C3B884CFA59CA342B2E) := by decide

/-- V17, V7; and without a key, in a message. -/
theorem test_hashkey_derive :
    after (fun t => (t.statusWord, t.h)) (exec .hashkeyDerive keyed) =
      some (0x00000302, 0x2677F46B09C122CC975533105BD4A22A) := by decide +kernel

/-- V17: the key is checked first (R233). -/
theorem test_hashkey_derive_order :
    after (·.status.err) (exec .hashkeyDerive { base with status := { Status.reset with phase := .encAad } }) = some 7 ∧
      after (·.status.err) (exec .hashkeyDerive (msg .encAad)) = some 8 := by decide

/-- R184's example. -/
theorem test_aead_init_enc :
    after (fun t => (t.statusWord, t.h, t.j0, t.ctr)) (exec .aeadInitEnc keyed) =
      some (0x00001302, 0x2677F46B09C122CC975533105BD4A22A, 0x00001234567800000000ABCD00000001,
        0x00001234567800000000ABCD00000002) := by decide +kernel

/-- P7: NONCELEN 8. -/
theorem test_aead_init_enc_length :
    after State.statusWord (exec .aeadInitEnc { keyed with cfg := keyed.cfg.write 0x10081000 }) = some 0x00000122 := by decide

/-- R185's example; TAGLEN 12 is latched (P6). -/
theorem test_aead_init_dec :
    after (fun t => (t.statusWord, t.taglenL)) (exec .aeadInitDec { keyed with cfg := keyed.cfg.write 0x0C0C1000 }) =
      some (0x00004302, 12) := by decide +kernel

/-- P2: the partial chunk, its later bytes ignored. -/
theorem test_aead_aad :
    after (fun t => (t.statusWord, t.aadlen))
      (exec (.aeadAad 4) (withDin { msg .encAad with aadlen := 128 } 0xABADDAD2000000000000000000000000)) =
      some (0x00001B02, 0xA0) := by decide +kernel

/-- V21: after a partial chunk, and in ENC_DATA. -/
theorem test_aead_aad_sequence :
    after State.statusWord (exec (.aeadAad 16) { msg .encAad with
      status := { (msg .encAad).status with partialChunk := true } }) = some 0x00001B82 ∧
      after State.statusWord (exec (.aeadAad 16) (msg .encData)) = some 0x00002382 := by decide

/-- P6, first chunk. -/
theorem test_aead_enc :
    after (fun t => (t.statusWord, t.dout[0], t.ctlen, t.ctr))
      (exec (.aeadEnc 16) (withDin (msg .encAad) 0x000102030405060708090A0B0C0D0E0F)) =
      some (0x00002302, 0xBD58315922C87943AA626D29DE720EC9, 128, 0x00001234567800000000ABCD00000003) := by decide +kernel

/-- P6, the one-byte chunk: bytes 1..15 read 0. -/
theorem test_aead_enc_partial :
    after (fun t => (t.statusWord, t.dout[0], t.ctlen))
      (exec (.aeadEnc 1) (withDin { msg .encData with
        ctr := 0x00001234567800000000ABCD00000003
        ctlen := 128 } 0x10FFFFFFFFFFFFFFFFFFFFFFFFFFFFFF)) =
      some (0x00002B02, 0x83000000000000000000000000000000, 136) := by decide +kernel

/-- P6, the one-byte chunk of the ciphertext. -/
theorem test_aead_dec :
    after (fun t => (t.statusWord, t.pbuf, t.pbCount, t.dout[0]))
      (exec (.aeadDec 1) (withDin { msg .decData with
        ctr := 0x00001234567800000000ABCD00000003
        pbuf := [(0, 7)]
        pbCount := 1 } 0x8300000000000000000000000000FFFF)) =
      some (0x00005B02, [(0, 7), (1, 0x10000000000000000000000000000000)], 2, 0) := by decide +kernel

/-- V21: PBUF full, for a block and for none. -/
theorem test_aead_dec_full :
    after (fun t => (t.statusWord, t.pbuf, t.pbCount))
      (exec (.aeadDec 16) { msg .decData with pbuf := [(0, 7)], pbCount := 4 }) = some (0x00007342, [], 0) ∧
      after State.statusWord (exec (.aeadDec 0) { msg .decData with pbCount := 4 }) = some 0x00005302 := by decide

/-- V19: the empty message. -/
theorem test_aead_final_enc :
    after (fun t => (t.statusWord, t.tagv, t.x)) (exec .aeadFinal (msg .encAad)) =
      some (0x00003302, 0x54F157AF32744BB83BBE8AA6F1578B71, 0) := by decide +kernel

/-- V19, V20: the empty message verified over 12 bytes, and refused when bit 32 differs. -/
theorem test_aead_final_dec :
    after State.statusWord (exec .aeadFinal { msg .decAad with
      taglenL := 12
      tagin := group 0x54F157AF32744BB83BBE8AA6DEADBEEF }) = some 0x00006702 ∧
      after State.statusWord (exec .aeadFinal { msg .decAad with
        taglenL := 12
        tagin := group 0x54F157AF32744BB83BBE8AA7F1578B71 }) = some 0x00007332 := by decide +kernel

/-- P3: the last block, then nothing is left. -/
theorem test_aead_pt_read :
    after (fun t => (t.statusWord, t.dout[0], t.pbufInfo)) (exec .aeadPtRead { msg .decVerified with
      pbuf := [(3, 0xEEEEEEEEEEEEEEEEAAAAAAAAAAAAAAAA)]
      pbCount := 4
      pbRdptr := 3
      status := { (msg .decVerified).status with authOk := true } }) =
      some (0x00006702, 0xEEEEEEEEEEEEEEEEAAAAAAAAAAAAAAAA, 0x00040004) ∧
      after (·.status.err) (exec .aeadPtRead { msg .decVerified with pbCount := 4, pbRdptr := 4 }) = some 8 := by decide

/-- V21: from FAILED. -/
theorem test_aead_abort :
    after State.statusWord (exec .aeadAbort { msg .failed with status := { (msg .failed).status with err := 3 } }) =
      some 0x00000302 := by decide

/-- V19: the 16-byte message in lane 0, whose later lanes are not looked at here. -/
theorem test_aead_enc4 :
    after (fun t => (t.statusWord, t.dout[0], t.ctlen, t.ctr))
      (exec .aeadEnc4 (withDin (msg .encAad) 0x000102030405060708090A0B0C0D0E0F)) =
      some (0x00002302, 0xBD58315922C87943AA626D29DE720EC9, 512, 0x00001234567800000000ABCD00000006) := by decide +kernel

/-- V8: the four lanes of the published message. -/
theorem test_aead_enc4_lanes :
    after (·.dout) (exec .aeadEnc4 { msg .encData with
      din := #v[group 0xAAAAAAAAAAAAAAAABBBBBBBBBBBBBBBB, group 0xCCCCCCCCCCCCCCCCDDDDDDDDDDDDDDDD,
        group 0xEEEEEEEEEEEEEEEEFFFFFFFFFFFFFFFF, group 0xEEEEEEEEEEEEEEEEAAAAAAAAAAAAAAAA] }) =
      some #v[0x17F399F08C67D5EE19D0DC9969C4BB7D, 0x5FD46FD3756489069157B282BB200735,
        0xD82710CA5C22F0CCFA7CBF93D496AC15, 0xA56834CBCF98C397B4024A2691233B8D] := by decide +kernel

/-- P7: the published ciphertext, and X as its end state has it. -/
theorem test_aead_dec4 :
    after (fun t => (t.statusWord, t.pbuf, t.x, t.ctlen)) (exec .aeadDec4 { msg .decAad with
      din := #v[group 0x17F399F08C67D5EE19D0DC9969C4BB7D, group 0x5FD46FD3756489069157B282BB200735,
        group 0xD82710CA5C22F0CCFA7CBF93D496AC15, group 0xA56834CBCF98C397B4024A2691233B8D] }) =
      some (0x00005302, [(0, 0xAAAAAAAAAAAAAAAABBBBBBBBBBBBBBBB), (1, 0xCCCCCCCCCCCCCCCCDDDDDDDDDDDDDDDD),
        (2, 0xEEEEEEEEEEEEEEEEFFFFFFFFFFFFFFFF), (3, 0xEEEEEEEEEEEEEEEEAAAAAAAAAAAAAAAA)],
        0xE3EE477FB5A9B17F4E9F50B6797AA8AD, 0x200) := by decide +kernel

/-- V21: three free blocks are too few. -/
theorem test_aead_dec4_full :
    after State.statusWord (exec .aeadDec4 { msg .decData with pbCount := 1 }) = some 0x00007342 := by decide

/-! ### The bus and the step (V23) -/

/-- The value a host read of this offset returns. -/
def reads (s : State) (off : Nat) : Option Word :=
  after (fun t => t.host.observed.headD 0) (step (sched s [.read ⟨4, off⟩]))

theorem test_bus_reset_reads :
    reads base 0x004 = some 0x00000000 ∧ reads base 0x008 = some 0x100C1000 ∧ reads base 0x110 = some 0x00000004 ∧
      reads base 0x00C = some 0x00000000 := by decide

/-- The write of `v` at `off`, then what the offset holds. -/
def writes (s : State) (off : Nat) (v : Word) : Option Word :=
  after (fun t => t.valueAt off) (step (sched s [.write ⟨4, off⟩ v]))

theorem test_bus_writes :
    writes base 0x010 0x01234567 = some 0 ∧ writes base 0x0C0 5 = some 0 ∧ writes base 0x008 0 = some 0x10000000 ∧
      writes base 0x008 0x110C1003 = some 0x100C1003 ∧ writes base 0x008 0x0C0C10FF = some 0x0C0C1003 ∧
      writes base 0x080 1 = some 0 ∧ writes base 0x200 1 = some 0 ∧ writes base 0x02C 1 = some 0 := by decide

/-- BLOCK_ENC accepted, not yet executed. -/
def busyState : State := { keyed with
  cmd := 0x00000010
  pending := some 0x00000010
  status := { keyed.status with done := false } }

theorem test_bus_busy_write :
    after (fun t => (t.din, t.cmd, t.status.ovr, t.pending)) (step (sched busyState [.write ⟨4, 0x040⟩ 0xFFFFFFFF])) =
      some (keyed.din, 0x00000010, true, some 0x00000010) := by decide

theorem test_bus_busy_read : reads busyState 0x000 = some 0x00000010 := by decide

theorem test_exec_block :
    after (fun t => (t.statusWord, t.dout[0])) (step (sched busyState [.coreTurn])) =
      some (0x00000102, 0x2677F46B09C122CC975533105BD4A22A) := by decide +kernel

theorem test_ovr_w1c :
    writes { keyed with status := { keyed.status with ovr := true } } 0x004 0 = some 0x00000106 ∧
      writes { keyed with status := { keyed.status with ovr := true } } 0x004 4 = some 0x00000102 := by decide

theorem test_illegal_word : after State.statusWord (step (base.withFetchWord 32 0x00000100)) = some 0x00000062 := by decide

theorem test_accesses_refused :
    step (sched base [.read ⟨2, 0x004⟩]) = .refused .accessWidth ∧
      step (sched base [.write ⟨4, 0x006⟩ 0]) = .refused .accessMisaligned ∧
      step (sched base [.read ⟨4, 0x400⟩]) = .refused .accessOutsideWindow ∧
      step (sched base [.accessInReset ⟨4, 0⟩]) = .refused .accessDuringReset := ⟨rfl, rfl, rfl, rfl⟩

theorem test_reserved_code_faults :
    step (sched { base with status := { Status.reset with err := 5 } } [.read ⟨4, 0x004⟩]) = .fault .internalInvariant ∧
      step { base with status := { Status.reset with err := 10 } } = .fault .reservedErrorCode := ⟨rfl, rfl⟩

theorem test_reset_while_busy : after State.statusWord (step (sched busyState [.reset])) = some 0 := by decide

/-! ### Witnesses: values that meet the hypotheses of each statement that has some

Where a statement has several clauses there is one for each, at a boundary where the clause has one. -/

theorem witness_DecodeOfEncode : (Instr.aeadAad 16).wellFormed = true ∧ Instr.aeadDec4.wellFormed = true := by decide

theorem witness_EncodeOfDecode : decode 0x00001034 = .instr (.aeadDec 16) ∧ decode 0 = .instr .nop := by decide

theorem witness_StepRunsThePendingCommand :
    (sched busyState [.coreTurn]).pending = some 0x10 ∧ coreMovesNext (sched busyState [.coreTurn]) ∧
      coreMovesNext (sched busyState []) ∧ decode 0x10 = .instr .blockEnc :=
  ⟨rfl, .inr ⟨[], rfl⟩, .inl rfl, by decide⟩

theorem witness_StepOnIllegalWord :
    (base.issue 0x00001132).pending = some 0x00001132 ∧ coreMovesNext (base.issue 0x00001132) ∧
      decode 0x00001132 = .illegal .chunkTooLong := ⟨rfl, .inl rfl, by decide⟩

theorem witness_PlacedCommandRunsNext : (Instr.aeadEnc 16).wellFormed = true := by decide

theorem witness_ErrorsChangeOnlyWhatIsListed :
    after (·.status.err) (exec (.aeadDec 16) { msg .decData with pbCount := 4 }) = some 4 ∧
      after (·.status.err) (exec .aeadFinal (msg .decAad)) = some 3 ∧ after (·.status.err) (exec .blockEnc base) = some 7 := by
  decide +kernel

theorem witness_ResetInAnyState : (sched busyState [.reset]).host.schedule = .reset :: [] := rfl

theorem witness_RegisterMap :
    regAt 0x000 = some .cmd ∧ regAt 0x028 = some (.nonce 2) ∧ regAt 0x02C = none ∧ regAt 0x030 = some (.tagin 0) ∧
      regAt 0x0BC = some (.dout 3 3) ∧ regAt 0x110 = some .caps ∧ regAt 0x114 = none ∧ regAt 0x3FC = none := by decide

theorem admitted_of {off : Nat} (h : off % 4 = 0 ∧ off < 0x400) : admitted ⟨4, off⟩ := ⟨rfl, h.1, h.2⟩

/-- An offset for each clause, first and last of its range. -/
theorem witness_ReadWhileIdle :
    (∀ off ∈ [0x000, 0x004, 0x008, 0x00C, 0x010, 0x01C, 0x020, 0x028, 0x02C, 0x030, 0x03C, 0x040, 0x07C, 0x080, 0x0BC, 0x0C0,
        0x0CC, 0x0D0, 0x0DC, 0x0E0, 0x0EC, 0x0F0, 0x0F4, 0x0F8, 0x0FC, 0x100, 0x10C, 0x110, 0x114, 0x3FC],
      off % 4 = 0 ∧ off < 0x400) ∧
    admitted ⟨4, 0x004⟩ ∧ (sched base [.read ⟨4, 0x004⟩]).pending = none ∧
      (sched base [.read ⟨4, 0x004⟩]).status.err = ErrCode.ok.code ∧ admitted ⟨4, 0x3FC⟩ :=
  ⟨by decide, admitted_of (by decide), rfl, rfl, admitted_of (by decide)⟩

/-- An offset for each clause, first and last of its range. -/
theorem witness_WriteOnlyAndReservedReadZero :
    ∀ off ∈ [0x010, 0x01C, 0x0C0, 0x0CC, 0x02C, 0x114, 0x3FC, 0x008, 0x004, 0x110], off % 4 = 0 ∧ off < 0x400 := by decide

theorem witness_ReadWhileBusy :
    admitted ⟨4, 0x000⟩ ∧ admitted ⟨4, 0x004⟩ ∧ admitted ⟨4, 0x3FC⟩ ∧ busyState.pending = some 0x10 :=
  ⟨admitted_of (by decide), admitted_of (by decide), admitted_of (by decide), rfl⟩

theorem witness_WriteWhileBusyIsDropped : admitted ⟨4, 0x000⟩ ∧ admitted ⟨4, 0x3FC⟩ ∧ busyState.busy = true :=
  ⟨admitted_of (by decide), admitted_of (by decide), rfl⟩

/-- TAGLEN at 0, 1, 16 and 17. -/
theorem witness_CmdStatusAndCfgWrites :
    base.busy = false ∧ (BitVec.extractLsb' 24 5 (0x00000000 : Word)).toNat = 0 ∧
      (BitVec.extractLsb' 24 5 (0x01000000 : Word)).toNat = 1 ∧ (BitVec.extractLsb' 24 5 (0x10000000 : Word)).toNat = 16 ∧
      (BitVec.extractLsb' 24 5 (0x11000000 : Word)).toNat = 17 := by decide

/-- An offset for each clause, first and last of its range. -/
theorem witness_RegisterWrites :
    base.busy = false ∧ ∀ off ∈ [0x00C, 0x010, 0x01C, 0x020, 0x028, 0x02C, 0x030, 0x07C, 0x080, 0x0BC, 0x0C0, 0x0CC, 0x0D0,
      0x110, 0x3FC], off % 4 = 0 ∧ off < 0x400 ∧ 0x00C ≤ off := by decide

theorem witness_OtherAccessesAreRefused :
    ¬admitted ⟨2, 0x000⟩ ∧ ¬admitted ⟨4, 0x3FE⟩ ∧ ¬admitted ⟨4, 0x400⟩ := by unfold admitted; decide

/-- V5: round 0 of the trace. -/
theorem witness_NetworkRecurrence :
    let X : Nat → Word := fun i => [0x01234567, 0x89ABCDEF, 0xFEDCBA98, 0x76543210, 0x27FAD345].getD i 0
    (0x0123456789ABCDEFFEDCBA9876543210 : Block) = X 0 ++ X 1 ++ X 2 ++ X 3 ∧
      ∀ i, i < [(0xF12186F9 : Word)].length →
        X (i + 4) = X i ^^^ roundT (X (i + 1) ^^^ X (i + 2) ^^^ X (i + 3) ^^^ [(0xF12186F9 : Word)].getD i 0) := by
  decide +kernel

theorem witness_BytesMaskAndCounter : (0 : Nat) ≤ 16 ∧ (16 : Nat) ≤ 16 ∧ (0 : Nat) < 16 ∧ (15 : Nat) < 16 := by decide

theorem witness_PlaintextBufferIsAnArray :
    Pbuf.wf [(0, 7), (3, 9)] = true ∧ Pbuf.wf (Pbuf.put [(3, 9)] 0 7) = true ∧
      ∀ k, Pbuf.get [(0, 7), (3, 9)] k = Pbuf.get (Pbuf.put [(3, 9)] 0 7) k := ⟨rfl, rfl, fun _ => rfl⟩

theorem witness_KeyExpandCommand : base.cfg.keyLen = 16 ∧ (base.cfg.write 0x100C0F00).keyLen ≠ 16 := by decide

theorem witness_BlockCommands : keyed.status.keyValid = true ∧ base.status.keyValid = false := by decide

theorem witness_BatchCommands : keyed.status.keyValid = true ∧ base.status.keyValid = false := by decide

theorem witness_BlockDecUndoesBlockEnc : keyed.status.keyValid = true := by decide

theorem witness_GhashInitAndSeth :
    ¬inMsg (msg .idle) ∧ ¬inMsg (msg .failed) ∧ inMsg (msg .encAad) ∧ inMsg (msg .decData) := by
  unfold inMsg; decide

theorem witness_GhashUpdateAndDerive :
    (¬inMsg (msg .idle) ∧ (msg .idle).status.hValid = true) ∧ inMsg (msg .encData) ∧
      (¬inMsg base ∧ base.status.hValid = false) ∧ (keyed.status.keyValid = true ∧ ¬inMsg keyed) ∧
      base.status.keyValid = false ∧ ((msg .decAad).status.keyValid = true ∧ inMsg (msg .decAad)) := by
  unfold inMsg; decide

theorem witness_AeadInitCommands :
    (keyed.status.keyValid = true ∧ keyed.cfg.nonceLen = 12) ∧ base.status.keyValid = false ∧
      (keyed.cfg.write 0x100B1000).nonceLen ≠ 12 := by decide

theorem witness_AeadAadCommand :
    ((msg .encAad).status.phase = .encAad ∧ (msg .encAad).status.partialChunk = false) ∧
      (msg .decAad).status.phase = .decAad ∧ (0 : BitVec 5).toNat ≤ 16 ∧ ((16 : BitVec 5).toNat ≤ 16 ∧ (16 : BitVec 5) ≠ 0) ∧
      ¬(((msg .encData).status.phase = .encAad ∨ (msg .encData).status.phase = .decAad) ∧
        (msg .encData).status.partialChunk = false) := by decide

theorem witness_AeadEncCommand :
    mayEncrypt (msg .encAad) ∧ mayEncrypt (msg .encData) ∧ ¬mayEncrypt (msg .decData) ∧ (16 : BitVec 5).toNat ≤ 16 ∧
      (16 : BitVec 5) ≠ 0 := by unfold mayEncrypt; decide

theorem witness_AeadEnc4Command : mayEncrypt (msg .encData) ∧ ¬mayEncrypt (msg .encDone) := by unfold mayEncrypt; decide

/-- After a partial AAD chunk, and with data absorbed. -/
theorem witness_Enc4EqualsFourEnc : mayEncrypt (inPhase (msg .encAad) .encAad true) ∧ mayEncrypt (msg .encData) := by
  unfold mayEncrypt; decide

/-- PBUF with room for one block, for none, and full. -/
theorem witness_AeadDecCommand :
    (mayDecrypt (msg .decData) ∧ ({ msg .decData with pbCount := 3 } : State).pbCount.toNat < (msg .decData).pbufBlocks.toNat) ∧
      (mayDecrypt (msg .decAad) ∧ ({ msg .decAad with pbCount := 4 } : State).pbCount.toNat ≤ (msg .decAad).pbufBlocks.toNat) ∧
      (msg .decData).pbufBlocks.toNat < ({ msg .decData with pbCount := 4 } : State).pbCount.toNat + 1 ∧
      ¬mayDecrypt (msg .encData) := by unfold mayDecrypt; decide

theorem witness_AeadDec4Command :
    (mayDecrypt (msg .decData) ∧ (msg .decData).pbCount.toNat + 4 ≤ (msg .decData).pbufBlocks.toNat) ∧
      (msg .decData).pbufBlocks.toNat < ({ msg .decData with pbCount := 1 } : State).pbCount.toNat + 4 ∧
      ¬mayDecrypt (msg .decVerified) := by unfold mayDecrypt; decide

/-- V19's empty message: its tag over all bytes verifies, TAGIN = 0 does not. -/
theorem witness_AeadFinalCommand :
    (msg .encAad).status.phase = .encAad ∧
      ((msg .decAad).status.phase = .decAad ∧
        maskNb (encryptBlock rk8 (msg .decAad).j0 ^^^ gfMul (0 ^^^ (0#64 ++ 0#64)) (msg .decAad).h) 16 =
          maskNb 0x54F157AF32744BB83BBE8AA6F1578B71 16 ∧
        maskNb (encryptBlock rk8 (msg .decAad).j0 ^^^ gfMul (0 ^^^ (0#64 ++ 0#64)) (msg .decAad).h) 16 ≠ maskNb 0 16) ∧
      ¬inMsg (msg .encDone) := by unfold inMsg; decide +kernel

theorem witness_AeadPtReadCommand :
    ((msg .decVerified).status.phase = .decVerified ∧
        ({ msg .decVerified with pbCount := 1 } : State).pbRdptr.toNat <
          ({ msg .decVerified with pbCount := 1 } : State).pbCount.toNat) ∧
      (msg .failed).status.phase ≠ .decVerified ∧ (msg .decVerified).pbCount.toNat ≤ (msg .decVerified).pbRdptr.toNat := by
  decide

theorem witness_PhaseTable :
    after (·.status.err) (exec .aeadAbort (msg .encData)) = some 0 ∧ phaseAfter .aeadFinal .idle false = none ∧
      phaseAfter (.aeadAad 1) .encAad true = none ∧ phaseAfter .aeadDec4 .decData true = none := by decide

/-- A state with everything in use: a verified message with a block left to read. -/
def verifiedState : State := { msg .decVerified with
  pbuf := [(0, 7)]
  pbCount := 1
  status := { (msg .decVerified).status with authOk := true } }

theorem witness_StepKeepsTheInvariants : verifiedState.Inv :=
  { messageHasKeys := fun h => absurd h (by decide)
    partialInMessage := fun h => absurd h (by decide)
    authOkIffVerified := by decide
    readWithinCount := by decide
    countWithinCapacity := by decide
    plaintextOnlyInDecryption := fun _ => .inr rfl
    busyNotDone := fun h => absurd h (by decide)
    counterKeepsNonce := fun h => absurd h (by decide) }

/-- In a message, where every clause speaks. -/
theorem witness_StepKeepsLegalValues : (msg .decAad).Legal :=
  { cmdIsPending := fun _ h => nomatch h
    tagLenLegal := by decide
    latchedTagLenLegal := by decide
    capacityLegal := by decide
    errLegal := ⟨.ok, rfl⟩
    pbufCanonical := rfl
    pbufBelowCount := fun _ _ => rfl
    keyIsSchedule := fun _ => ⟨key8, by decide +kernel⟩
    messageSubkey := fun _ => by decide +kernel
    messageJ0 := fun _ => by decide }

theorem witness_StepsGoOn :
    (sched (msg .decAad) [.read ⟨4, 0x004⟩]).Legal ∧
      (∀ a v rest, (sched (msg .decAad) [.read ⟨4, 0x004⟩]).host.schedule = .read a :: rest ∨
        (sched (msg .decAad) [.read ⟨4, 0x004⟩]).host.schedule = .write a v :: rest → admitted a) ∧
      ∀ a rest, (sched (msg .decAad) [.read ⟨4, 0x004⟩]).host.schedule ≠ .accessInReset a :: rest := by
  refine ⟨?_, fun a v rest h => ?_, fun a rest h => nomatch h⟩
  · obtain ⟨h1, h2, h3, h4, h5, h6, h7, h8, h9, h10⟩ := witness_StepKeepsLegalValues
    exact ⟨h1, h2, h3, h4, h5, h6, h7, h8, h9, h10⟩
  · rcases h with h | h
    · injection h with h _; injection h with h; subst h; exact admitted_of (by decide)
    · nomatch h

theorem witness_WritersOfTheState :
    after (·.key) (exec .nop keyed) = some keyed.key ∧ (Instr.blockEnc ∉ [.ctxClear, .keyExpand]) := by decide

/-- The empty message of V19 with its tag, about to be verified. -/
def aboutToVerify : State := { msg .decAad with
  tagin := group 0x54F157AF32744BB83BBE8AA6F1578B71
  pending := some 0x35
  cmd := 0x35 }

theorem witness_OnlyAnEqualTagVerifies :
    after (·.status.phase) (step aboutToVerify) = some .decVerified ∧ aboutToVerify.status.phase ≠ .decVerified := by
  decide +kernel

/-- An exit that discards: AEAD_ABORT in DEC_DATA. -/
theorem witness_FailClosed :
    after (·.status.phase) (step { msg .decData with pending := some 0x37, pbuf := [(0, 7)], pbCount := 1 }) = some .idle ∧
      (msg .decData).status.phase = .decData := by decide

theorem witness_UnverifiedPlaintextHasNoInfluence :
    (msg .decData).status.phase ≠ .decVerified ∧ after (·.pbuf) (step { msg .decData with pbuf := [(0, 7)] }) = some [(0, 7)] ∧
      step (sched (msg .decData) [.read ⟨1, 0⟩]) = .refused .accessWidth ∧
      step { msg .decData with status := { (msg .decData).status with err := 5 } } = .fault .internalInvariant :=
  ⟨by decide, by decide, rfl, rfl⟩

theorem witness_Mirror : Mirror (msg .encAad) (msg .decAad) ∧ Mirror (msg .encData) (msg .decData) :=
  ⟨⟨.inl ⟨rfl, rfl⟩, rfl, rfl, rfl, rfl, rfl, rfl, rfl, rfl, rfl⟩, ⟨.inr ⟨rfl, rfl⟩, rfl, rfl, rfl, rfl, rfl, rfl, rfl, rfl, rfl⟩⟩

theorem witness_RoundTripOfAChunk :
    Mirror (msg .encAad) (msg .decAad) ∧ (16 : BitVec 5).toNat ≤ 16 ∧ (16 : BitVec 5) ≠ 0 ∧ mayEncrypt (msg .encAad) ∧
      (msg .decAad).pbCount.toNat < (msg .decAad).pbufBlocks.toNat :=
  ⟨witness_Mirror.1, by decide, by decide, .inl rfl, by decide⟩

theorem witness_RoundTripOfTheTag :
    Mirror (msg .encAad) (msg .decAad) ∧ (msg .encAad).status.phase = .encAad ∧ (msg .encAad).status.partialChunk = false ∧
      din (msg .decAad) 0 = din (msg .encAad) 0 := ⟨witness_Mirror.1, rfl, rfl, rfl⟩

end Sys2Proof.Tests
end

section
/-!
PROOFS. Bytes, words, the partial-block mask and the counter increment (spec/00_scope.md R8, R9; spec/44_aead.md R181).
-/

namespace Sys2Proof.Machine

/-! ### Words and bytes of a block -/

/-- R8: neighbouring slices of a block join to the slice that spans them, so the four words join to the whole block. -/
theorem unwords_wordOf (b : Block) : unwords (wordOf b 0) (wordOf b 1) (wordOf b 2) (wordOf b 3) = b := by
  have h01 : wordOf b 0 ++ wordOf b 1 = b.extractLsb' 64 64 := BitVec.extractLsb'_append_extractLsb'_eq_extractLsb' rfl
  have h012 : b.extractLsb' 64 64 ++ wordOf b 2 = b.extractLsb' 32 96 :=
    BitVec.extractLsb'_append_extractLsb'_eq_extractLsb' rfl
  have h0123 : b.extractLsb' 32 96 ++ wordOf b 3 = b.extractLsb' 0 128 :=
    BitVec.extractLsb'_append_extractLsb'_eq_extractLsb' rfl
  rw [unwords, h01, h012, h0123, BitVec.extractLsb'_eq_self]

/-- R8: word `i` holds bytes 4i to 4i + 3, the first at the top. -/
theorem byteOf_eq_extract_wordOf (b : Block) (i j : Fin 4) :
    byteOf b (4 * i.val + j.val) = (wordOf b i).extractLsb' (24 - 8 * j.val) 8 := by
  have hpos : 120 - 8 * (4 * i.val + j.val) = 96 - 32 * i.val + (24 - 8 * j.val) := by omega
  rw [byteOf, wordOf, hpos]
  ext k hk
  have hin : 24 - 8 * j.val + k < 32 := by omega
  simp [hin, Nat.add_assoc]

theorem byteOf_and (a b : Block) (i : Nat) : byteOf (a &&& b) i = byteOf a i &&& byteOf b i :=
  BitVec.extractLsb'_and

/-! ### mask_nb -/

/-- The branch of `maskNb` for 0 bytes is no exception: there the mask is shifted out of the block. -/
theorem maskNb_eq_and (b : Block) (nb : Nat) :
    maskNb b nb = b &&& (BitVec.allOnes 128 <<< (8 * (16 - nb))) := by
  unfold maskNb
  split
  case isTrue h => subst h; simp
  case isFalse => rfl

/-- Byte `i` of the mask is below the shift, and so 0, exactly when `nb ≤ i`. -/
theorem byteOf_allOnes_shiftLeft {nb i : Nat} (hi : i < 16) :
    byteOf (BitVec.allOnes 128 <<< (8 * (16 - nb))) i = if i < nb then BitVec.allOnes 8 else 0 := by
  ext k hk
  by_cases h : i < nb
  · have habove : ¬120 - 8 * i + k < 8 * (16 - nb) := by omega
    have hin : 120 - 8 * i + k < 128 := by omega
    simp [-BitVec.reduceAllOnes, byteOf, h, habove, hin]
  · have hbelow : 120 - 8 * i + k < 8 * (16 - nb) := by omega
    simp [byteOf, h, hbelow]

/-- R9, byte by byte. A length over 16 keeps every byte here too. -/
theorem byteOf_maskNb (b : Block) (nb : Nat) {i : Nat} (hi : i < 16) :
    byteOf (maskNb b nb) i = if i < nb then byteOf b i else 0 := by
  rw [maskNb_eq_and, byteOf_and, byteOf_allOnes_shiftLeft hi]
  split
  · exact BitVec.and_allOnes
  · exact BitVec.and_zero

/-! ### inc32 -/

/-- R181: the nonce portion stays. -/
@[simp] theorem inc32_high (c : Block) : (inc32 c).extractLsb' 32 96 = c.extractLsb' 32 96 :=
  BitVec.extractLsb'_append_eq_left

/-- R181: the low word counts. -/
@[simp] theorem inc32_low (c : Block) : (inc32 c).extractLsb' 0 32 = c.extractLsb' 0 32 + 1#32 :=
  BitVec.extractLsb'_append_eq_right

theorem toNat_inc32_low (c : Block) :
    ((inc32 c).extractLsb' 0 32).toNat = ((c.extractLsb' 0 32).toNat + 1) % 2 ^ 32 := by
  rw [inc32_low, BitVec.toNat_add]
  rfl

/-- Settles O30: the slices of a block for its words and bytes, the mask byte by byte, and the two halves of inc32. -/
theorem bytesMaskAndCounter : Obligations.BytesMaskAndCounter :=
  ⟨unwords_wordOf, byteOf_eq_extract_wordOf, fun b nb _ _ hi => byteOf_maskNb b nb hi,
    fun c => ⟨inc32_high c, toNat_inc32_low c⟩⟩

end Sys2Proof.Machine
end

section
/-!
PROOFS. The plaintext buffer as an array (spec/10_state.md R56) in the canonical form of log 8.
-/

namespace Sys2Proof.Machine

/-- An index below every listed one is not listed, so it holds 0. -/
theorem Pbuf.get_eq_zero_of_lt_head {m : Pbuf} {k : Nat} (hw : Pbuf.wf m = true) (hk : ∀ e ∈ m.head?, k < e.1) :
    Pbuf.get m k = 0 := by
  induction m with
  | nil => rfl
  | cons a m ih =>
    obtain ⟨j, v⟩ := a
    obtain ⟨-, hhead, hm⟩ := Pbuf.wf_cons.mp hw
    have hkj : k < j := hk (j, v) rfl
    rw [Pbuf.get, if_neg (by omega)]
    exact ih hm fun e he => hkj.trans (hhead e he)

/-- Reading after writing, by the three places `put` can write to: before the head, at the head, or further on. -/
theorem Pbuf.get_put {m : Pbuf} (hw : Pbuf.wf m = true) (k j : Nat) (v : Block) :
    Pbuf.get (Pbuf.put m k v) j = if j = k then v else Pbuf.get m j := by
  induction m with
  | nil => by_cases hv : v = 0#128 <;> simp [Pbuf.put, Pbuf.get, hv, eq_comm (a := j)]
  | cons a m ih =>
    obtain ⟨i, u⟩ := a
    obtain ⟨-, hhead, hm⟩ := Pbuf.wf_cons.mp hw
    obtain hki | rfl | hik := Nat.lt_trichotomy k i
    · have hk : Pbuf.get ((i, u) :: m) k = 0 :=
        Pbuf.get_eq_zero_of_lt_head hw fun e he => by cases he; exact hki
      by_cases hv : v = 0#128
      · by_cases hj : j = k <;> simp [Pbuf.put, hki, hv, hj, hk]
      · simp [Pbuf.put, hki, hv, Pbuf.get, eq_comm (a := j)]
    · have hk : Pbuf.get m k = 0 := Pbuf.get_eq_zero_of_lt_head hm hhead
      by_cases hj : j = k
      · by_cases hv : v = 0#128 <;> simp [Pbuf.put, Pbuf.get, hv, hj, hk]
      · by_cases hv : v = 0#128 <;> simp [Pbuf.put, Pbuf.get, hv, hj, Ne.symm hj]
    · rw [Pbuf.put, if_neg (by omega), if_neg (by omega), Pbuf.get, Pbuf.get, ih hm]
      by_cases hj : i = j
      · have hjk : ¬j = k := by omega
        simp [hj, hjk]
      · simp [hj]

/-- A listed index below every index of another buffer tells the two apart: its block is not 0. -/
theorem Pbuf.get_ne_of_lt_head {m n : Pbuf} {j : Nat} {v : Block} (hm : Pbuf.wf ((j, v) :: m) = true)
    (hn : Pbuf.wf n = true) (hj : ∀ e ∈ n.head?, j < e.1) : Pbuf.get ((j, v) :: m) j ≠ Pbuf.get n j := by
  rw [Pbuf.get_eq_zero_of_lt_head hn hj, Pbuf.get, if_pos rfl]
  exact (Pbuf.wf_cons.mp hm).1

/-- Two buffers in canonical form that hold the same blocks start with the same entry, and so do their tails. -/
theorem Pbuf.eq_of_get_eq {m n : Pbuf} (hm : Pbuf.wf m = true) (hn : Pbuf.wf n = true)
    (h : ∀ k, Pbuf.get m k = Pbuf.get n k) : m = n := by
  induction m generalizing n with
  | nil =>
    cases n with
    | nil => rfl
    | cons b n => exact absurd (h b.1).symm (Pbuf.get_ne_of_lt_head hn hm (by simp))
  | cons a m ih =>
    cases n with
    | nil => exact absurd (h a.1) (Pbuf.get_ne_of_lt_head hm hn (by simp))
    | cons b n =>
      obtain ⟨j, v⟩ := a
      obtain ⟨k, u⟩ := b
      obtain ⟨-, hjm, hm'⟩ := Pbuf.wf_cons.mp hm
      obtain ⟨-, hkn, hn'⟩ := Pbuf.wf_cons.mp hn
      obtain hjk | rfl | hkj := Nat.lt_trichotomy j k
      · exact absurd (h j) (Pbuf.get_ne_of_lt_head hm hn fun e he => by cases he; exact hjk)
      · have hv : v = u := by simpa [Pbuf.get] using h j
        have htail : ∀ i, Pbuf.get m i = Pbuf.get n i := fun i => by
          by_cases hi : j = i
          · subst hi
            rw [Pbuf.get_eq_zero_of_lt_head hm' hjm, Pbuf.get_eq_zero_of_lt_head hn' hkn]
          · simpa [Pbuf.get, hi] using h i
        rw [hv, ih hm' hn' htail]
      · exact absurd (h k).symm (Pbuf.get_ne_of_lt_head hn hm fun e he => by cases he; exact hkj)

/-- Settles O31: reading after writing, and equality of buffers that read the same. -/
theorem plaintextBufferIsAnArray : Obligations.PlaintextBufferIsAnArray :=
  ⟨fun _ k j v hw => Pbuf.get_put hw k j v, fun _ _ hm hn h => Pbuf.eq_of_get_eq hm hn h⟩

end Sys2Proof.Machine
end

section
/-!
PROOFS. The buffered plaintext has no influence before verification (spec/44_aead.md R199; spec/10_state.md R56): each
operation on a state with other blocks in PBUF answers as before, but for PBUF's blocks.
-/

namespace Sys2Proof.Machine

/-- The state with other blocks in PBUF. -/
def State.withPbuf (s : State) (p : Pbuf) : State := { s with pbuf := p }

/-- The conditions of the chunk commands do not read PBUF. -/
theorem State.withPbuf_openPlaintext (s : State) (p : Pbuf) :
    (s.withPbuf p).openPlaintext = s.openPlaintext.withPbuf p := by
  unfold State.openPlaintext
  by_cases h : s.status.phase = .encAad <;> simp [h, State.withPbuf]

theorem State.withPbuf_openCiphertext (s : State) (p : Pbuf) :
    (s.withPbuf p).openCiphertext = s.openCiphertext.withPbuf p := by
  unfold State.openCiphertext
  by_cases h : s.status.phase = .decAad <;> simp [h, State.withPbuf]

/-- A write at an offset does not read PBUF. -/
theorem State.withPbuf_writeAt (s : State) (p : Pbuf) (off : Nat) (v : Word) :
    (s.withPbuf p).writeAt off v = (s.writeAt off v).withPbuf p := by
  unfold State.writeAt
  cases regAt off with
  | none => rfl
  | some r => cases r <;> rfl

/-- The same fault or refusal, or next states that differ in PBUF's blocks alone. -/
inductive SameButPbuf : Result → Result → Prop
  | next (t : State) (q : Pbuf) : SameButPbuf (.next t) (.next (t.withPbuf q))
  | fault (f : Fault) : SameButPbuf (.fault f) (.fault f)
  | refused (r : Refusal) : SameButPbuf (.refused r) (.refused r)

namespace SameButPbuf

/-- What the second result is, by what the first one is. -/
theorem answers {r r' : Result} (h : SameButPbuf r r') :
    (∀ t, r = .next t → ∃ q, r' = .next (t.withPbuf q)) ∧ (∀ f, r = .fault f → r' = .fault f) ∧
      (∀ a, r = .refused a → r' = .refused a) := by
  cases h with
  | next t q =>
    refine ⟨fun u hu => ?_, fun _ hf => (nomatch hf), fun _ ha => (nomatch ha)⟩
    rw [← Host.Outcome.next.inj hu]
    exact ⟨q, rfl⟩
  | fault f => exact ⟨fun _ hu => (nomatch hu), fun _ hf => hf, fun _ ha => (nomatch ha)⟩
  | refused a => exact ⟨fun _ hu => (nomatch hu), fun _ hf => (nomatch hf), fun _ ha => ha⟩

variable (s : State) (p : Pbuf)

/-- A choice whose condition does not read PBUF. -/
theorem ite {c : Prop} [Decidable c] {a a' b b' : Result} (hpos : SameButPbuf a a') (hneg : SameButPbuf b b') :
    SameButPbuf (if c then a else b) (if c then a' else b') := by
  split
  · exact hpos
  · exact hneg

theorem raise (e : ErrCode) : SameButPbuf (raise e s) (raise e (s.withPbuf p)) := .next _ _

theorem blockCommand (out : Vector Block 4) :
    SameButPbuf (blockCommand s out) (blockCommand (s.withPbuf p) out) := .ite (.next _ _) (.next _ _)

theorem initMessage (ph : Phase) : SameButPbuf (initMessage ph s) (initMessage ph (s.withPbuf p)) :=
  .ite (.next _ _) (.ite (.next _ _) (.next _ _))

theorem aeadEnc (nb : BitVec 5) : SameButPbuf (execAeadEnc nb s) (execAeadEnc nb (s.withPbuf p)) := by
  unfold execAeadEnc
  rw [State.withPbuf_openPlaintext]
  exact .ite (.next _ _) (.ite (.next _ _) (.ite (.next _ _) (.next _ _)))

theorem aeadEnc4 : SameButPbuf (execAeadEnc4 s) (execAeadEnc4 (s.withPbuf p)) := by
  unfold execAeadEnc4
  rw [State.withPbuf_openPlaintext]
  exact .ite (.next _ _) (.next _ _)

theorem aeadDec (nb : BitVec 5) : SameButPbuf (execAeadDec nb s) (execAeadDec nb (s.withPbuf p)) := by
  unfold execAeadDec
  rw [State.withPbuf_openCiphertext]
  exact .ite (.next _ _) (.ite (.next _ _) (.ite (.next _ _) (.ite (.next _ _) (.next _ _))))

theorem aeadDec4 : SameButPbuf (execAeadDec4 s) (execAeadDec4 (s.withPbuf p)) := by
  unfold execAeadDec4
  rw [State.withPbuf_openCiphertext]
  exact .ite (.next _ _) (.ite (.next _ _) (.next _ _))

theorem aeadFinal : SameButPbuf (execAeadFinal s) (execAeadFinal (s.withPbuf p)) := by
  have hph : (s.withPbuf p).status.phase = s.status.phase := rfl
  unfold execAeadFinal
  rw [hph]
  cases s.status.phase
  case encAad | encData => exact .next _ _
  case decAad | decData => exact .ite (.next _ _) (.next _ _)
  case idle | encDone | decVerified | failed => exact .next _ _

/-- AEAD_PT_READ, the one command that reads a block of PBUF, raises SEQUENCE_ERROR outside DEC_VERIFIED. -/
theorem aeadPtRead (h : s.status.phase ≠ .decVerified) :
    SameButPbuf (execAeadPtRead s) (execAeadPtRead (s.withPbuf p)) := by
  have hnone (u : State) (hu : u.status.phase ≠ .decVerified) : execAeadPtRead u = Machine.raise .sequenceError u := by
    simp [execAeadPtRead, State.hasVerifiedBlock, hu]
  rw [hnone s h, hnone (s.withPbuf p) h]
  exact raise s p _

theorem exec (i : Instr) (h : s.status.phase ≠ .decVerified) : SameButPbuf (exec i s) (exec i (s.withPbuf p)) := by
  cases i with
  | nop | ctxClear | aeadAbort => exact .next _ _
  | keyExpand | ghashInit | ghashSeth => exact .ite (.next _ _) (.next _ _)
  | blockEnc | blockDec | batch4Enc | batch4Dec => exact blockCommand s p _
  | ghashUpdate | hashkeyDerive => exact .ite (.next _ _) (.ite (.next _ _) (.next _ _))
  | aeadInitEnc | aeadInitDec => exact initMessage s p _
  | aeadAad nb => exact .ite (.next _ _) (.ite (.next _ _) (.ite (.next _ _) (.next _ _)))
  | aeadEnc nb => exact aeadEnc s p nb
  | aeadDec nb => exact aeadDec s p nb
  | aeadFinal => exact aeadFinal s p
  | aeadPtRead => exact aeadPtRead s p h
  | aeadEnc4 => exact aeadEnc4 s p
  | aeadDec4 => exact aeadDec4 s p

theorem runWord (w : Word) (h : s.status.phase ≠ .decVerified) :
    SameButPbuf (runWord w s) (runWord w (s.withPbuf p)) := by
  unfold Machine.runWord
  cases decode w with
  | instr i => exact exec s p i h
  | illegal r => exact raise s p _

theorem readIdle (off : Nat) : SameButPbuf (readIdle off s) (readIdle off (s.withPbuf p)) := by
  have herr : (s.withPbuf p).status.err = s.status.err := rfl
  unfold Machine.readIdle
  rw [herr]
  cases if regAt off = some .status then reportedFault s.status.err else none with
  | some f => exact .fault f
  | none => exact .next _ _

theorem readBusy (off : Nat) (w : Word) : SameButPbuf (readBusy off w s) (readBusy off w (s.withPbuf p)) := by
  unfold Machine.readBusy
  split <;> exact .next _ _

theorem hostRead (a : Access) : SameButPbuf (hostRead a s) (hostRead a (s.withPbuf p)) := by
  have hpend : (s.withPbuf p).pending = s.pending := rfl
  unfold Machine.hostRead
  rw [hpend]
  cases a.refusal? with
  | some r => exact .refused r
  | none =>
    cases s.pending with
    | some w => exact readBusy s p a.off w
    | none => exact readIdle s p a.off

theorem hostWrite (a : Access) (v : Word) : SameButPbuf (hostWrite a v s) (hostWrite a v (s.withPbuf p)) := by
  unfold Machine.hostWrite
  rw [State.withPbuf_writeAt]
  cases a.refusal? with
  | some r => exact .refused r
  | none => exact .ite (.next _ _) (.next _ _)

theorem coreTurn (h : s.status.phase ≠ .decVerified) : SameButPbuf (coreTurn s) (coreTurn (s.withPbuf p)) := by
  have hpend : (s.withPbuf p).pending = s.pending := rfl
  unfold Machine.coreTurn
  rw [hpend]
  cases s.pending with
  | some w => exact runWord s p w h
  | none => exact .next _ _

theorem runEvent (e : Event) (h : s.status.phase ≠ .decVerified) :
    SameButPbuf (runEvent e s) (runEvent e (s.withPbuf p)) := by
  cases e with
  | coreTurn => exact coreTurn s p h
  | read a => exact hostRead s p a
  | write a v => exact hostWrite s p a v
  | reset => exact .next _ _
  | accessInReset a => exact .refused _

theorem afterSchedule (h : s.status.phase ≠ .decVerified) :
    SameButPbuf (afterSchedule s) (afterSchedule (s.withPbuf p)) := by
  have hpend : (s.withPbuf p).pending = s.pending := rfl
  have herr : (s.withPbuf p).status.err = s.status.err := rfl
  unfold Machine.afterSchedule
  rw [hpend, herr]
  cases s.pending with
  | some w => exact runWord s p w h
  | none =>
    cases reportedFault s.status.err with
    | some f => exact .fault f
    | none => exact .next _ _

theorem step (h : s.status.phase ≠ .decVerified) : SameButPbuf (step s) (step (s.withPbuf p)) := by
  have hsched : (s.withPbuf p).host.schedule = s.host.schedule := rfl
  unfold Machine.step runNext
  rw [hsched]
  cases s.host.schedule with
  | nil => exact afterSchedule s p h
  | cons e rest => exact runEvent (s.withSchedule rest) p e h

end SameButPbuf

/-- Settles O58, as the relation of the two states' steps says for each of the three answers. -/
theorem unverifiedPlaintextHasNoInfluence : Obligations.UnverifiedPlaintextHasNoInfluence :=
  fun s p h => (SameButPbuf.step s p h).answers

end Sys2Proof.Machine
end

section
/-!
PROOFS. What a command leaves, said once of the four ways it can end, and which commands write which part of the state
(spec/10_state.md R37 to R56).
-/

namespace Sys2Proof.Machine

/-- How a command ends: with an error that changes nothing else, with one of the two errors that close the message, or
with its effect. -/
theorem exec_cases {i : Instr} {s t : State} (h : exec i s = .next t) :
    (∃ e, t = s.complete e) ∨
      (((∃ nb, i = .aeadDec nb) ∨ i = .aeadDec4) ∧ t = s.failMessage.complete .bufferTooSmall) ∨
      (i = .aeadFinal ∧ t = s.closeHash.failMessage.complete .authenticationFailure) ∨
      (completes i s = true ∧ t = (effect i s).complete .ok) := by
  cases hc : completes i s with
  | true =>
    rw [exec_of_completes hc] at h
    exact .inr (.inr (.inr ⟨rfl, (Host.Outcome.next.inj h).symm⟩))
  | false =>
    obtain ⟨e, -, -, -, he⟩ | ⟨hi, -, he⟩ | ⟨hi, -, -, he⟩ := exec_of_not_completes hc <;> rw [he] at h
    · exact .inl ⟨e, (Host.Outcome.next.inj h).symm⟩
    · exact .inr (.inl ⟨hi, (Host.Outcome.next.inj h).symm⟩)
    · exact .inr (.inr (.inl ⟨hi, (Host.Outcome.next.inj h).symm⟩))

/-- A write of DOUT's lane 0 leaves the other lanes. -/
@[simp] theorem getElem_set_lane_zero {v : Vector Block 4} {b : Block} {l : Fin 4} (hl : ¬l = 0) :
    (v.set 0 b)[l.val] = v[l.val] :=
  Vector.getElem_set_ne _ _ fun h => hl (Fin.ext h.symm)

/-- Settles O55: an error of its own writes no field named, a fail-closed error and an effect only those of its command. -/
theorem writersOfTheState : Obligations.WritersOfTheState := by
  intro i s t h
  obtain ⟨e, rfl⟩ | ⟨⟨nb, rfl⟩ | rfl, rfl⟩ | ⟨rfl, rfl⟩ | ⟨-, rfl⟩ := exec_cases h
  · simp
  · simp
  · simp
  · simp
  · cases i with
    | aeadAad nb | aeadEnc nb | aeadDec nb => by_cases hn : nb = 0#5 <;> simp +contextual [effect, hn]
    | aeadFinal => cases hp : s.status.phase <;> simp +contextual [effect, hp]
    | _ => simp +contextual [effect]

end Sys2Proof.Machine
end

section
/-!
PROOFS. Every step keeps the legal values (`State.Legal`): one rule for each kind of update, then the commands' effects and the
host's accesses as compositions of these.
-/

namespace Sys2Proof.Machine

/-- PB_COUNT below the capacity does not wrap. -/
theorem toNat_pbCount_succ {s : State} (h : s.pbCount.toNat < s.pbufBlocks.toNat) :
    (s.pbCount + 1).toNat = s.pbCount.toNat + 1 := BitVec.toNat_add_of_lt (by simp; omega)

@[simp] theorem State.openCiphertext_pbufHasRoom (s : State) (n : Nat) :
    s.openCiphertext.pbufHasRoom n = s.pbufHasRoom n := by
  simp [State.pbufHasRoom]

namespace State.Legal

/-! ### The rules, one for each kind of update -/

/-- The tag length at reset. -/
theorem sixteen_legal : 1 ≤ (16 : BitVec 5).toNat ∧ (16 : BitVec 5).toNat ≤ 16 := by decide

variable {s : State} (hs : s.Legal)

include hs

/-- `State.Legal` does not speak of the staging registers, DOUT, the running hash and counters, TAGV, PB_RDPTR, the host's side,
or the flags DONE, OVR, H_VALID, AUTH_OK, PARTIAL and CTX_STRATEGY: whatever they become, the values stay legal. -/
theorem write_unconstrained (key : Vector Word 4) (nonce : Vector Word 3) (tagin hkeyin : Vector Word 4)
    (din : Vector (Vector Word 4) 4) (dout : Vector Block 4) (x ctr tagv : Block) (aadlen ctlen : BitVec 64)
    (rdptr : BitVec 16) (host : HostSide) (done ovr hValid authOk partialChunk : Bool) (strategy : Strategy) :
    State.Legal { s with
      key := key, nonce := nonce, tagin := tagin, hkeyin := hkeyin, din := din, dout := dout, x := x, ctr := ctr,
      tagv := tagv, aadlen := aadlen, ctlen := ctlen, pbRdptr := rdptr, host := host,
      status := { s.status with
        done := done, ovr := ovr, hValid := hValid, authOk := authOk, partialChunk := partialChunk,
        ctxStrategy := strategy } } :=
  { hs with }

theorem complete (e : ErrCode) : (s.complete e).Legal :=
  { hs with
    cmdIsPending := nofun
    errLegal := ⟨e, rfl⟩ }

theorem issue (w : Word) : (s.issue w).Legal :=
  { hs with
    cmdIsPending := fun _ hw => Option.some.inj hw }

/-- R31: an illegal TAGLEN is not stored. -/
theorem writeCfg (v : Word) : State.Legal { s with cfg := s.cfg.write v } :=
  { hs with
    tagLenLegal := by
      unfold Cfg.write
      split
      case isTrue hv => exact hv
      case isFalse => exact hs.tagLenLegal }

/-- The phase moves within a message, or to one outside it. -/
theorem toPhase {p : Phase} (hp : p.inMessage = true → s.status.phase.inMessage = true) :
    State.Legal { s with status := { s.status with phase := p } } :=
  { hs with
    messageSubkey := fun h => hs.messageSubkey (hp h)
    messageJ0 := fun h => hs.messageJ0 (hp h) }

theorem zeroPbuf : s.zeroPbuf.Legal :=
  { hs with
    pbufCanonical := rfl
    pbufBelowCount := fun _ _ => rfl }

/-- R190: a block is appended below the capacity, so PB_COUNT does not wrap. -/
theorem pushPlain (hroom : s.pbCount.toNat < s.pbufBlocks.toNat) (b : Block) : (s.pushPlain b).Legal :=
  { hs with
    pbufCanonical := Pbuf.put_wf _ _ hs.pbufCanonical
    pbufBelowCount := fun k hk => by
      rw [State.pushPlain_pbCount, toNat_pbCount_succ hroom] at hk
      rw [State.pushPlain_pbuf, Pbuf.get_put hs.pbufCanonical, if_neg (by omega)]
      exact hs.pbufBelowCount k (by omega) }

/-- R167, R168: H is loaded outside a message only. -/
theorem loadH (hp : s.status.phase.inMessage = false) (b : Block) : (s.loadH b).Legal :=
  { hs with
    messageSubkey := fun h => absurd (hp.symm.trans h) (by decide) }

/-- R134. -/
theorem loadKey : s.loadKey.Legal :=
  { hs.zeroPbuf with
    keyIsSchedule := fun _ => ⟨s.key, rfl⟩
    messageSubkey := nofun
    messageJ0 := nofun }

/-- R221. -/
theorem clearContext : s.clearContext.Legal :=
  { hs.zeroPbuf with
    latchedTagLenLegal := sixteen_legal
    keyIsSchedule := nofun
    messageSubkey := nofun
    messageJ0 := nofun }

/-- R184: H = E(0), and J0 ends in the word 1. -/
theorem startMessage (p : Phase) : (s.startMessage p).Legal :=
  { hs.zeroPbuf with
    latchedTagLenLegal := hs.tagLenLegal
    messageSubkey := fun _ => rfl
    messageJ0 := fun _ => BitVec.extractLsb'_append_eq_right }

theorem resetCore : s.resetCore.Legal where
  cmdIsPending := nofun
  tagLenLegal := sixteen_legal
  latchedTagLenLegal := sixteen_legal
  capacityLegal := hs.capacityLegal
  errLegal := ⟨.ok, rfl⟩
  pbufCanonical := rfl
  pbufBelowCount := fun _ _ => rfl
  keyIsSchedule := nofun
  messageSubkey := nofun
  messageJ0 := nofun

/-! ### The effects of the commands -/

theorem openPlaintext : s.openPlaintext.Legal := by
  unfold State.openPlaintext
  split
  case isTrue hp => exact (hs.toPhase (p := .encData) fun _ => by rw [hp]; rfl).write_unconstrained ..
  case isFalse => exact hs

theorem openCiphertext : s.openCiphertext.Legal := by
  unfold State.openCiphertext
  split
  case isTrue hp => exact (hs.toPhase (p := .decData) fun _ => by rw [hp]; rfl).write_unconstrained ..
  case isFalse => exact hs

theorem encryptLane (l : Fin 4) : (s.encryptLane l).Legal := hs.write_unconstrained ..

theorem decryptChunk (hroom : s.pbufHasRoom 1 = true) (nb : BitVec 5) : (s.decryptChunk nb).Legal :=
  (hs.pushPlain (of_decide_eq_true hroom) _).write_unconstrained ..

/-- R191: a block of AEAD_DEC4 uses up one place of PBUF. -/
theorem decryptLane {n : Nat} (hroom : s.pbufHasRoom (n + 1) = true) (l : Fin 4) :
    (s.decryptLane l).Legal ∧ (s.decryptLane l).pbufHasRoom n = true := by
  have hle : s.pbCount.toNat + (n + 1) ≤ s.pbufBlocks.toNat := of_decide_eq_true hroom
  refine ⟨(hs.pushPlain (by omega) _).write_unconstrained .., decide_eq_true ?_⟩
  rw [State.decryptLane_pbCount, State.decryptLane_pbufBlocks, toNat_pbCount_succ (by omega)]
  omega

theorem decryptLanes (hroom : s.pbufHasRoom 4 = true) :
    ((((s.decryptLane 0).decryptLane 1).decryptLane 2).decryptLane 3).Legal := by
  obtain ⟨h0, hroom⟩ := hs.decryptLane hroom 0
  obtain ⟨h1, hroom⟩ := h0.decryptLane hroom 1
  obtain ⟨h2, hroom⟩ := h1.decryptLane hroom 2
  exact (h2.decryptLane hroom 3).1

/-- R190 to R192: the message is given up. -/
theorem failMessage : s.failMessage.Legal := (hs.zeroPbuf.toPhase (p := .failed) nofun).write_unconstrained ..

theorem effect {i : Instr} (hc : completes i s = true) : (effect i s).Legal := by
  cases i with
  | nop => exact hs
  | keyExpand => exact hs.loadKey
  | ctxClear => exact hs.clearContext
  | blockEnc | blockDec | batch4Enc | batch4Dec | ghashInit | ghashUpdate | aeadPtRead =>
    exact hs.write_unconstrained ..
  | ghashSeth => exact hs.loadH (by simpa [completes] using hc) _
  | hashkeyDerive => exact hs.loadH (by simp_all [completes]) _
  | aeadInitEnc | aeadInitDec => exact hs.startMessage _
  | aeadAad nb =>
    simp only [Machine.effect]
    split
    · exact hs
    · exact hs.write_unconstrained ..
  | aeadEnc nb =>
    simp only [Machine.effect]
    split
    · exact hs.openPlaintext
    · exact hs.openPlaintext.write_unconstrained ..
  | aeadDec nb =>
    simp only [Machine.effect]
    split
    · exact hs.openCiphertext
    · exact hs.openCiphertext.decryptChunk (by simp_all [completes]) nb
  | aeadFinal =>
    simp only [Machine.effect]
    split
    · exact (hs.toPhase (p := .encDone) nofun).write_unconstrained ..
    · exact (hs.toPhase (p := .encDone) nofun).write_unconstrained ..
    · exact (hs.toPhase (p := .decVerified) nofun).write_unconstrained ..
    · exact (hs.toPhase (p := .decVerified) nofun).write_unconstrained ..
    all_goals exact hs
  | aeadAbort => exact (hs.zeroPbuf.toPhase (p := .idle) nofun).write_unconstrained ..
  | aeadEnc4 => exact (((hs.openPlaintext.encryptLane 0).encryptLane 1).encryptLane 2).encryptLane 3
  | aeadDec4 => exact hs.openCiphertext.decryptLanes (by simp_all [completes])

/-! ### Commands, host accesses, steps -/

theorem exec {i : Instr} {t : State} (h : exec i s = .next t) : t.Legal := by
  obtain ⟨e, rfl⟩ | ⟨-, rfl⟩ | ⟨-, rfl⟩ | ⟨hc, rfl⟩ := exec_cases h
  · exact hs.complete e
  · exact hs.failMessage.complete _
  · exact (hs.write_unconstrained .. : s.closeHash.Legal).failMessage.complete _
  · exact (hs.effect hc).complete _

theorem runWord {w : Word} {t : State} (h : runWord w s = .next t) : t.Legal := by
  obtain ⟨i, -, hi⟩ | ⟨r, -, rfl⟩ := runWord_next h
  · exact hs.exec hi
  · exact hs.complete _

theorem writeAt (off : Nat) (v : Word) : (s.writeAt off v).Legal := by
  obtain h | h | h | ⟨key, nonce, tagin, din, hkeyin, h⟩ := writeAt_cases s off v <;> rw [h]
  · exact hs.issue v
  · exact hs.write_unconstrained ..
  · exact hs.writeCfg v
  · exact hs.write_unconstrained ..

theorem advance : s.advance.Legal := hs.write_unconstrained ..

theorem step {t : State} (h : step s = .next t) : t.Legal := by
  obtain ⟨w, -, -, hw⟩ | ⟨-, -, rfl⟩ | ⟨a, rest, v, d, -, rfl⟩ | ⟨a, v, rest, -, ⟨-, rfl⟩ | ⟨-, rfl⟩⟩ | ⟨rest, -, rfl⟩ :=
    step_cases h
  · exact hs.advance.runWord hw
  · exact hs.advance
  · exact hs.write_unconstrained ..
  · exact hs.write_unconstrained ..
  · exact hs.advance.writeAt a.off v
  · exact hs.advance.resetCore

end State.Legal

/-- Settles O53, by the kinds of step: the pending word, an idle turn, a host access, RESET. -/
theorem stepKeepsLegalValues : Obligations.StepKeepsLegalValues := fun _ _ hs h => hs.step h

end Sys2Proof.Machine
end

section
/-!
PROOFS. The word of a well-formed command decodes to it (spec/30_encoding.md R90 to R96), so a placed word runs it.
-/

namespace Sys2Proof.Machine

/-- The fields of a command's word (R90). -/
theorem encode_fields (i : Instr) : Laws.WordFields.Statement i := by
  cases i with
  | aeadAad nb => exact Laws.WordFields.aeadAad nb
  | aeadEnc nb => exact Laws.WordFields.aeadEnc nb
  | aeadDec nb => exact Laws.WordFields.aeadDec nb
  | _ => exact Laws.WordFields.statement_of_holds (by decide)

/-- R96: the decoder's tables, read at a command's own opcode, give the command back. -/
theorem decode_encode {i : Instr} (h : i.wellFormed = true) : decode (encode i) = .instr i := by
  obtain ⟨hop, hnb, hrsv⟩ := encode_fields i
  rw [decode, hop, hnb, hrsv]
  cases i with
  | aeadAad nb | aeadEnc nb | aeadDec nb =>
    have hle : ¬16 < nb.toNat := Nat.not_lt.mpr (of_decide_eq_true h)
    simp [Instr.opcode, Instr.chunk?, chunkCommand?, hle]
  | _ => rfl

/-- Settles O7: the placed word decodes to the command, and the core's turn is next. -/
theorem placedCommandRunsNext : Obligations.PlacedCommandRunsNext := by
  intro s i hi
  have hword : BitVec.ofNat 32 ((encode i).toNat % 2 ^ 32) = encode i := by
    rw [Nat.mod_eq_of_lt (encode i).isLt, BitVec.ofNat_toNat, BitVec.setWidth_eq]
  rw [State.withFetchWord, hword]
  have hstep : step (s.placeCommand (encode i)) = runWord (encode i) (s.placeCommand (encode i)).advance :=
    step_of_pending (.inr ⟨s.host.schedule, rfl⟩) rfl
  rw [hstep, runWord, decode_encode hi]
  rfl

end Sys2Proof.Machine
end

section
/-!
PROOFS. The register window: the offsets of the registers (spec/10_state.md R23), STATUS field by field (R25), and the writes of
CMD, STATUS and CFG (R24, R25, R31).
-/

namespace Sys2Proof.Machine

/-! ### The register map -/

/-- R23: every register stands at its own offset. -/
theorem regAt_offset (r : Reg) : regAt r.offset = some r := by
  cases r with
  | key k | tagin k | hkeyin k | ghash k | tag k | ctr k => revert k; decide
  | nonce k => revert k; decide
  | din l w | dout l w => revert l w; decide
  | cmd | status | cfg | pbufInfo | aadlenHi | aadlenLo | ctlenHi | ctlenLo | caps => rfl

/-- The words of the window, one by one: each holds the register of its offset, or none where R46 reserves it. -/
theorem regAt_word : ∀ n < 256, (∀ r ∈ regAt (4 * n), r.offset = 4 * n) ∧
    (regAt (4 * n) = none ↔ 4 * n = 0x02C ∨ 0x114 ≤ 4 * n) := by
  decide +kernel

theorem regAt_aligned {off : Nat} (hal : off % 4 = 0) (hlt : off < 0x400) :
    (∀ r, regAt off = some r → r.offset = off) ∧ (regAt off = none ↔ off = 0x02C ∨ 0x114 ≤ off) := by
  obtain ⟨n, rfl⟩ := Nat.dvd_of_mod_eq_zero hal
  exact regAt_word n (by omega)

/-- Settles O12: the rows are the registers' own offsets. -/
theorem registerMap : Obligations.RegisterMap :=
  ⟨⟨regAt_offset .cmd, regAt_offset .status, regAt_offset .cfg, regAt_offset .pbufInfo, fun k => regAt_offset (.key k),
      fun k => regAt_offset (.nonce k), fun k => regAt_offset (.tagin k), fun l w => regAt_offset (.din l w),
      fun l w => regAt_offset (.dout l w), fun k => regAt_offset (.hkeyin k), fun k => regAt_offset (.ghash k),
      fun k => regAt_offset (.tag k), regAt_offset .aadlenHi, regAt_offset .aadlenLo, regAt_offset .ctlenHi,
      regAt_offset .ctlenLo, fun k => regAt_offset (.ctr k), regAt_offset .caps⟩,
    regAt_offset, fun _ hal hlt => (regAt_aligned hal hlt).1, fun _ hal hlt => (regAt_aligned hal hlt).2⟩

/-! ### The layout of STATUS -/

/-- R25, with the fields' widths as `++` adds them up. -/
theorem statusWord_eq_cast (s : State) : s.statusWord =
    (0#14 ++ s.status.ctxStrategy.code ++ 0#1 ++ s.status.phase.code ++ bit s.status.partialChunk ++ bit s.status.authOk
      ++ bit s.status.hValid ++ bit s.status.keyValid ++ s.status.err ++ 0#1 ++ bit s.status.ovr ++ bit s.status.done
      ++ bit s.busy).cast rfl := rfl

theorem phaseNumber_eq_code (p : Phase) : Claims.phaseNumber p = p.code := by cases p <;> rfl

theorem strategyNumber_eq_code (c : Strategy) : Claims.strategyNumber c = c.code := by cases c <;> rfl

/-- Settles O13: each field is reached by dropping the ones below it. -/
theorem statusLayout : Obligations.StatusLayout := by
  intro s
  rw [phaseNumber_eq_code, strategyNumber_eq_code, statusWord_eq_cast]
  simp only [BitVec.getLsbD_cast, BitVec.extractLsb'_cast]
  refine ⟨?_, ?_, ?_, ?_, ?err, ?_, ?_, ?_, ?_, ?phase, ?_, ?strategy, ?reserved⟩
  case err | phase | strategy =>
    repeat rw [BitVec.extractLsb'_append_eq_of_le (by decide)]
    exact BitVec.extractLsb'_append_eq_right
  case reserved =>
    repeat rw [BitVec.extractLsb'_append_eq_of_le (by decide)]
    rfl
  all_goals
    simp only [BitVec.getLsbD_append]
    simp [bit]

/-! ### Writes of CMD, STATUS and CFG -/

theorem strategyNumber_ofCode (c : BitVec 2) : Claims.strategyNumber (Strategy.ofCode c) = c := by
  revert c; decide

/-- A write the window admits, while BUSY = 0, stores at its offset. -/
theorem step_write_idle {s : State} {off : Nat} {v : Word} {rest : List Event} (hidle : s.busy = false)
    (hoff : off % 4 = 0 ∧ off < 0x400) (hs : s.host.schedule = .write ⟨4, off⟩ v :: rest) :
    step s = .next ((Claims.moved s).writeAt off v) := by
  have hmoved : s.withSchedule rest = Claims.moved s := by simp [Claims.moved, State.withSchedule, hs]
  have hadm : Access.refusal? ⟨4, off⟩ = none := by simp [Access.refusal?, hoff]
  have hbusy : (Claims.moved s).busy = false := hidle
  simp [step, runNext, hs, runEvent, hmoved, hostWrite, hadm, hbusy]

/-- Settles O18: the three writes of an idle core, at their offsets. -/
theorem cmdStatusAndCfgWrites : Obligations.CmdStatusAndCfgWrites := by
  intro s v rest hidle
  refine ⟨fun hs => ?cmd, fun hs => ?status, fun hs => ⟨s.cfg.write v, ?cfg, ?_⟩⟩
  case cmd => exact step_write_idle hidle (by decide) hs
  case status =>
    rw [step_write_idle hidle (by decide) hs]
    have hovr : (if v.getLsbD 2 = true then false else s.status.ovr) = (s.status.ovr && !v.getLsbD 2) := by
      cases v.getLsbD 2 <;> simp
    rw [← hovr]
    rfl
  case cfg => exact step_write_idle hidle (by decide) hs
  · exact ⟨strategyNumber_ofCode _, rfl, rfl, fun h => if_pos h, fun h => if_neg h⟩

end Sys2Proof.Machine
end

section
/-!
PROOFS. Host accesses (spec/20_memory.md R71 to R76): what a read returns, what a write changes, which accesses are refused. An
aligned offset of the window is a register's own or a reserved one, so each fact about an offset is one about a register.
-/

namespace Sys2Proof.Machine

/-! ### Offsets and registers -/

/-- R23, R46: what stands at an aligned offset of the window. -/
theorem eq_offset_or_reserved {off : Nat} (hal : off % 4 = 0) (hlt : off < 0x400) :
    (∃ r : Reg, off = r.offset) ∨ (off = 0x02C ∨ 0x114 ≤ off) := by
  obtain ⟨hreg, hnone⟩ := regAt_aligned hal hlt
  cases hr : regAt off with
  | some r => exact .inl ⟨r, (hreg r hr).symm⟩
  | none => exact .inr (hnone.mp hr)

/-- R23, R46: no register stands at a reserved offset. -/
theorem offset_not_reserved (r : Reg) : ¬(r.offset = 0x02C ∨ 0x114 ≤ r.offset) := by
  cases r <;> simp only [Reg.offset] <;> omega

theorem regAt_reserved {off : Nat} (hal : off % 4 = 0) (hlt : off < 0x400) (h : off = 0x02C ∨ 0x114 ≤ off) :
    regAt off = none :=
  (regAt_aligned hal hlt).2.mpr h

@[simp] theorem State.valueAt_offset (s : State) (r : Reg) : s.valueAt r.offset = s.regValue r := by
  rw [State.valueAt, regAt_offset]

@[simp] theorem State.writeAt_offset (s : State) (v : Word) (r : Reg) : s.writeAt r.offset v = s.regWrite v r := by
  rw [State.writeAt, regAt_offset]

theorem State.valueAt_of_regAt_none {s : State} {off : Nat} (h : regAt off = none) : s.valueAt off = 0 := by
  rw [State.valueAt, h]

theorem State.writeAt_of_regAt_none {s : State} {off : Nat} {v : Word} (h : regAt off = none) : s.writeAt off v = s := by
  rw [State.writeAt, h]

/-- R35, R40, R76: KEY and HKEYIN, at their two ranges of offsets, read 0. -/
theorem regValue_writeOnly {s : State} {r : Reg}
    (h : (0x010 ≤ r.offset ∧ r.offset < 0x020) ∨ (0x0C0 ≤ r.offset ∧ r.offset < 0x0D0)) : s.regValue r = 0 := by
  cases r with
  | key k | hkeyin k => rfl
  | _ => simp only [Reg.offset] at h; omega

/-- R76: the offsets that read 0 in every state. -/
theorem valueAt_writeOnly_or_reserved {s : State} {off : Nat} (hal : off % 4 = 0) (hlt : off < 0x400)
    (h : (0x010 ≤ off ∧ off < 0x020) ∨ (0x0C0 ≤ off ∧ off < 0x0D0) ∨ off = 0x02C ∨ 0x114 ≤ off) : s.valueAt off = 0 := by
  obtain ⟨r, rfl⟩ | hres := eq_offset_or_reserved hal hlt
  · rw [State.valueAt_offset]
    have hreg := offset_not_reserved r
    exact regValue_writeOnly (by omega)
  · exact State.valueAt_of_regAt_none (regAt_reserved hal hlt hres)

/-! ### Reserved bits -/

/-- R31: the mask is 0 over each field, and CFG is 0 between them. -/
theorem cfgWord_and_reserved (c : Cfg) : c.word &&& 0xE0E0E0FC = 0 := by
  have h : (0#3 ++ c.tagLen ++ 0#3 ++ c.nonceLen ++ 0#3 ++ c.keyLen ++ 0#6 ++ c.strategy.code) &&&
      (7#3 ++ 0#5 ++ 7#3 ++ 0#5 ++ 7#3 ++ 0#5 ++ 0x3F#6 ++ 0#2) = 0 := by
    simp only [BitVec.and_append, BitVec.zero_and, BitVec.and_zero]
    rfl
  exact h

/-- R25, likewise. -/
theorem statusWord_and_reserved (s : State) : s.statusWord &&& 0xFFFC8008 = 0 := by
  have h : (0#14 ++ s.status.ctxStrategy.code ++ 0#1 ++ s.status.phase.code ++ bit s.status.partialChunk
        ++ bit s.status.authOk ++ bit s.status.hValid ++ bit s.status.keyValid ++ s.status.err ++ 0#1 ++ bit s.status.ovr
        ++ bit s.status.done ++ bit s.busy) &&&
      (0x3FFF#14 ++ 0#2 ++ 1#1 ++ 0#3 ++ 0#1 ++ 0#1 ++ 0#1 ++ 0#1 ++ 0#4 ++ 1#1 ++ 0#1 ++ 0#1 ++ 0#1) = 0 := by
    simp only [BitVec.and_append, BitVec.zero_and, BitVec.and_zero]
    rfl
  exact h

/-- R47, likewise. -/
theorem capsWord_and_reserved (s : State) : s.capsWord &&& 0xFFFF0000 = 0 := by
  have h : (0#16 ++ s.pbufBlocks) &&& (0xFFFF#16 ++ 0#16) = 0#(16 + 16) := by
    rw [BitVec.and_append, BitVec.zero_and, BitVec.and_zero]
    rfl
  exact h

/-- Settles O15: the offsets that read 0, and the masks of the reserved bits field by field. -/
theorem writeOnlyAndReservedReadZero : Obligations.WriteOnlyAndReservedReadZero := by
  intro s off hal hlt
  refine ⟨valueAt_writeOnly_or_reserved hal hlt, ?cfg, ?status, ?caps⟩
  case cfg => rintro rfl; exact cfgWord_and_reserved s.cfg
  case status => rintro rfl; exact statusWord_and_reserved s
  case caps => rintro rfl; exact capsWord_and_reserved s

/-! ### The step of a host access -/

/-- The next event of the schedule happens on the state with it taken off. -/
theorem step_of_event {s : State} {e : Event} {rest : List Event} (hs : s.host.schedule = e :: rest) :
    step s = runEvent e (Claims.moved s) := by
  have hmoved : s.withSchedule rest = Claims.moved s := by simp [Claims.moved, State.withSchedule, hs]
  simp [step, runNext, hs, hmoved]

/-- R71 to R73: the accesses without a reason to refuse are the admitted ones. -/
theorem refusal_eq_none_iff (a : Access) : a.refusal? = none ↔ Claims.admitted a := by
  unfold Access.refusal? Claims.admitted
  split_ifs <;> simp <;> omega

theorem exists_refusal_of_not_admitted {a : Access} (h : ¬Claims.admitted a) : ∃ r, a.refusal? = some r :=
  Option.ne_none_iff_exists'.mp (mt (refusal_eq_none_iff a).mp h)

/-- Settles O20: a refusal is read off before anything else of the access. -/
theorem otherAccessesAreRefused : Obligations.OtherAccessesAreRefused := by
  intro s a v rest
  refine ⟨fun ha hs => ?access, fun hs => ⟨.accessDuringReset, step_of_event hs⟩⟩
  case access =>
    obtain ⟨r, hr⟩ := exists_refusal_of_not_admitted ha
    obtain hs | hs := hs
    · exact ⟨r, by rw [step_of_event hs, runEvent, hostRead, hr]⟩
    · exact ⟨r, by rw [step_of_event hs, runEvent, hostWrite, hr]⟩

/-- Settles O17: the write is dropped, whatever its offset. -/
theorem writeWhileBusyIsDropped : Obligations.WriteWhileBusyIsDropped := by
  intro s a v rest hs ha hbusy
  have hmoved : (Claims.moved s).busy = true := hbusy
  rw [step_of_event hs, runEvent, hostWrite, (refusal_eq_none_iff a).mpr ha]
  exact if_pos hmoved

/-! ### Reads while BUSY = 1 -/

/-- R75: the last three bits of STATUS are no part of the draw. -/
theorem drawnStatus_bits (draw : Word) (ovr : Bool) :
    (drawnStatus draw ovr).getLsbD 0 = true ∧ (drawnStatus draw ovr).getLsbD 1 = false ∧
      (drawnStatus draw ovr).getLsbD 2 = ovr := by
  simp only [drawnStatus, BitVec.getLsbD_append]
  simp [bit]

/-- R75: a read while BUSY = 1 records a value, which CMD and STATUS restrict, and takes a draw or none. -/
theorem readBusy_next (off : Nat) (w : Word) (s : State) :
    ∃ v d, readBusy off w s = .next { s with host := { s.host with observed := v :: s.host.observed, draws := d } } ∧
      (off = Reg.cmd.offset → v = w) ∧
      (off = Reg.status.offset → v.getLsbD 0 = true ∧ v.getLsbD 1 = false ∧ v.getLsbD 2 = s.status.ovr) := by
  unfold readBusy
  split
  case h_1 hr => exact ⟨w, s.host.draws, rfl, fun _ => rfl, fun h => by subst h; cases hr⟩
  case h_2 hr => exact ⟨_, _, rfl, fun h => (by subst h; cases hr), fun _ => drawnStatus_bits _ _⟩
  case h_3 hcmd hstatus =>
    exact ⟨_, _, rfl, fun h => absurd (h ▸ regAt_offset .cmd) hcmd, fun h => absurd (h ▸ regAt_offset .status) hstatus⟩

/-- Settles O16: the read is admitted and finds a pending word. -/
theorem readWhileBusy : Obligations.ReadWhileBusy := by
  intro s w a rest hs ha hp
  obtain ⟨v, d, hnext, hcmd, hstatus⟩ := readBusy_next a.off w (Claims.moved s)
  have hpend : (Claims.moved s).pending = some w := hp
  refine ⟨v, d, ?_, hcmd, hstatus⟩
  rw [step_of_event hs, runEvent, hostRead, (refusal_eq_none_iff a).mpr ha, hpend]
  exact hnext

/-! ### Reads while BUSY = 0 -/

/-- R230, R238: no code a command writes is reported as a fault. -/
theorem reportedFault_code (e : ErrCode) : reportedFault e.code = none := by
  cases e <;> rfl

/-- R71: the read returns the value at the offset, unless it is STATUS with an ERR no command writes. -/
theorem readIdle_eq {off : Nat} {s : State} (hal : off % 4 = 0) (hlt : off < 0x400)
    (herr : off = Reg.status.offset → ∃ e : ErrCode, s.status.err = e.code) :
    readIdle off s = .next (s.observe (s.valueAt off)) := by
  have hfault : (if regAt off = some .status then reportedFault s.status.err else none) = none := by
    split
    case isTrue hr =>
      obtain ⟨e, he⟩ := herr ((regAt_aligned hal hlt).1 .status hr).symm
      rw [he, reportedFault_code]
    case isFalse => rfl
  rw [readIdle, hfault]

/-- Settles O14: the value at the offset is recorded, and each offset's value is its register's. -/
theorem readWhileIdle : Obligations.ReadWhileIdle := by
  intro s a rest hs ha hp herr
  have ⟨_, hal, hlt⟩ := ha
  have at_reg (r : Reg) (h : a.off = r.offset) : s.valueAt a.off = s.regValue r := by rw [h, State.valueAt_offset]
  have zero := valueAt_writeOnly_or_reserved (s := s) hal hlt
  refine ⟨?step, at_reg .cmd, at_reg .status, ?cfg, at_reg .pbufInfo, fun h => zero (.inl h), fun k => at_reg (.nonce k),
    fun k => at_reg (.tagin k), fun l w => at_reg (.din l w), fun l w => at_reg (.dout l w),
    fun h => zero (.inr (.inl h)), fun k => at_reg (.ghash k), fun k => at_reg (.tag k), at_reg .aadlenHi,
    at_reg .aadlenLo, at_reg .ctlenHi, at_reg .ctlenLo, fun k => at_reg (.ctr k), at_reg .caps,
    fun h => zero (.inr (.inr h))⟩
  case step =>
    have hpend : (Claims.moved s).pending = none := hp
    rw [step_of_event hs, runEvent, hostRead, (refusal_eq_none_iff a).mpr ha, hpend]
    exact readIdle_eq hal hlt herr
  case cfg => rw [strategyNumber_eq_code]; exact at_reg .cfg

/-! ### Writes while BUSY = 0 -/

theorem offset_inj {r q : Reg} : r.offset = q.offset ↔ r = q := by
  refine ⟨fun h => ?_, congrArg _⟩
  have hreg := regAt_offset r
  rw [h, regAt_offset] at hreg
  exact (Option.some.inj hreg).symm

/-- R37: a write of DIN[l][w] leaves every other word of DIN. -/
theorem getElem_set_word (d : Vector (Vector Word 4) 4) (l w m j : Fin 4) (v : Word) :
    (d.set l (d[l].set w v))[m][j] = if l = m ∧ w = j then v else d[m][j] := by
  by_cases hl : l = m
  · subst hl
    simp [Vector.getElem_set, Fin.ext_iff]
  · have hne : l.val ≠ m.val := fun h => hl (Fin.ext h)
    simp [hl, hne]

/-- R72: a write of a register shows at no other one. CMD is apart: its write clears BUSY and DONE in STATUS. -/
theorem regValue_regWrite_of_ne {s : State} {v : Word} {r q : Reg} (hcmd : r ≠ .cmd) (hne : q ≠ r) :
    (s.regWrite v r).regValue q = s.regValue q := by
  cases r with
  | cmd => exact absurd rfl hcmd
  | nonce k =>
    cases q with
    | nonce j => exact Vector.getElem_set_ne k.isLt j.isLt fun h => hne (by rw [Fin.ext h])
    | _ => rfl
  | tagin k =>
    cases q with
    | tagin j => exact Vector.getElem_set_ne k.isLt j.isLt fun h => hne (by rw [Fin.ext h])
    | _ => rfl
  | din l w =>
    cases q with
    | din m j => exact (getElem_set_word s.din l w m j v).trans (if_neg fun ⟨hl, hw⟩ => hne (by rw [hl, hw]))
    | _ => rfl
  | status =>
    cases q with
    | status => exact absurd rfl hne
    | _ => rfl
  | cfg =>
    cases q with
    | cfg => exact absurd rfl hne
    | _ => rfl
  | key | hkeyin => cases q <;> rfl
  | _ => rfl

/-- R72: NONCE, TAGIN and DIN, at their two ranges of offsets, read back what is written. -/
theorem regValue_regWrite_self {s : State} {v : Word} {r : Reg}
    (h : (0x020 ≤ r.offset ∧ r.offset < 0x02C) ∨ (0x030 ≤ r.offset ∧ r.offset < 0x080)) :
    (s.regWrite v r).regValue r = v := by
  cases r with
  | nonce k | tagin k | din l w => simp [State.regWrite, State.regValue]
  | _ => simp only [Reg.offset] at h; omega

theorem regWrite_key (s : State) (v : Word) (r : Reg) (k : Fin 4) :
    (s.regWrite v r).key[k] = if r = .key k then v else s.key[k] := by
  cases r with
  | key j => simp [State.regWrite, Vector.getElem_set, Fin.ext_iff]
  | _ => rfl

theorem regWrite_hkeyin (s : State) (v : Word) (r : Reg) (k : Fin 4) :
    (s.regWrite v r).hkeyin[k] = if r = .hkeyin k then v else s.hkeyin[k] := by
  cases r with
  | hkeyin j => simp [State.regWrite, Vector.getElem_set, Fin.ext_iff]
  | _ => rfl

/-- R72: past CFG, a write of a register that is not a staging register changes nothing. -/
theorem regWrite_readOnly {s : State} {v : Word} {r : Reg}
    (h : r.offset = 0x00C ∨ (0x080 ≤ r.offset ∧ r.offset < 0x0C0) ∨ 0x0D0 ≤ r.offset) : s.regWrite v r = s := by
  cases r with
  | cmd | status | cfg | key | nonce | tagin | din | hkeyin => simp only [Reg.offset] at h; omega
  | _ => rfl

/-- R72: past CFG, a write changes the staging registers only. -/
theorem regWrite_staging {s : State} {v : Word} {r : Reg} (h : 0x00C ≤ r.offset) :
    s.regWrite v r = { s with
      key := (s.regWrite v r).key, nonce := (s.regWrite v r).nonce, tagin := (s.regWrite v r).tagin,
      din := (s.regWrite v r).din, hkeyin := (s.regWrite v r).hkeyin } := by
  cases r with
  | cmd | status | cfg => simp only [Reg.offset] at h; omega
  | _ => rfl

section Offset

/-! The same at an aligned offset of the window, where a reserved one ignores the write. -/

variable {s : State} {off : Nat} {v : Word} (hal : off % 4 = 0) (hlt : off < 0x400)

include hal hlt

theorem valueAt_writeAt_of_ne {off' : Nat} (hpos : 0 < off) (hal' : off' % 4 = 0) (hlt' : off' < 0x400)
    (hne : off' ≠ off) : (s.writeAt off v).valueAt off' = s.valueAt off' := by
  obtain ⟨r, rfl⟩ | hres := eq_offset_or_reserved hal hlt
  · have hcmd : r ≠ .cmd := by rintro rfl; exact absurd hpos (by decide)
    rw [State.writeAt_offset]
    obtain ⟨q, rfl⟩ | hres' := eq_offset_or_reserved hal' hlt'
    · rw [State.valueAt_offset, State.valueAt_offset]
      exact regValue_regWrite_of_ne hcmd fun h => hne (congrArg _ h)
    · have hnone := regAt_reserved hal' hlt' hres'
      rw [State.valueAt_of_regAt_none hnone, State.valueAt_of_regAt_none hnone]
  · rw [State.writeAt_of_regAt_none (regAt_reserved hal hlt hres)]

theorem valueAt_writeAt_self (h : (0x020 ≤ off ∧ off < 0x02C) ∨ (0x030 ≤ off ∧ off < 0x080)) :
    (s.writeAt off v).valueAt off = v := by
  obtain ⟨r, rfl⟩ | hres := eq_offset_or_reserved hal hlt
  · rw [State.writeAt_offset, State.valueAt_offset, regValue_regWrite_self h]
  · omega

theorem writeAt_key (k : Fin 4) : (s.writeAt off v).key[k] = if off = 0x010 + 4 * k.val then v else s.key[k] := by
  obtain ⟨r, rfl⟩ | hres := eq_offset_or_reserved hal hlt
  · rw [State.writeAt_offset, regWrite_key]
    exact if_congr (offset_inj (q := .key k)).symm rfl rfl
  · rw [State.writeAt_of_regAt_none (regAt_reserved hal hlt hres), if_neg (by omega)]

theorem writeAt_hkeyin (k : Fin 4) :
    (s.writeAt off v).hkeyin[k] = if off = 0x0C0 + 4 * k.val then v else s.hkeyin[k] := by
  obtain ⟨r, rfl⟩ | hres := eq_offset_or_reserved hal hlt
  · rw [State.writeAt_offset, regWrite_hkeyin]
    exact if_congr (offset_inj (q := .hkeyin k)).symm rfl rfl
  · rw [State.writeAt_of_regAt_none (regAt_reserved hal hlt hres), if_neg (by omega)]

theorem writeAt_ignored (h : off = 0x00C ∨ off = 0x02C ∨ (0x080 ≤ off ∧ off < 0x0C0) ∨ 0x0D0 ≤ off) :
    s.writeAt off v = s := by
  obtain ⟨r, rfl⟩ | hres := eq_offset_or_reserved hal hlt
  · have hreg := offset_not_reserved r
    rw [State.writeAt_offset, regWrite_readOnly (by omega)]
  · exact State.writeAt_of_regAt_none (regAt_reserved hal hlt hres)

theorem writeAt_staging (h : 0x00C ≤ off) :
    s.writeAt off v = { s with
      key := (s.writeAt off v).key, nonce := (s.writeAt off v).nonce, tagin := (s.writeAt off v).tagin,
      din := (s.writeAt off v).din, hkeyin := (s.writeAt off v).hkeyin } := by
  obtain ⟨r, rfl⟩ | hres := eq_offset_or_reserved hal hlt
  · rw [State.writeAt_offset]
    exact regWrite_staging h
  · rw [State.writeAt_of_regAt_none (regAt_reserved hal hlt hres)]

end Offset

/-- Settles O19: the write at the offset, by what stands there. -/
theorem registerWrites : Obligations.RegisterWrites := by
  intro s a v rest hs ha hidle hoff
  obtain ⟨width, off⟩ := a
  obtain ⟨rfl, hal, hlt⟩ := ha
  refine ⟨(Claims.moved s).writeAt off v, step_write_idle hidle ⟨hal, hlt⟩ hs,
    fun off' hal' hlt' => valueAt_writeAt_of_ne hal hlt (by omega) hal' hlt', valueAt_writeAt_self hal hlt,
    fun _ => writeAt_key hal hlt, ?key, fun _ => writeAt_hkeyin hal hlt, ?hkeyin, writeAt_ignored hal hlt,
    writeAt_staging hal hlt hoff⟩
  case key =>
    intro hout
    ext1 k hk
    exact (writeAt_key hal hlt ⟨k, hk⟩).trans (if_neg (by omega))
  case hkeyin =>
    intro hout
    ext1 k hk
    exact (writeAt_hkeyin hal hlt ⟨k, hk⟩).trans (if_neg (by omega))

end Sys2Proof.Machine
end

section
/-!
PROOFS. Decoding and encoding are inverse to each other, and the words without a command are those R95 lists
(spec/30_encoding.md R90 to R96); the step on such a word (spec/60_exceptions.md R231).
-/

namespace Sys2Proof.Machine

/-! ### The opcode tables -/

/-- R92, R94: a row of the chunk commands holds the opcode and the chunk length it was read at. -/
theorem chunkCommand?_eq_some {op : Byte} {nb : BitVec 5} {i : Instr} (h : chunkCommand? op nb = some i) :
    i.opcode = op ∧ i.chunk? = some nb := by
  unfold chunkCommand? at h
  split at h <;> cases h <;> exact ⟨rfl, rfl⟩

/-- R92, R94: a row of the other commands holds the opcode it was read at, and no chunk length. -/
theorem plainCommand?_eq_some {op : Byte} {i : Instr} (h : plainCommand? op = some i) :
    i.opcode = op ∧ i.chunk? = none := by
  unfold plainCommand? at h
  split at h <;> cases h <;> exact ⟨rfl, rfl⟩

/-- R92: the opcodes without a row in the chunk commands' table. -/
theorem chunkCommand?_eq_none_iff {op : Byte} {nb : BitVec 5} :
    chunkCommand? op nb = none ↔ op.toNat ≠ 0x32 ∧ op.toNat ≠ 0x33 ∧ op.toNat ≠ 0x34 := by
  revert op nb; decide +kernel

/-- R94, R95: the opcodes without a row in the other table are the reserved ones and the chunk commands' own. -/
theorem plainCommand?_eq_none_iff : ∀ {op : Byte}, plainCommand? op = none ↔
    ((0x03 ≤ op.toNat ∧ op.toNat ≤ 0x0F) ∨ (0x14 ≤ op.toNat ∧ op.toNat ≤ 0x1F) ∨ (0x24 ≤ op.toNat ∧ op.toNat ≤ 0x2F) ∨
      0x3A ≤ op.toNat) ∨ op.toNat = 0x32 ∨ op.toNat = 0x33 ∨ op.toNat = 0x34 := by
  decide +kernel

/-! ### Decoding and encoding -/

/-- R90: a word is its three fields. -/
theorem rsvField_append_nbField_append_opField (w : Word) : rsvField w ++ nbField w ++ opField w = w := by
  have hrsv_nb : rsvField w ++ nbField w = w.extractLsb' 8 24 := BitVec.extractLsb'_append_extractLsb'_eq_extractLsb' rfl
  have hall : w.extractLsb' 8 24 ++ opField w = w.extractLsb' 0 32 :=
    BitVec.extractLsb'_append_extractLsb'_eq_extractLsb' rfl
  rw [hrsv_nb, hall, BitVec.extractLsb'_eq_self]

/-- R90: a word with RSV = 0 is the encoding of the command that holds its OP and NB. -/
theorem encode_eq_of_fields {w : Word} {i : Instr} (hrsv : rsvField w = 0) (hnb : i.chunk?.getD 0 = nbField w)
    (hop : i.opcode = opField w) : encode i = w := by
  calc encode i = rsvField w ++ nbField w ++ opField w := by rw [encode, hrsv, ← hnb, hop]; rfl
    _ = w := rsvField_append_nbField_append_opField w

/-! The decoder's branches, one equation each (R96). -/

section Branches

variable {w : Word} {i : Instr}

theorem decode_of_rsvField_ne (hrsv : rsvField w ≠ 0) : decode w = .illegal .reservedBits := if_pos hrsv

theorem decode_of_chunkCommand (hrsv : rsvField w = 0) (hc : chunkCommand? (opField w) (nbField w) = some i) :
    decode w = if 16 < (nbField w).toNat then .illegal .chunkTooLong else .instr i := by
  rw [decode, if_neg (not_not.mpr hrsv), hc]

theorem decode_of_plainCommand (hrsv : rsvField w = 0) (hc : chunkCommand? (opField w) (nbField w) = none)
    (hp : plainCommand? (opField w) = some i) :
    decode w = if nbField w ≠ 0 then .illegal .chunkNotTaken else .instr i := by
  rw [decode, if_neg (not_not.mpr hrsv), hc, hp]

theorem decode_of_no_command (hrsv : rsvField w = 0) (hc : chunkCommand? (opField w) (nbField w) = none)
    (hp : plainCommand? (opField w) = none) : decode w = .illegal .reservedOpcode := by
  rw [decode, if_neg (not_not.mpr hrsv), hc, hp]

end Branches

/-- R96: the two ways a word decodes to a command, by the table that has its row. -/
theorem decode_eq_instr {w : Word} {i : Instr} (h : decode w = .instr i) : rsvField w = 0 ∧
    ((chunkCommand? (opField w) (nbField w) = some i ∧ (nbField w).toNat ≤ 16) ∨
      (plainCommand? (opField w) = some i ∧ nbField w = 0)) := by
  by_cases hrsv : rsvField w = 0
  case neg => simp [decode_of_rsvField_ne hrsv] at h
  case pos =>
    refine ⟨hrsv, ?_⟩
    cases hc : chunkCommand? (opField w) (nbField w) with
    | some j =>
      rw [decode_of_chunkCommand hrsv hc] at h
      split_ifs at h with hle
      cases h
      exact .inl ⟨rfl, not_lt.mp hle⟩
    | none =>
      cases hp : plainCommand? (opField w) with
      | some j =>
        rw [decode_of_plainCommand hrsv hc hp] at h
        split_ifs at h with hnb
        cases h
        exact .inr ⟨rfl, not_not.mp hnb⟩
      | none => simp [decode_of_no_command hrsv hc hp] at h

/-- R93 to R96: the word of a decoded command is its encoding. -/
theorem wellFormed_and_encode_of_decode {w : Word} {i : Instr} (h : decode w = .instr i) :
    i.wellFormed = true ∧ encode i = w := by
  obtain ⟨hrsv, ⟨hc, hle⟩ | ⟨hp, hnb⟩⟩ := decode_eq_instr h
  · obtain ⟨hop, hchunk⟩ := chunkCommand?_eq_some hc
    exact ⟨by simp [Instr.wellFormed, hchunk, hle], encode_eq_of_fields hrsv (by simp [hchunk]) hop⟩
  · obtain ⟨hop, hchunk⟩ := plainCommand?_eq_some hp
    exact ⟨by simp [Instr.wellFormed, hchunk], encode_eq_of_fields hrsv (by simp [hchunk, hnb]) hop⟩

/-- R90 to R96: the word of a command is its encoding, and no other. -/
theorem decode_eq_instr_iff {w : Word} {i : Instr} : decode w = .instr i ↔ i.wellFormed = true ∧ encode i = w :=
  ⟨wellFormed_and_encode_of_decode, fun ⟨hwf, hw⟩ => hw ▸ decode_encode hwf⟩

/-- Settles O2: the command's fields, read back from its word, are the row it stands in. -/
theorem decodeOfEncode : Obligations.DecodeOfEncode := fun _ => decode_encode

/-- Settles O3: the row a word is decoded by holds its OP and NB, and RSV is 0. -/
theorem encodeOfDecode : Obligations.EncodeOfDecode := fun _ _ => wellFormed_and_encode_of_decode

/-- Settles O1: each word is the encoding of its row's command. -/
theorem listedWordsDecode : Obligations.ListedWordsDecode := by
  simp only [Obligations.ListedWordsDecode, decode_eq_instr_iff]
  decide

/-! ### The illegal words -/

/-- R96: the ways a word is illegal, by the decoder's tables. -/
theorem exists_decode_eq_illegal_iff {w : Word} : (∃ r, decode w = .illegal r) ↔ rsvField w ≠ 0 ∨
    (chunkCommand? (opField w) (nbField w) ≠ none ∧ 16 < (nbField w).toNat) ∨
    (chunkCommand? (opField w) (nbField w) = none ∧ (plainCommand? (opField w) = none ∨ nbField w ≠ 0)) := by
  by_cases hrsv : rsvField w = 0
  case neg => exact iff_of_true ⟨_, decode_of_rsvField_ne hrsv⟩ (.inl hrsv)
  case pos =>
    cases hc : chunkCommand? (opField w) (nbField w) with
    | some i => simp [decode_of_chunkCommand hrsv hc, hrsv, ite_eq_iff]
    | none =>
      cases hp : plainCommand? (opField w) with
      | some i => simp [decode_of_plainCommand hrsv hc hp, hrsv, ite_eq_iff]
      | none => simp [decode_of_no_command hrsv hc hp]

theorem toNat_opField (w : Word) : (opField w).toNat = w.toNat % 256 := by
  rw [opField, BitVec.extractLsb'_toNat, Nat.shiftRight_zero]

theorem toNat_nbField (w : Word) : (nbField w).toNat = w.toNat / 256 % 32 := by
  rw [nbField, BitVec.extractLsb'_toNat, Nat.shiftRight_eq_div_pow]

theorem toNat_rsvField (w : Word) : (rsvField w).toNat = w.toNat / 8192 := by
  rw [rsvField, BitVec.extractLsb'_toNat, Nat.shiftRight_eq_div_pow]
  omega

/-- Settles O4: the two tables' missing rows and the fields' ranges, as numbers. -/
theorem illegalWordsAreThoseListed : Obligations.IllegalWordsAreThoseListed := by
  intro w
  have hrsv : rsvField w ≠ 0 ↔ w.toNat / 8192 ≠ 0 := by rw [← toNat_rsvField, ne_eq, ← BitVec.toNat_inj]; rfl
  have hnb : nbField w ≠ 0 ↔ w.toNat / 256 % 32 ≠ 0 := by rw [← toNat_nbField, ne_eq, ← BitVec.toNat_inj]; rfl
  rw [exists_decode_eq_illegal_iff, ne_eq (chunkCommand? _ _), chunkCommand?_eq_none_iff, plainCommand?_eq_none_iff,
    hrsv, hnb, toNat_opField, toNat_nbField]
  omega

/-- Settles O6: the core's move is EXEC on the word, which raises ILLEGAL_COMMAND. -/
theorem stepOnIllegalWord : Obligations.StepOnIllegalWord := by
  intro s w r hp hm hd
  have hrun : runWord w s.advance = raise .illegalCommand s.advance := by rw [runWord, hd]
  rw [step_of_pending hm hp, hrun]
  rfl

end Sys2Proof.Machine
end

section
/-!
PROOFS. Substitution and diffusion (spec/40_substitution_diffusion.md): SBOX is a permutation (R111), L is linear and commutes
with rotation (R112), and the four strategies compute T (R115 to R118, R148).
-/

namespace Sys2Proof.Machine

/-! ### The substitution -/

/-- The rows of SBOX's inverse, column 0 first: a certificate that R111's table has no entry twice. -/
def sboxInverseRows : List Block := [
  0x716C7AB8160F1E4135EBD02AE4AC625A,
  0xCDC8DB1A0A8E0846F04B96C132A060CC,
  0xF76D69AA61681B760CA914100ED8A3B7,
  0x9BD29A28955F79B286FEF46B4A06FB3E,
  0x84CB212B19B37240FF1CE35B78F6AE4E,
  0x22BF77AD29975D736549CEBECA9263FA,
  0xA78D2F6455E8A51150E1BA51BDBCEDAF,
  0x5C54BB45D93C13E66EF827D66AF2E7C7,
  0x3852A448EF4D1D6FD3E082579DC0B63D,
  0x0124C3993A37E5E2261F1294205E7F74,
  0x7C8F678893D43F424F3318AB2E9891C2,
  0xDF9E5331DE870907DCE947C4C6D71581,
  0xA8D10B177DECEE857E34A6FD04D58B2D,
  0xDA66837570B000FCCFC956B1F5C5B439,
  0x9005A29F30DD4C7B36028059F32CF925,
  0xF1EA8A44239CA189588C3B0D43B503B9]

/-- The byte that SBOX maps to `b`. -/
def sboxInverse (b : Byte) : Byte := byteOf (sboxInverseRows.getD (b.toNat / 16) 0) (b.toNat % 16)

/-- R111: the table of the inverse undoes the table, entry by entry. -/
theorem sboxInverse_sbox : ∀ b : Byte, sboxInverse (sbox b) = b := by decide +kernel

theorem sbox_injective : Function.Injective sbox := Function.LeftInverse.injective sboxInverse_sbox

theorem sbox_eq_self_iff : ∀ b : Byte, sbox b = b ↔ b = 0xAB := by decide +kernel

/-- R118: or-ing the entries below `n`, all masked out but the one at `q`, selects that one. -/
theorem foldl_or_mask_eq_ite (f : Nat → Byte) (q n : Nat) :
    (List.range n).foldl (fun r h => r ||| (f h &&& (if h = q then 0xFF#8 else 0x00#8))) 0#8 =
      if q < n then f q else 0#8 := by
  induction n with
  | zero => rfl
  | succ n ih =>
    rw [List.range_succ, List.foldl_append, ih, List.foldl_cons, List.foldl_nil]
    obtain hlt | rfl | hgt := lt_trichotomy q n
    · simp [hlt, hlt.ne', Nat.lt_succ_of_lt hlt]
    · have hones : f q &&& 0xFF#8 = f q := BitVec.and_allOnes
      simp [hones]
    · simp [hgt.ne, show ¬q < n by omega, show ¬q < n + 1 by omega]

/-- R118: the masked reading of all sixteen sub-tables is the table. -/
theorem sboxSmall_eq_sbox (b : Byte) : sboxSmall b = sbox b := by
  have hrow : b.toNat / 16 < 16 := by omega
  rw [sboxSmall, foldl_or_mask_eq_ite (subTable · (b.toNat % 16)), if_pos hrow, sbox]

/-! ### Rotation and diffusion -/

/-- R7: bit `i` of a rotated word, with the index counted around the word. -/
theorem getLsbD_rotl (a : Word) (n : Nat) {i : Nat} (hi : i < 32) :
    (rotl a n).getLsbD i = a.getLsbD ((i + (32 - n % 32)) % 32) := by
  rw [rotl, BitVec.getLsbD_rotateLeft]
  by_cases h : i < n % 32
  · rw [decide_eq_true h, cond_true, show (i + (32 - n % 32)) % 32 = 32 - n % 32 + i by omega]
  · rw [decide_eq_false h, cond_false, decide_eq_true hi, Bool.true_and,
      show (i + (32 - n % 32)) % 32 = i - n % 32 by omega]

theorem rotl_xor (a b : Word) (n : Nat) : rotl (a ^^^ b) n = rotl a n ^^^ rotl b n := by
  ext i hi
  simp [← BitVec.getLsbD_eq_getElem, getLsbD_rotl, hi]

theorem rotl_comm (a : Word) (m n : Nat) : rotl (rotl a m) n = rotl (rotl a n) m := by
  ext i hi
  simp only [← BitVec.getLsbD_eq_getElem, getLsbD_rotl, hi, Nat.mod_lt, Nat.zero_lt_succ]
  congr 1
  omega

theorem rotateRight_eq_rotl (a : Word) (n : Nat) : a.rotateRight n = rotl a (32 - n % 32) := by
  ext i hi
  rw [← BitVec.getLsbD_eq_getElem, ← BitVec.getLsbD_eq_getElem, getLsbD_rotl _ _ hi, BitVec.getLsbD_rotateRight]
  by_cases h : i < 32 - n % 32
  · rw [decide_eq_true h, cond_true]
    congr 1
    omega
  · rw [decide_eq_false h, cond_false, decide_eq_true hi, Bool.true_and]
    congr 1
    omega

/-- R112: L is linear. -/
theorem diffuse_xor (a b : Word) : diffuse (a ^^^ b) = diffuse a ^^^ diffuse b := by
  simp only [diffuse, rotl_xor]
  ac_rfl

/-- R112: L commutes with rotation. -/
theorem diffuse_rotl (a : Word) (k : Nat) : diffuse (rotl a k) = rotl (diffuse a) k := by
  simp only [diffuse, rotl_xor, rotl_comm a k]

/-- Settles O22: SBOX by its inverse table, L by its rotations. -/
theorem substitutionAndDiffusion : Obligations.SubstitutionAndDiffusion :=
  ⟨fun _ _ h => sbox_injective h, sbox_eq_self_iff, by decide, by decide, by decide, fun _ => rfl, diffuse_xor,
    diffuse_rotl, by decide, by decide⟩

/-! ### The strategies -/

/-- R115: a byte placed in byte `j` of a word is the byte placed on top, rotated right by 8·j bits. -/
theorem byte_shiftLeft_eq_rotateRight (b : Byte) (j : Fin 4) :
    b.setWidth 32 <<< (24 - 8 * j.val) = (b.setWidth 32 <<< 24).rotateRight (8 * j.val) := by
  ext i hi
  have hmod : 8 * j.val % 32 = 8 * j.val := by omega
  rw [← BitVec.getLsbD_eq_getElem, ← BitVec.getLsbD_eq_getElem, BitVec.getLsbD_rotateRight, hmod]
  by_cases h : i < 32 - 8 * j.val
  · have hsub : i - (24 - 8 * j.val) = 8 * j.val + i - 24 := by omega
    have hlt : i < 24 - 8 * j.val ↔ 8 * j.val + i < 24 := by omega
    have h32 : 8 * j.val + i < 32 := by omega
    simp [h, hi, hsub, hlt, h32]
  · have hhigh : b.getLsbD (i - (24 - 8 * j.val)) = false := BitVec.getLsbD_of_ge b _ (by omega)
    have hlow : i - (32 - 8 * j.val) < 24 := by omega
    simp [h, hlow, hhigh]

theorem tTable_eq_rotateRight (j : Fin 4) (b : Byte) :
    tTable j.val b = (tTable 0 b).rotateRight (8 * j.val) := by
  rw [tTable, byte_shiftLeft_eq_rotateRight, rotateRight_eq_rotl, diffuse_rotl, ← rotateRight_eq_rotl]
  rfl

/-- Two fields side by side do not overlap, so the word they make up is a xor. -/
theorem setWidth_append_eq_shiftLeft_xor {m n : Nat} (k : Nat) (x : BitVec m) (y : BitVec n) :
    (x ++ y).setWidth k = x.setWidth k <<< n ^^^ y.setWidth k := by
  ext i
  by_cases h : i < n
  · simp [h, BitVec.getLsbD_append]
  · have hy : y.getLsbD i = false := BitVec.getLsbD_of_ge y i (not_lt.mp h)
    simp [h, hy, BitVec.getLsbD_append]

/-- R8, R110: a word is the xor of its four bytes, each at its place. -/
theorem append_eq_xor_shiftLeft (b0 b1 b2 b3 : Byte) :
    b0 ++ b1 ++ b2 ++ b3 =
      b0.setWidth 32 <<< 24 ^^^ b1.setWidth 32 <<< 16 ^^^ b2.setWidth 32 <<< 8 ^^^ b3.setWidth 32 <<< 0 := by
  rw [← BitVec.setWidth_eq (b0 ++ b1 ++ b2 ++ b3)]
  simp only [setWidth_append_eq_shiftLeft_xor, BitVec.shiftLeft_xor_distrib, ← BitVec.shiftLeft_add,
    BitVec.shiftLeft_zero]

/-- R116: L of the substituted word is the xor of the four tables, since L is linear. -/
theorem roundTable_eq_roundT (a : Word) : roundTable a = roundT a := by
  rw [roundT, tau, substitute, append_eq_xor_shiftLeft, diffuse_xor, diffuse_xor, diffuse_xor]
  rfl

/-- R118: T_small substitutes by the same table. -/
theorem roundSmall_eq_roundT (a : Word) : roundSmall a = roundT a := by
  rw [roundSmall, funext sboxSmall_eq_sbox]
  rfl

/-- R113, R116, R117, R118: every strategy computes T. -/
theorem roundOf_eq_roundT (st : Strategy) : roundOf st = roundT := by
  cases st with
  | reference => rfl
  | precomputedTable | vectorBatch => exact funext roundTable_eq_roundT
  | hardwareAssisted => exact funext roundSmall_eq_roundT

/-- Settles O23: the network is the same function of one and the same round function. -/
theorem strategiesAgree : Obligations.StrategiesAgree :=
  ⟨tTable_eq_rotateRight, fun st => congrFun (roundOf_eq_roundT st),
    fun st _ _ => by rw [roundOf_eq_roundT, network]⟩

end Sys2Proof.Machine
end

section
/-!
PROOFS. A command that takes no chunk length has one word (spec/30_encoding.md R92, R93, R95).
-/

namespace Sys2Proof.Machine

/-- R94: no opcode stands in both tables. -/
theorem plainCommand?_of_chunkCommand? {op : Byte} {nb : BitVec 5} {i : Instr} (h : chunkCommand? op nb = some i) :
    plainCommand? op = none := by
  have hne : ¬chunkCommand? op nb = none := by simp [h]
  rw [chunkCommand?_eq_none_iff] at hne
  exact plainCommand?_eq_none_iff.mpr (by omega)

/-- R94: a word of a command without a chunk length has RSV = 0, NB = 0 and its row's opcode. -/
theorem decode_eq_instr_of_chunk?_eq_none {w : Word} {i : Instr} (h : decode w = .instr i) (hi : i.chunk? = none) :
    rsvField w = 0 ∧ nbField w = 0 ∧ plainCommand? (opField w) = some i := by
  obtain ⟨hrsv, ⟨hc, -⟩ | ⟨hp, hnb⟩⟩ := decode_eq_instr h
  · exact absurd (hi.symm.trans (chunkCommand?_eq_some hc).2) nofun
  · exact ⟨hrsv, hnb, hp⟩

/-- R92, R95: another word with the opcode holds a bit of RSV or NB, which such a command's row does not allow. -/
theorem onlyWord_of_decode {w : Word} {i : Instr} (h : decode w = .instr i) (hi : i.chunk? = none) :
    Claims.onlyWord w := by
  obtain ⟨hrsv, hnb, hp⟩ := decode_eq_instr_of_chunk?_eq_none h hi
  intro v hop hne
  cases hd : decode v with
  | illegal r => exact ⟨r, rfl⟩
  | instr j =>
    obtain ⟨hrsv', ⟨hc, -⟩ | ⟨-, hnb'⟩⟩ := decode_eq_instr hd
    · rw [hop] at hc
      exact absurd (hp.symm.trans (plainCommand?_of_chunkCommand? hc)) nofun
    · refine absurd ?_ hne
      rw [← rsvField_append_nbField_append_opField v, hrsv', hnb', hop, ← hrsv, ← hnb,
        rsvField_append_nbField_append_opField]

end Sys2Proof.Machine
end

section
/-!
PROOFS. The key schedule as the recurrence of spec/41_key_schedule.md R133, and KEY_EXPAND (R134).
-/

namespace Sys2Proof.Machine

/-! ### The schedule -/

/-- The word `K_j` of R133, for a schedule that starts from any window and runs any list of round constants. -/
def scheduleWord (cks : List Word) (w : Window) (j : Nat) : Word :=
  ([w.w0, w.w1, w.w2, w.w3] ++ keyRounds cks w).getD j 0

/-- R133: the sequence from K_1 on is the one of the shifted window, which ends in the first round key. -/
theorem scheduleWord_cons_succ (ck : Word) (cks : List Word) (w : Window) (j : Nat) :
    scheduleWord (ck :: cks) w (j + 1) = scheduleWord cks (w.shift (keyRound ck w)) j := rfl

/-- R133: each round reads the four words before the one it makes. -/
theorem scheduleWord_add_four (cks : List Word) (w : Window) {i : Nat} (hi : i < cks.length) :
    scheduleWord cks w (i + 4) = keyRound (cks.getD i 0)
      ⟨scheduleWord cks w i, scheduleWord cks w (i + 1), scheduleWord cks w (i + 2), scheduleWord cks w (i + 3)⟩ := by
  induction cks generalizing w i with
  | nil => exact absurd hi (Nat.not_lt_zero i)
  | cons ck cks ih =>
    cases i with
    | zero => rfl
    | succ i => exact ih (w.shift (keyRound ck w)) (Nat.lt_of_succ_lt_succ hi)

theorem keySchedule_toList (mk : Vector Word 4) : (keySchedule mk).toList = keyRounds ckTable (keyWindow mk) := by
  unfold keySchedule
  rfl

theorem keyWord_eq_scheduleWord (mk : Vector Word 4) (j : Nat) :
    Claims.keyWord mk j = scheduleWord ckTable (keyWindow mk) j := by
  rw [Claims.keyWord, keySchedule_toList]
  rfl

/-- R133: rk_i is K_{i+4}. -/
theorem keySchedule_getElem (mk : Vector Word 4) (i : Fin 32) : (keySchedule mk)[i] = Claims.keyWord mk (i.val + 4) := by
  simp [Claims.keyWord]

/-- R132: byte `j` of round constant `i` is 7·(4i + j) mod 256. -/
theorem ckTable_getD : ∀ i : Fin 32, ckTable.getD i.val 0 =
    BitVec.ofNat 8 (7 * (4 * i.val)) ++ BitVec.ofNat 8 (7 * (4 * i.val + 1)) ++ BitVec.ofNat 8 (7 * (4 * i.val + 2)) ++
      BitVec.ofNat 8 (7 * (4 * i.val + 3)) := by decide

/-- R114, R133: a round of the schedule is the first word of its window xor T' of the three others and the constant. -/
theorem keyRound_eq (ck : Word) (w : Window) : keyRound ck w = w.w0 ^^^ Claims.keyMix (w.w1 ^^^ w.w2 ^^^ w.w3 ^^^ ck) := rfl

/-- Settles O24: rk_i is the word round i makes from the four before it, under the table's constant. -/
theorem keyScheduleRecurrence : Obligations.KeyScheduleRecurrence := by
  intro mk i
  have hround := scheduleWord_add_four ckTable (keyWindow mk) (i := i.val) i.isLt
  simp only [← keyWord_eq_scheduleWord, keyRound_eq, ckTable_getD] at hround
  rw [keySchedule_getElem, hround]

/-! ### The command -/

/-- R134: the state KEY_EXPAND leaves when the key length is accepted. -/
theorem exec_keyExpand_of_keyLen {s : State} (h : s.cfg.keyLen = 16) :
    exec .keyExpand s = .next (s.loadKey.complete .ok) := exec_of_completes (beq_iff_eq.mpr h)

/-- R134: INVALID_KEY_LENGTH. -/
theorem exec_keyExpand_of_keyLen_ne {s : State} (h : s.cfg.keyLen ≠ 16) :
    exec .keyExpand s = .next (s.complete .invalidKeyLength) := if_pos h

/-- Settles O33: the word's one row, and the two branches on KEYLEN. -/
theorem keyExpandCommand : Obligations.KeyExpandCommand := by
  have hdecode : decode 0x00000001 = .instr .keyExpand := rfl
  exact ⟨hdecode, onlyWord_of_decode hdecode rfl, fun s => ⟨exec_keyExpand_of_keyLen, exec_keyExpand_of_keyLen_ne⟩⟩

end Sys2Proof.Machine
end

section
/-!
PROOFS. The round network of spec/42_block_cipher.md: its recurrence (R140, R141), and the reversed keys that undo it (R142,
R143).
-/

namespace Sys2Proof.Machine

/-! ### Blocks and windows -/

/-- R8, R140: loading the block of four words gives the window of the four words. -/
@[simp] theorem windowOf_unwords (w0 w1 w2 w3 : Word) : windowOf (unwords w0 w1 w2 w3) = ⟨w0, w1, w2, w3⟩ := by
  have h0 : wordOf (unwords w0 w1 w2 w3) 0 = w0 := BitVec.extractLsb'_append_eq_of_le (by decide) |>.trans <|
    BitVec.extractLsb'_append_eq_of_le (by decide) |>.trans BitVec.extractLsb'_append_eq_left
  have h1 : wordOf (unwords w0 w1 w2 w3) 1 = w1 := BitVec.extractLsb'_append_eq_of_le (by decide) |>.trans <|
    BitVec.extractLsb'_append_eq_of_le (by decide) |>.trans BitVec.extractLsb'_append_eq_right
  have h2 : wordOf (unwords w0 w1 w2 w3) 2 = w2 := BitVec.extractLsb'_append_eq_of_le (by decide) |>.trans <|
    BitVec.extractLsb'_append_eq_right
  have h3 : wordOf (unwords w0 w1 w2 w3) 3 = w3 := BitVec.extractLsb'_append_eq_right
  rw [windowOf, h0, h1, h2, h3]

/-- The window with its words in reverse order, as `Window.emit` puts them out (R140). -/
def Window.reverse (w : Window) : Window := ⟨w.w3, w.w2, w.w1, w.w0⟩

/-- R140: the block put out, loaded again, is the window reversed. -/
@[simp] theorem windowOf_emit (w : Window) : windowOf w.emit = w.reverse := windowOf_unwords ..

/-- R8, R140: the words of a block, reversed and put out, are the block. -/
@[simp] theorem emit_reverse_windowOf (b : Block) : (windowOf b).reverse.emit = b := unwords_wordOf b

/-! ### The recurrence -/

/-- R141: along a sequence that follows the recurrence, the rounds move the window from X_0..X_3 to X_n..X_{n+3}. -/
theorem foldl_cipherRound_of_recurrence {f : Word → Word} {keys : List Word} {X : Nat → Word}
    (hX : ∀ i, i < keys.length → X (i + 4) = X i ^^^ f (X (i + 1) ^^^ X (i + 2) ^^^ X (i + 3) ^^^ keys.getD i 0)) :
    keys.foldl (cipherRound f) ⟨X 0, X 1, X 2, X 3⟩ =
      ⟨X keys.length, X (keys.length + 1), X (keys.length + 2), X (keys.length + 3)⟩ := by
  induction keys generalizing X with
  | nil => rfl
  | cons k ks ih =>
    have hround : cipherRound f ⟨X 0, X 1, X 2, X 3⟩ k = ⟨X 1, X 2, X 3, X 4⟩ :=
      congrArg (Window.mk (X 1) (X 2) (X 3)) (hX 0 (Nat.succ_pos _)).symm
    rw [List.foldl_cons, hround]
    exact ih (X := fun i => X (i + 1)) fun i hi => hX (i + 1) (Nat.succ_lt_succ hi)

/-- Settles O25: the rounds follow the recurrence from the words of the block, and the last window is put out reversed. -/
theorem networkRecurrence : Obligations.NetworkRecurrence := by
  intro keys blk X hblk hX
  have hload : windowOf blk = ⟨X 0, X 1, X 2, X 3⟩ := by rw [hblk]; exact windowOf_unwords ..
  rw [network, networkWith, hload, foldl_cipherRound_of_recurrence hX]
  rfl

/-! ### The reversed keys -/

/-- R143: a round with the same key, on the window reversed, cancels its own `new` word. -/
@[simp] theorem cipherRound_reverse_cipherRound (f : Word → Word) (w : Window) (k : Word) :
    cipherRound f (cipherRound f w k).reverse k = w.reverse := by
  have hargs : w.w3 ^^^ w.w2 ^^^ w.w1 = w.w1 ^^^ w.w2 ^^^ w.w3 := by ac_rfl
  simp [cipherRound, Window.shift, Window.reverse, hargs, BitVec.xor_assoc]

/-- R143: the rounds with the keys reversed, on the last window reversed, go back to the first window reversed. -/
theorem foldl_reverse_cipherRound (f : Word → Word) (keys : List Word) (w : Window) :
    keys.reverse.foldl (cipherRound f) (keys.foldl (cipherRound f) w).reverse = w.reverse := by
  induction keys generalizing w with
  | nil => rfl
  | cons k ks ih => simp [ih]

/-- R143: for any keys the network under them reversed undoes the network under them. -/
theorem network_reverse_network (keys : List Word) (b : Block) : network keys.reverse (network keys b) = b := by
  simp only [network, networkWith, windowOf_emit, foldl_reverse_cipherRound, emit_reverse_windowOf]

theorem encryptBlock_eq_network (rk : Vector Word 32) (b : Block) : encryptBlock rk b = network rk.toList b := by
  unfold encryptBlock; rfl

theorem decryptBlock_eq_network (rk : Vector Word 32) (b : Block) :
    decryptBlock rk b = network rk.toList.reverse b := by
  unfold decryptBlock; rfl

@[simp] theorem decryptBlock_encryptBlock (rk : Vector Word 32) (b : Block) :
    decryptBlock rk (encryptBlock rk b) = b := by
  rw [decryptBlock_eq_network, encryptBlock_eq_network, network_reverse_network]

@[simp] theorem encryptBlock_decryptBlock (rk : Vector Word 32) (b : Block) :
    encryptBlock rk (decryptBlock rk b) = b := by
  have hundo := network_reverse_network rk.toList.reverse b
  rwa [List.reverse_reverse, ← decryptBlock_eq_network, ← encryptBlock_eq_network] at hundo

/-- Settles O26: E and D are one network under opposite key orders, and a reversed order undoes the rounds. -/
theorem decryptionInvertsEncryption : Obligations.DecryptionInvertsEncryption := fun rk b =>
  ⟨encryptBlock_eq_network rk b, decryptBlock_eq_network rk b, decryptBlock_encryptBlock rk b,
    encryptBlock_decryptBlock rk b⟩

end Sys2Proof.Machine
end

section
/-!
PROOFS. The block commands of spec/42_block_cipher.md (R144 to R147): their effects and error, and how they agree.
-/

namespace Sys2Proof.Machine

/-! ### The lanes -/

/-- R8, R37: four registers that hold the words of a block hold the block. -/
@[simp] theorem blockOfWords_ofFn_wordOf (b : Block) : blockOfWords (Vector.ofFn fun w : Fin 4 => wordOf b w) = b := by
  simp only [blockOfWords, Vector.getElem_ofFn]
  exact unwords_wordOf b

/-- The state with the four registers of DIN[0] holding `v` (R37). -/
def State.stage (s : State) (v : Vector Word 4) : State := { s with din := s.din.set 0 v }

@[simp] theorem State.stage_rk (s : State) (v : Vector Word 4) : (s.stage v).rk = s.rk := rfl

@[simp] theorem State.stage_dinBlock_zero (s : State) (v : Vector Word 4) : (s.stage v).dinBlock 0 = blockOfWords v :=
  congrArg blockOfWords (Vector.getElem_set_self _)

/-- R146, R147: lane `l` of a batch is lane `l` of DIN through the cipher direction. -/
theorem getElem_batch (s : State) (f : Block → Block) (l : Fin 4) : (s.batch f)[l] = f (s.dinBlock l) := by
  match l with
  | 0 | 1 | 2 | 3 => rfl

/-! ### The effects and the error -/

section Completion

variable {s : State}

/-- R144 to R147: with a key the lanes are written and nothing else changes. -/
theorem blockCommand_of_keyValid (h : s.status.keyValid = true) (out : Vector Block 4) :
    blockCommand s out = .next (State.complete { s with dout := out } .ok) := if_pos h

/-- R144 to R147: without a key, KEY_NOT_LOADED and nothing else. -/
theorem blockCommand_of_keyValid_eq_false (h : s.status.keyValid = false) (out : Vector Block 4) :
    blockCommand s out = .next (s.complete .keyNotLoaded) := if_neg (Bool.eq_false_iff.mp h)

end Completion

/-- R144 to R147: the two directions of a block command, with a key and without. -/
theorem blockCommand_both_directions (s : State) (enc dec : Vector Block 4) :
    (s.status.keyValid = true →
      blockCommand s enc = .next (State.complete { s with dout := enc } .ok) ∧
      blockCommand s dec = .next (State.complete { s with dout := dec } .ok)) ∧
    (s.status.keyValid = false →
      blockCommand s enc = .next (s.complete .keyNotLoaded) ∧ blockCommand s dec = .next (s.complete .keyNotLoaded)) :=
  ⟨fun h => ⟨blockCommand_of_keyValid h enc, blockCommand_of_keyValid h dec⟩,
    fun h => ⟨blockCommand_of_keyValid_eq_false h enc, blockCommand_of_keyValid_eq_false h dec⟩⟩

/-- Settles O35: the words' two rows, and the two branches on KEY_VALID. -/
theorem blockCommands : Obligations.BlockCommands := by
  have henc : decode 0x00000010 = .instr .blockEnc := rfl
  have hdec : decode 0x00000011 = .instr .blockDec := rfl
  exact ⟨henc, hdec, onlyWord_of_decode henc rfl, onlyWord_of_decode hdec rfl,
    fun s => blockCommand_both_directions s _ _⟩

/-- Settles O36: the words' two rows, and the two branches on KEY_VALID. -/
theorem batchCommands : Obligations.BatchCommands := by
  have henc : decode 0x00000012 = .instr .batch4Enc := rfl
  have hdec : decode 0x00000013 = .instr .batch4Dec := rfl
  exact ⟨henc, hdec, onlyWord_of_decode henc rfl, onlyWord_of_decode hdec rfl,
    fun s => blockCommand_both_directions s _ _⟩

/-! ### How they agree -/

section Lanes

variable {s : State} (hk : s.status.keyValid = true)
include hk

/-- R144: BLOCK_ENC puts E of DIN[0] out in DOUT[0] and keeps the key. -/
theorem exists_exec_blockEnc : ∃ t, exec .blockEnc s = .next t ∧ t.status.keyValid = true ∧ t.rk = s.rk ∧
    t.dout[0] = encryptBlock s.rk (s.dinBlock 0) :=
  ⟨_, blockCommand_of_keyValid hk _, hk, rfl, Vector.getElem_set_self _⟩

/-- R145: BLOCK_DEC puts D of DIN[0] out in DOUT[0]. -/
theorem exists_exec_blockDec : ∃ t, exec .blockDec s = .next t ∧ t.dout[0] = decryptBlock s.rk (s.dinBlock 0) :=
  ⟨_, blockCommand_of_keyValid hk _, Vector.getElem_set_self _⟩

/-- R146: BATCH4_ENC puts E of each lane of DIN out in the same lane. -/
theorem exists_exec_batch4Enc :
    ∃ t, exec .batch4Enc s = .next t ∧ ∀ l : Fin 4, t.dout[l] = encryptBlock s.rk (s.dinBlock l) :=
  ⟨_, blockCommand_of_keyValid hk _, getElem_batch s s.encrypt⟩

/-- R147: BATCH4_DEC puts D of each lane of DIN out in the same lane. -/
theorem exists_exec_batch4Dec :
    ∃ t, exec .batch4Dec s = .next t ∧ ∀ l : Fin 4, t.dout[l] = decryptBlock s.rk (s.dinBlock l) :=
  ⟨_, blockCommand_of_keyValid hk _, getElem_batch s s.decrypt⟩

end Lanes

/-- Settles O37: D undoes E on the block put out, and both the batch's lane `l` and the single command's lane 0 hold the
cipher direction's value on DIN[l]. -/
theorem blockDecUndoesBlockEnc : Obligations.BlockDecUndoesBlockEnc := by
  intro s hk
  obtain ⟨t, ht, htk, htrk, htout⟩ := exists_exec_blockEnc hk
  obtain ⟨u, hu, huout⟩ := exists_exec_blockDec (s := t.stage (Vector.ofFn fun w : Fin 4 => wordOf t.dout[0] w)) htk
  obtain ⟨be, hbe, hbeout⟩ := exists_exec_batch4Enc hk
  obtain ⟨bd, hbd, hbdout⟩ := exists_exec_batch4Dec hk
  have hback : u.dout[0] = s.dinBlock 0 := by simp [huout, htrk, htout]
  refine ⟨t, u, be, bd, ht, hu, hback, hbe, hbd, fun l => ?_⟩
  obtain ⟨te, hte, -, -, hteout⟩ := exists_exec_blockEnc (s := s.stage s.din[l]) hk
  obtain ⟨td, htd, htdout⟩ := exists_exec_blockDec (s := s.stage s.din[l]) hk
  have henc : be.dout[l] = te.dout[0] := by rw [hbeout, hteout, State.stage_dinBlock_zero, State.stage_rk, State.dinBlock]
  have hdec : bd.dout[l] = td.dout[0] := by rw [hbdout, htdout, State.stage_dinBlock_zero, State.stage_rk, State.dinBlock]
  exact ⟨te, td, hte, henc, htd, hdec⟩

end Sys2Proof.Machine
end

section
/-!
PROOFS. The field product of spec/43_ghash.md R160 to R162 and GHASH over it (R164). Every block is a sum of powers of x
times 1, so a fact about the product holds when it holds at 1 and is kept by sums and by the product with x.
-/

namespace Sys2Proof.Machine

/-! ### Addition under a coefficient -/

/-- `v` added to `z` where the coefficient `b` is set: what R162's loop does with its V, and the reduction with x^128. -/
def addIf (b : Bool) (z v : Block) : Block := if b then z ^^^ v else z

theorem gfTimesX_eq_addIf (v : Block) : gfTimesX v = addIf (v.getLsbD 0) (v >>> 1) gfPoly := rfl

theorem gfLoop_succ (a : Block) (m : Nat) (z v : Block) :
    gfLoop a (m + 1) z v = gfLoop a m (addIf (a.getLsbD m) z v) (gfTimesX v) := rfl

/-- R161: the sum of two coefficients is taken modulo 2. -/
theorem addIf_xor_coefficients (b c : Bool) (z y v : Block) :
    addIf (b ^^ c) (z ^^^ y) v = addIf b z v ^^^ addIf c y v := by
  match b, c with
  | false, false => rfl
  | false, true => exact BitVec.xor_assoc ..
  | true, false => show z ^^^ y ^^^ v = z ^^^ v ^^^ y; ac_rfl
  | true, true =>
    calc z ^^^ y = z ^^^ y ^^^ (v ^^^ v) := by rw [BitVec.xor_self, BitVec.xor_zero]
      _ = z ^^^ v ^^^ (y ^^^ v) := by ac_rfl

/-- R160: adding a block's coefficient at its own bit flips that bit by it, and no other. -/
theorem getLsbD_addIf_twoPow (a : Block) {m : Nat} (hm : m < 128) (z : Block) (k : Nat) :
    (addIf (a.getLsbD m) z (BitVec.twoPow 128 m)).getLsbD k = (z.getLsbD k ^^ (decide (m = k) && a.getLsbD k)) := by
  by_cases hmk : m = k
  · subst hmk
    cases h : a.getLsbD m <;> simp [addIf, hm]
  · cases a.getLsbD m <;> simp [addIf, hmk]

theorem addIf_xor_blocks (b : Bool) (z y v w : Block) :
    addIf b (z ^^^ y) (v ^^^ w) = addIf b z v ^^^ addIf b y w := by
  match b with
  | false => rfl
  | true => show z ^^^ y ^^^ (v ^^^ w) = z ^^^ v ^^^ (y ^^^ w); ac_rfl

/-! ### The product with x -/

/-- R161: the product with x distributes over the field's addition. -/
theorem gfTimesX_xor (v w : Block) : gfTimesX (v ^^^ w) = gfTimesX v ^^^ gfTimesX w := by
  simp only [gfTimesX_eq_addIf, BitVec.getLsbD_xor, BitVec.ushiftRight_xor_distrib, addIf_xor_coefficients]

theorem gfTimesX_addIf (b : Bool) (z v : Block) : gfTimesX (addIf b z v) = addIf b (gfTimesX z) (gfTimesX v) := by
  match b with
  | false => rfl
  | true => exact gfTimesX_xor z v

/-- R160: with no coefficient of x^127 to reduce, the product with x moves the one coefficient to the next bit. -/
theorem gfTimesX_twoPow_succ {m : Nat} (hm : m + 1 < 128) :
    gfTimesX (BitVec.twoPow 128 (m + 1)) = BitVec.twoPow 128 m := by
  rw [gfTimesX, if_neg (by simp)]
  ext k hk
  rw [BitVec.getElem_ushiftRight, BitVec.getLsbD_twoPow, BitVec.getElem_twoPow, Bool.eq_iff_iff]
  simp only [hm, decide_true, Bool.true_and, decide_eq_true_eq]
  omega

/-! ### The loop -/

theorem gfLoop_xor_left (a b : Block) (m : Nat) (z y v : Block) :
    gfLoop (a ^^^ b) m (z ^^^ y) v = gfLoop a m z v ^^^ gfLoop b m y v := by
  induction m generalizing z y v with
  | zero => rfl
  | succ m ih => simp only [gfLoop_succ, BitVec.getLsbD_xor, addIf_xor_coefficients, ih]

theorem gfLoop_xor_right (a : Block) (m : Nat) (z y v w : Block) :
    gfLoop a m (z ^^^ y) (v ^^^ w) = gfLoop a m z v ^^^ gfLoop a m y w := by
  induction m generalizing z y v w with
  | zero => rfl
  | succ m ih => simp only [gfLoop_succ, gfTimesX_xor, addIf_xor_blocks, ih]

theorem gfLoop_gfTimesX (a : Block) (m : Nat) (z v : Block) :
    gfLoop a m (gfTimesX z) (gfTimesX v) = gfTimesX (gfLoop a m z v) := by
  induction m generalizing z v with
  | zero => rfl
  | succ m ih => simp only [gfLoop_succ, ← gfTimesX_addIf, ih]

/-- The loop only adds and multiplies by x. -/
theorem gfLoop_induction {P : Block → Prop} (xor : ∀ v w, P v → P w → P (v ^^^ w))
    (timesX : ∀ v, P v → P (gfTimesX v)) (a : Block) (m : Nat) {z v : Block} (hz : P z) (hv : P v) : P (gfLoop a m z v) := by
  induction m generalizing z v with
  | zero => exact hz
  | succ m ih =>
    refine ih ?_ (timesX v hv)
    split
    · exact xor z v hz hv
    · exact hz

/-- R160, R162: from a power of x on, the loop adds the coefficients of A from that power on, each at its bit. -/
theorem getLsbD_gfLoop_twoPow (a : Block) {m : Nat} (hm : m < 128) (z : Block) (k : Nat) :
    (gfLoop a (m + 1) z (BitVec.twoPow 128 m)).getLsbD k = (z.getLsbD k ^^ (decide (k ≤ m) && a.getLsbD k)) := by
  induction m generalizing z with
  | zero =>
    rw [gfLoop_succ, gfLoop, getLsbD_addIf_twoPow a hm]
    simp [eq_comm]
  | succ m ih =>
    rw [gfLoop_succ, gfTimesX_twoPow_succ hm, ih (by omega), getLsbD_addIf_twoPow a hm]
    have hnew : decide (k ≤ m + 1) = (decide (m + 1 = k) ^^ decide (k ≤ m)) := by
      rw [Bool.eq_iff_iff]
      simp
      omega
    rw [hnew, Bool.and_xor_distrib_right, Bool.xor_assoc]

/-! ### The product -/

/-- The field's identity under R160: the coefficient of x^0 alone. -/
def gfOne : Block := 0x80000000000000000000000000000000

/-- The element x under R160. -/
theorem gfTimesX_gfOne : gfTimesX gfOne = 0x40000000000000000000000000000000 := by decide

section Product

variable (a b c : Block)

theorem gfMul_eq_gfLoop : gfMul a b = gfLoop a 128 0 b := by unfold gfMul; rfl

theorem gfMul_xor_left : gfMul (a ^^^ b) c = gfMul a c ^^^ gfMul b c := by
  simp only [gfMul_eq_gfLoop]
  exact gfLoop_xor_left a b 128 0 0 c

theorem gfMul_xor_right : gfMul a (b ^^^ c) = gfMul a b ^^^ gfMul a c := by
  simp only [gfMul_eq_gfLoop]
  exact gfLoop_xor_right a 128 0 0 b c

theorem gfMul_gfTimesX_right : gfMul a (gfTimesX b) = gfTimesX (gfMul a b) := by
  rw [gfMul_eq_gfLoop, gfMul_eq_gfLoop, ← gfLoop_gfTimesX]
  rfl

@[simp] theorem gfMul_gfOne_right : gfMul a gfOne = a := by
  have hone : gfOne = BitVec.twoPow 128 127 := by decide
  rw [gfMul_eq_gfLoop, hone]
  refine BitVec.eq_of_getLsbD_eq fun k hk => ?_
  simpa [Nat.le_of_lt_succ hk] using getLsbD_gfLoop_twoPow a (m := 127) (by decide) 0 k

end Product

/-- A fact about blocks holds of all when it holds of 1 and is kept by sums and by the product with x. -/
theorem block_induction {P : Block → Prop} (one : P gfOne) (xor : ∀ v w, P v → P w → P (v ^^^ w))
    (timesX : ∀ v, P v → P (gfTimesX v)) (b : Block) : P b := by
  have hzero : P 0 := by simpa using xor gfOne gfOne one one
  rw [← gfMul_gfOne_right b, gfMul_eq_gfLoop]
  exact gfLoop_induction xor timesX b 128 hzero one

section Product

variable (a b c : Block)

@[simp] theorem gfMul_zero_left : gfMul 0#128 a = 0#128 := by
  have h := gfMul_xor_left a a a
  rwa [BitVec.xor_self, BitVec.xor_self] at h

@[simp] theorem gfMul_zero_right : gfMul a 0#128 = 0#128 := by
  have h := gfMul_xor_right a a a
  rwa [BitVec.xor_self, BitVec.xor_self] at h

@[simp] theorem gfMul_gfOne_left : gfMul gfOne a = a := by
  induction a using block_induction with
  | one => exact gfMul_gfOne_right gfOne
  | xor v w hv hw => rw [gfMul_xor_right, hv, hw]
  | timesX v hv => rw [gfMul_gfTimesX_right, hv]

theorem gfMul_gfTimesX_left : gfMul (gfTimesX a) b = gfTimesX (gfMul a b) := by
  induction b using block_induction with
  | one => rw [gfMul_gfOne_right, gfMul_gfOne_right]
  | xor v w hv hw => rw [gfMul_xor_right, gfMul_xor_right, hv, hw, gfTimesX_xor]
  | timesX v hv => rw [gfMul_gfTimesX_right, gfMul_gfTimesX_right, hv]

theorem gfMul_comm : gfMul a b = gfMul b a := by
  induction b using block_induction with
  | one => rw [gfMul_gfOne_right, gfMul_gfOne_left]
  | xor v w hv hw => rw [gfMul_xor_right, gfMul_xor_left, hv, hw]
  | timesX v hv => rw [gfMul_gfTimesX_right, gfMul_gfTimesX_left, hv]

theorem gfMul_assoc : gfMul (gfMul a b) c = gfMul a (gfMul b c) := by
  induction c using block_induction with
  | one => rw [gfMul_gfOne_right, gfMul_gfOne_right]
  | xor v w hv hw => rw [gfMul_xor_right, gfMul_xor_right, gfMul_xor_right, hv, hw]
  | timesX v hv => rw [gfMul_gfTimesX_right, gfMul_gfTimesX_right, gfMul_gfTimesX_right, hv]

/-- R160: the element x is 1 multiplied by x. -/
theorem gfMul_x_right : gfMul a 0x40000000000000000000000000000000 = gfTimesX a := by
  rw [← gfTimesX_gfOne, gfMul_gfTimesX_right, gfMul_gfOne_right]

end Product

/-- Settles O27: both products agree at 1 and are linear in the factor that is taken apart. -/
theorem fieldProductCommutes : Obligations.FieldProductCommutes :=
  ⟨gfMul_comm, gfMul_gfOne_left, fun a => ⟨gfMul_zero_right a, gfMul_zero_left a⟩⟩

/-- Settles O28: both bracketings agree at 1 and are linear in the last factor; x is 1 times x. -/
theorem fieldProductIsAssociativeAndLinear : Obligations.FieldProductIsAssociativeAndLinear :=
  ⟨gfMul_assoc, gfMul_xor_left, gfMul_x_right⟩

/-! ### GHASH -/

/-- R164: one more block is folded into the hash of the ones before. -/
theorem ghash_append_singleton (h : Block) (blocks : List Block) (c : Block) :
    ghash h (blocks ++ [c]) = gfMul (ghash h blocks ^^^ c) h :=
  List.foldl_concat ..

@[simp] theorem ghash_zero (blocks : List Block) : ghash 0#128 blocks = 0#128 := by
  induction blocks using List.reverseRecOn with
  | nil => rfl
  | append_singleton blocks c _ => rw [ghash_append_singleton, gfMul_zero_right]

/-- Settles O29: the fold over the sequence, whose last product is 0 under H = 0. -/
theorem ghashFolds : Obligations.GhashFolds := ⟨ghash_zero, fun _ => rfl, ghash_append_singleton⟩

end Sys2Proof.Machine
end

section
/-!
PROOFS. The standalone GHASH commands of spec/43_ghash.md (R165 to R168): their effects, and their errors in order.
-/

namespace Sys2Proof.Machine

/-- R34: IN_MSG as the commands test it and as the statements say it. -/
theorem inMessage_iff_inMsg {s : State} : s.status.phase.inMessage = true ↔ Claims.inMsg s := by
  unfold Claims.inMsg
  cases s.status.phase <;> decide

section InMessage

variable {s : State} (h : Claims.inMsg s)
include h

/-- R165: SEQUENCE_ERROR in a message. -/
theorem exec_ghashInit_of_inMsg : exec .ghashInit s = .next (s.complete .sequenceError) :=
  if_pos (inMessage_iff_inMsg.mpr h)

/-- R166: SEQUENCE_ERROR in a message, before H is looked at. -/
theorem exec_ghashUpdate_of_inMsg : exec .ghashUpdate s = .next (s.complete .sequenceError) :=
  if_pos (inMessage_iff_inMsg.mpr h)

/-- R167: SEQUENCE_ERROR in a message. -/
theorem exec_ghashSeth_of_inMsg : exec .ghashSeth s = .next (s.complete .sequenceError) :=
  if_pos (inMessage_iff_inMsg.mpr h)

/-- R168: SEQUENCE_ERROR in a message, when there is a key. -/
theorem exec_hashkeyDerive_of_inMsg (hk : s.status.keyValid = true) :
    exec .hashkeyDerive s = .next (s.complete .sequenceError) := by
  simp [exec, execHashkeyDerive, hk, inMessage_iff_inMsg.mpr h]

end InMessage

section OutsideMessage

variable {s : State} (h : ¬Claims.inMsg s)
include h

theorem inMessage_eq_false_of_not_inMsg : s.status.phase.inMessage = false :=
  Bool.eq_false_iff.mpr (inMessage_iff_inMsg.not.mpr h)

/-- R165: X is cleared and nothing else changes. -/
theorem exec_ghashInit_of_not_inMsg : exec .ghashInit s = .next (State.complete { s with x := 0 } .ok) :=
  exec_of_completes (by simp [completes, inMessage_eq_false_of_not_inMsg h])

/-- R166: with H valid DIN[0] is folded into X and nothing else changes. -/
theorem exec_ghashUpdate_of_hValid (hv : s.status.hValid = true) :
    exec .ghashUpdate s = .next ((s.fold (s.dinBlock 0)).complete .ok) :=
  exec_of_completes (by simp [completes, inMessage_eq_false_of_not_inMsg h, hv])

/-- R166: HASH_KEY_NOT_LOADED comes after the test for a message. -/
theorem exec_ghashUpdate_of_hValid_eq_false (hv : s.status.hValid = false) :
    exec .ghashUpdate s = .next (s.complete .hashKeyNotLoaded) := by
  simp [exec, execGhashUpdate, inMessage_eq_false_of_not_inMsg h, hv]

/-- R167: H is HKEYIN and valid, and nothing else changes. -/
theorem exec_ghashSeth_of_not_inMsg : exec .ghashSeth s = .next ((s.loadH s.hkeyinBlock).complete .ok) :=
  exec_of_completes (by simp [completes, inMessage_eq_false_of_not_inMsg h])

/-- R168: with a key H is E(0) and valid, and nothing else changes. -/
theorem exec_hashkeyDerive_of_keyValid (hk : s.status.keyValid = true) :
    exec .hashkeyDerive s = .next ((s.loadH (s.encrypt 0)).complete .ok) :=
  exec_of_completes (by simp [completes, inMessage_eq_false_of_not_inMsg h, hk])

end OutsideMessage

/-- R168: KEY_NOT_LOADED comes first, in every phase. -/
theorem exec_hashkeyDerive_of_keyValid_eq_false {s : State} (hk : s.status.keyValid = false) :
    exec .hashkeyDerive s = .next (s.complete .keyNotLoaded) := by
  simp [exec, execHashkeyDerive, hk]

/-- Settles O38: the words' two rows, and the two branches on IN_MSG. -/
theorem ghashInitAndSeth : Obligations.GhashInitAndSeth := by
  have hinit : decode 0x00000020 = .instr .ghashInit := rfl
  have hseth : decode 0x00000022 = .instr .ghashSeth := rfl
  exact ⟨hinit, hseth, onlyWord_of_decode hinit rfl, onlyWord_of_decode hseth rfl, fun s =>
    ⟨fun h => ⟨exec_ghashInit_of_not_inMsg h, exec_ghashSeth_of_not_inMsg h⟩,
      fun h => ⟨exec_ghashInit_of_inMsg h, exec_ghashSeth_of_inMsg h⟩⟩⟩

/-- Settles O39: the words' two rows, and the three branches of each command. -/
theorem ghashUpdateAndDerive : Obligations.GhashUpdateAndDerive := by
  have hupdate : decode 0x00000021 = .instr .ghashUpdate := rfl
  have hderive : decode 0x00000023 = .instr .hashkeyDerive := rfl
  exact ⟨hupdate, hderive, onlyWord_of_decode hupdate rfl, onlyWord_of_decode hderive rfl, fun s =>
    ⟨exec_ghashUpdate_of_hValid, exec_ghashUpdate_of_inMsg, exec_ghashUpdate_of_hValid_eq_false,
      fun hk h => exec_hashkeyDerive_of_keyValid h hk, exec_hashkeyDerive_of_keyValid_eq_false,
      fun hk h => exec_hashkeyDerive_of_inMsg h hk⟩⟩

end Sys2Proof.Machine
end

section
/-!
PROOFS. The AEAD commands of spec/44_aead.md (R184 to R195): their effects, and their errors in order.
-/

namespace Sys2Proof.Machine

open Sys2Proof.Claims

/-! ### The words of the chunk commands (R92) -/

/-- R92, R95: another word with a chunk command's opcode has RSV ≠ 0 or a chunk length over 16. -/
theorem onlyChunkWords_of_plainCommand? {op : Byte} (h : plainCommand? op = none) : onlyChunkWords op := by
  intro v hop hne
  cases hd : decode v with
  | illegal r => exact ⟨r, rfl⟩
  | instr j =>
    obtain ⟨hrsv, ⟨-, hle⟩ | ⟨hp, -⟩⟩ := decode_eq_instr hd
    · have hword := rsvField_append_nbField_append_opField v
      rw [hrsv, hop] at hword
      exact absurd hword.symm (hne _ hle)
    · rw [hop, h] at hp
      cases hp

/-- R92, R96: the word of a chunk command whose chunk length a word may hold. -/
theorem decode_encode_of_chunk? {i : Instr} {nb : BitVec 5} (hi : i.chunk? = some nb) (hle : nb.toNat ≤ 16) :
    decode (encode i) = .instr i :=
  decode_encode (by simp [Instr.wellFormed, hi, hle])

/-! ### The conditions (R186, R187, R190) -/

variable {s : State} {nb : BitVec 5}

theorem takesAad_iff : s.takesAad = true ↔
    (s.status.phase = .encAad ∨ s.status.phase = .decAad) ∧ s.status.partialChunk = false := by
  simp [State.takesAad]

theorem takesPlaintext_iff : s.takesPlaintext = true ↔ mayEncrypt s := by
  simp [State.takesPlaintext, mayEncrypt]

theorem takesCiphertext_iff : s.takesCiphertext = true ↔ mayDecrypt s := by
  simp [State.takesCiphertext, mayDecrypt]

theorem pbufHasRoom_iff {n : Nat} : s.pbufHasRoom n = true ↔ s.pbCount.toNat + n ≤ s.pbufBlocks.toNat :=
  decide_eq_true_iff

theorem takesPlaintext_eq_false (h : ¬mayEncrypt s) : s.takesPlaintext = false :=
  Bool.eq_false_iff.mpr (takesPlaintext_iff.not.mpr h)

theorem takesCiphertext_eq_false (h : ¬mayDecrypt s) : s.takesCiphertext = false :=
  Bool.eq_false_iff.mpr (takesCiphertext_iff.not.mpr h)

theorem pbufHasRoom_eq_false {n : Nat} (h : s.pbufBlocks.toNat < s.pbCount.toNat + n) : s.pbufHasRoom n = false :=
  Bool.eq_false_iff.mpr (pbufHasRoom_iff.not.mpr (Nat.not_le.mpr h))

theorem completes_aeadAad_iff : completes (.aeadAad nb) s = true ↔ nb.toNat ≤ 16 ∧ s.takesAad = true := by
  simp [completes]

theorem completes_aeadEnc_iff : completes (.aeadEnc nb) s = true ↔ nb.toNat ≤ 16 ∧ mayEncrypt s := by
  simp [completes, takesPlaintext_iff]

theorem completes_aeadEnc4_iff : completes .aeadEnc4 s = true ↔ mayEncrypt s := takesPlaintext_iff

theorem completes_aeadDec_iff : completes (.aeadDec nb) s = true ↔
    nb.toNat ≤ 16 ∧ mayDecrypt s ∧ s.pbCount.toNat + (if nb = 0 then 0 else 1) ≤ s.pbufBlocks.toNat := by
  simp only [completes, Bool.and_eq_true, decide_eq_true_eq, takesCiphertext_iff, pbufHasRoom_iff, and_assoc]

theorem completes_aeadDec4_iff :
    completes .aeadDec4 s = true ↔ mayDecrypt s ∧ s.pbCount.toNat + 4 ≤ s.pbufBlocks.toNat := by
  simp only [completes, Bool.and_eq_true, takesCiphertext_iff, pbufHasRoom_iff]

/-! ### The named updates, where a command's conditions hold -/

/-- A state that is in this phase, with this PARTIAL, already. -/
theorem inPhase_eq_self {p : Phase} {b : Bool} (hp : s.status.phase = p) (hb : s.status.partialChunk = b) :
    inPhase s p b = s := by
  subst hp hb; rfl

/-- R187: the first data chunk closes the AAD stream, a later one finds it closed. -/
theorem openPlaintext_of_mayEncrypt (h : mayEncrypt s) : s.openPlaintext = inPhase s .encData false := by
  obtain hp | ⟨hp, hb⟩ := h
  · exact if_pos hp
  · rw [inPhase_eq_self hp hb]
    exact if_neg (by simp [hp])

/-- R190: likewise in a decryption. -/
theorem openCiphertext_of_mayDecrypt (h : mayDecrypt s) : s.openCiphertext = inPhase s .decData false := by
  obtain hp | ⟨hp, hb⟩ := h
  · exact if_pos hp
  · rw [inPhase_eq_self hp hb]
    exact if_neg (by simp [hp])

/-- Where no partial chunk came before, PARTIAL tells whether this one is partial. -/
theorem notePartial_of_partialChunk_eq_false (h : s.status.partialChunk = false) :
    s.notePartial nb = { s with status := { s.status with partialChunk := decide (nb.toNat < 16) } } := by
  simp [State.notePartial, h]

/-- Four full blocks in CTLEN (R188, R191). -/
theorem add_four_blocks (n : BitVec 64) : n + 128 + 128 + 128 + 128 = n + 512 := by
  simp only [BitVec.add_assoc]; rfl

theorem absorbAad_of_partialChunk_eq_false (h : s.status.partialChunk = false) : s.absorbAad nb = { s with
    x := gfMul (s.x ^^^ s.chunk nb) s.h
    aadlen := s.aadlen + chunkBits nb
    status := { s.status with partialChunk := decide (nb.toNat < 16) } } :=
  notePartial_of_partialChunk_eq_false h

/-- Four lanes written in order are all there is to DOUT (R38). -/
theorem set_four_lanes (v : Vector Block 4) (c0 c1 c2 c3 : Block) :
    (((v.set 0 c0).set 1 c1).set 2 c2).set 3 c3 = #v[c0, c1, c2, c3] := by
  obtain ⟨⟨l⟩, hl⟩ := v
  match l, hl with
  | [_, _, _, _], _ => rfl

/-- R188: the four lanes of AEAD_ENC4. -/
theorem encryptLanes_eq (s : State) :
    let c0 := din s 0 ^^^ encryptBlock s.rk s.ctr
    let c1 := din s 1 ^^^ encryptBlock s.rk (inc32 s.ctr)
    let c2 := din s 2 ^^^ encryptBlock s.rk (inc32 (inc32 s.ctr))
    let c3 := din s 3 ^^^ encryptBlock s.rk (inc32 (inc32 (inc32 s.ctr)))
    (((s.encryptLane 0).encryptLane 1).encryptLane 2).encryptLane 3 = { s with
      dout := #v[c0, c1, c2, c3]
      x := gfMul (gfMul (gfMul (gfMul (s.x ^^^ c0) s.h ^^^ c1) s.h ^^^ c2) s.h ^^^ c3) s.h
      ctlen := s.ctlen + 512
      ctr := inc32 (inc32 (inc32 (inc32 s.ctr))) } := by
  intro c0 c1 c2 c3
  rw [← set_four_lanes s.dout, ← add_four_blocks]
  cases s
  rfl

/-- R191: the four lanes of AEAD_DEC4, with room for them. -/
theorem decryptLanes_eq (hroom : s.pbCount.toNat + 4 ≤ s.pbufBlocks.toNat) :
    let p0 := din s 0 ^^^ encryptBlock s.rk s.ctr
    let p1 := din s 1 ^^^ encryptBlock s.rk (inc32 s.ctr)
    let p2 := din s 2 ^^^ encryptBlock s.rk (inc32 (inc32 s.ctr))
    let p3 := din s 3 ^^^ encryptBlock s.rk (inc32 (inc32 (inc32 s.ctr)))
    let n := s.pbCount.toNat
    (((s.decryptLane 0).decryptLane 1).decryptLane 2).decryptLane 3 = { s with
      x := gfMul (gfMul (gfMul (gfMul (s.x ^^^ din s 0) s.h ^^^ din s 1) s.h ^^^ din s 2) s.h ^^^ din s 3) s.h
      ctlen := s.ctlen + 512
      ctr := inc32 (inc32 (inc32 (inc32 s.ctr)))
      pbCount := s.pbCount + 4
      pbuf := (((s.pbuf.put n p0).put (n + 1) p1).put (n + 2) p2).put (n + 3) p3 } := by
  intro p0 p1 p2 p3 n
  have hcount : s.pbCount + 1 + 1 + 1 + 1 = s.pbCount + 4 := by simp only [BitVec.add_assoc]; rfl
  have h1 : (s.pbCount + 1).toNat = n + 1 := toNat_pbCount_succ (by omega)
  have h2 : (s.pbCount + 1 + 1).toNat = n + 2 := by bv_omega
  have h3 : (s.pbCount + 1 + 1 + 1).toNat = n + 3 := by bv_omega
  rw [← add_four_blocks, ← hcount, ← h1, ← h2, ← h3]
  cases s
  rfl

/-! ### AEAD_INIT_ENC and AEAD_INIT_DEC (R184, R185) -/

section Init

variable (p : Phase)

theorem initMessage_of_nonceLen (hk : s.status.keyValid = true) (hn : s.cfg.nonceLen = 12) :
    initMessage p s = .next ((s.startMessage p).complete .ok) := by
  simp [initMessage, hk, hn]

/-- KEY_NOT_LOADED comes first. -/
theorem initMessage_of_keyValid_eq_false (hk : s.status.keyValid = false) :
    initMessage p s = .next (s.complete .keyNotLoaded) := by
  simp [initMessage, hk]

theorem initMessage_of_nonceLen_ne (hk : s.status.keyValid = true) (hn : s.cfg.nonceLen ≠ 12) :
    initMessage p s = .next (s.complete .invalidNonceLength) := by
  simp_all [initMessage]

end Init

/-- Settles O40: the words' two rows, and the three branches of the two commands, which differ in the phase alone. -/
theorem aeadInitCommands : Obligations.AeadInitCommands := by
  have henc : decode 0x00000030 = .instr .aeadInitEnc := rfl
  have hdec : decode 0x00000031 = .instr .aeadInitDec := rfl
  exact ⟨henc, hdec, onlyWord_of_decode henc rfl, onlyWord_of_decode hdec rfl, fun s =>
    ⟨fun hk hn => ⟨initMessage_of_nonceLen .encAad hk hn, initMessage_of_nonceLen .decAad hk hn⟩,
      fun hk => ⟨initMessage_of_keyValid_eq_false .encAad hk, initMessage_of_keyValid_eq_false .decAad hk⟩,
      fun hk hn => ⟨initMessage_of_nonceLen_ne .encAad hk hn, initMessage_of_nonceLen_ne .decAad hk hn⟩⟩⟩

/-! ### AEAD_AAD (R186) -/

section Chunk

variable (hle : nb.toNat ≤ 16)
include hle

theorem exec_aeadAad_of_zero (h : s.takesAad = true) (hnb : nb = 0) :
    exec (.aeadAad nb) s = .next (s.complete .ok) := by
  rw [exec_of_completes (completes_aeadAad_iff.mpr ⟨hle, h⟩), effect, if_pos hnb]

theorem exec_aeadAad_of_ne_zero (h : s.takesAad = true) (hnb : nb ≠ 0) :
    exec (.aeadAad nb) s = .next ((s.absorbAad nb).complete .ok) := by
  rw [exec_of_completes (completes_aeadAad_iff.mpr ⟨hle, h⟩), effect, if_neg hnb]

theorem exec_aeadAad_of_takesAad_eq_false (h : s.takesAad = false) :
    exec (.aeadAad nb) s = .next (s.complete .sequenceError) := by
  simp [exec, execAeadAad, h, Nat.not_lt.mpr hle]

/-! ### AEAD_ENC (R187) -/

theorem exec_aeadEnc_of_zero (h : mayEncrypt s) (hnb : nb = 0) :
    exec (.aeadEnc nb) s = .next ((inPhase s .encData false).complete .ok) := by
  rw [exec_of_completes (completes_aeadEnc_iff.mpr ⟨hle, h⟩), effect, if_pos hnb,
    openPlaintext_of_mayEncrypt h]

theorem exec_aeadEnc_of_ne_zero (h : mayEncrypt s) (hnb : nb ≠ 0) :
    exec (.aeadEnc nb) s = .next (((inPhase s .encData false).encryptChunk nb).complete .ok) := by
  rw [exec_of_completes (completes_aeadEnc_iff.mpr ⟨hle, h⟩), effect, if_neg hnb,
    openPlaintext_of_mayEncrypt h]

theorem exec_aeadEnc_of_not_mayEncrypt (h : ¬mayEncrypt s) :
    exec (.aeadEnc nb) s = .next (s.complete .sequenceError) := by
  simp [exec, execAeadEnc, takesPlaintext_eq_false h, Nat.not_lt.mpr hle]

/-! ### AEAD_DEC (R190) -/

theorem exec_aeadDec_of_zero (h : mayDecrypt s) (hroom : s.pbCount.toNat ≤ s.pbufBlocks.toNat) (hnb : nb = 0) :
    exec (.aeadDec nb) s = .next ((inPhase s .decData false).complete .ok) := by
  rw [exec_of_completes (completes_aeadDec_iff.mpr ⟨hle, h, by simpa [hnb] using hroom⟩), effect, if_pos hnb,
    openCiphertext_of_mayDecrypt h]

theorem exec_aeadDec_of_ne_zero (h : mayDecrypt s) (hroom : s.pbCount.toNat < s.pbufBlocks.toNat) (hnb : nb ≠ 0) :
    exec (.aeadDec nb) s = .next (((inPhase s .decData false).decryptChunk nb).complete .ok) := by
  rw [exec_of_completes (completes_aeadDec_iff.mpr ⟨hle, h, by rw [if_neg hnb]; exact hroom⟩), effect, if_neg hnb,
    openCiphertext_of_mayDecrypt h]

theorem exec_aeadDec_of_full (h : mayDecrypt s)
    (hfull : s.pbufBlocks.toNat < s.pbCount.toNat + (if nb = 0 then 0 else 1)) :
    exec (.aeadDec nb) s = .next (s.failMessage.complete .bufferTooSmall) := by
  rw [exec, execAeadDec, if_neg (Nat.not_lt.mpr hle), takesCiphertext_iff.mpr h, pbufHasRoom_eq_false hfull]
  rfl

theorem exec_aeadDec_of_not_mayDecrypt (h : ¬mayDecrypt s) :
    exec (.aeadDec nb) s = .next (s.complete .sequenceError) := by
  simp [exec, execAeadDec, takesCiphertext_eq_false h, Nat.not_lt.mpr hle]

end Chunk

/-- Settles O41: the words, and the branches on AEAD_AAD's condition and on NB = 0. -/
theorem aeadAadCommand : Obligations.AeadAadCommand := by
  refine ⟨onlyChunkWords_of_plainCommand? rfl, fun s nb hle =>
    ⟨decode_encode_of_chunk? (i := .aeadAad nb) rfl hle, ?_, ?_⟩⟩
  · intro hp hb
    have htakes := takesAad_iff.mpr ⟨hp, hb⟩
    refine ⟨exec_aeadAad_of_zero hle htakes, fun hnb => ?_⟩
    rw [exec_aeadAad_of_ne_zero hle htakes hnb, absorbAad_of_partialChunk_eq_false hb]
    rfl
  · intro h
    exact exec_aeadAad_of_takesAad_eq_false hle (Bool.eq_false_iff.mpr (takesAad_iff.not.mpr h))

/-- Settles O42: the words, and the branches on AEAD_ENC's condition and on NB = 0. -/
theorem aeadEncCommand : Obligations.AeadEncCommand := by
  refine ⟨onlyChunkWords_of_plainCommand? rfl, fun s nb hle => ⟨decode_encode_of_chunk? (i := .aeadEnc nb) rfl hle,
    exec_aeadEnc_of_zero hle, fun h hnb => ?_, exec_aeadEnc_of_not_mayEncrypt hle⟩⟩
  rw [exec_aeadEnc_of_ne_zero hle h hnb, State.encryptChunk, notePartial_of_partialChunk_eq_false rfl]
  rfl

/-- Settles O45: the words, and the branches on AEAD_DEC's condition, on the room in PBUF and on NB = 0. -/
theorem aeadDecCommand : Obligations.AeadDecCommand := by
  refine ⟨onlyChunkWords_of_plainCommand? rfl, fun s nb hle => ⟨decode_encode_of_chunk? (i := .aeadDec nb) rfl hle,
    exec_aeadDec_of_zero hle, fun h hroom hnb => ?_, exec_aeadDec_of_full hle, exec_aeadDec_of_not_mayDecrypt hle⟩⟩
  rw [exec_aeadDec_of_ne_zero hle h hroom hnb, State.decryptChunk, notePartial_of_partialChunk_eq_false rfl]
  rfl

/-! ### AEAD_ENC4 (R188) -/

theorem exec_aeadEnc4_of_mayEncrypt (h : mayEncrypt s) : exec .aeadEnc4 s = .next
    (((((inPhase s .encData false).encryptLane 0).encryptLane 1).encryptLane 2).encryptLane 3 |>.complete .ok) := by
  rw [exec_of_completes (completes_aeadEnc4_iff.mpr h), effect, openPlaintext_of_mayEncrypt h]

theorem exec_aeadEnc4_of_not_mayEncrypt (h : ¬mayEncrypt s) :
    exec .aeadEnc4 s = .next (s.complete .sequenceError) := by
  simp [exec, execAeadEnc4, takesPlaintext_eq_false h]

/-- Settles O43: the word's row, and the branches on AEAD_ENC4's condition. -/
theorem aeadEnc4Command : Obligations.AeadEnc4Command := by
  have hdecode : decode 0x00000038 = .instr .aeadEnc4 := rfl
  refine ⟨hdecode, onlyWord_of_decode hdecode rfl, fun s => ⟨fun h => ?_, exec_aeadEnc4_of_not_mayEncrypt⟩⟩
  rw [exec_aeadEnc4_of_mayEncrypt h, encryptLanes_eq]
  rfl

/-! ### AEAD_DEC4 (R191) -/

theorem exec_aeadDec4_of_room (h : mayDecrypt s) (hroom : s.pbCount.toNat + 4 ≤ s.pbufBlocks.toNat) :
    exec .aeadDec4 s = .next
      (((((inPhase s .decData false).decryptLane 0).decryptLane 1).decryptLane 2).decryptLane 3 |>.complete .ok) := by
  rw [exec_of_completes (completes_aeadDec4_iff.mpr ⟨h, hroom⟩), effect, openCiphertext_of_mayDecrypt h]

theorem exec_aeadDec4_of_full (h : mayDecrypt s) (hfull : s.pbufBlocks.toNat < s.pbCount.toNat + 4) :
    exec .aeadDec4 s = .next (s.failMessage.complete .bufferTooSmall) := by
  simp [exec, execAeadDec4, takesCiphertext_iff.mpr h, pbufHasRoom_eq_false hfull]

theorem exec_aeadDec4_of_not_mayDecrypt (h : ¬mayDecrypt s) :
    exec .aeadDec4 s = .next (s.complete .sequenceError) := by
  simp [exec, execAeadDec4, takesCiphertext_eq_false h]

/-- Settles O46: the word's row, and the branches on AEAD_DEC4's condition and on the room in PBUF. -/
theorem aeadDec4Command : Obligations.AeadDec4Command := by
  have hdecode : decode 0x00000039 = .instr .aeadDec4 := rfl
  refine ⟨hdecode, onlyWord_of_decode hdecode rfl,
    fun s => ⟨fun h hroom => ?_, exec_aeadDec4_of_full, exec_aeadDec4_of_not_mayDecrypt⟩⟩
  rw [exec_aeadDec4_of_room h hroom, decryptLanes_eq (s := inPhase s .decData false) hroom]
  rfl

/-! ### AEAD_FINAL (R192) -/

theorem tagMatches_iff : s.tagMatches = true ↔ s.finalTag = maskNb s.taginBlock s.taglenL.toNat := beq_iff_eq

theorem exec_aeadFinal_of_encrypting (h : s.status.phase = .encAad ∨ s.status.phase = .encData) :
    exec .aeadFinal s = .next (s.emitTag.complete .ok) := by
  obtain h | h := h <;> simp [exec, execAeadFinal, h]

theorem exec_aeadFinal_of_match (h : s.status.phase = .decAad ∨ s.status.phase = .decData)
    (htag : s.tagMatches = true) :
    exec .aeadFinal s = .next (s.verified.complete .ok) := by
  obtain h | h := h <;> simp [exec, execAeadFinal, h, htag]

theorem exec_aeadFinal_of_mismatch (h : s.status.phase = .decAad ∨ s.status.phase = .decData)
    (htag : s.tagMatches = false) :
    exec .aeadFinal s = .next (s.closeHash.failMessage.complete .authenticationFailure) := by
  obtain h | h := h <;> simp [exec, execAeadFinal, h, htag]

theorem exec_aeadFinal_of_not_inMsg (h : ¬inMsg s) : exec .aeadFinal s = .next (s.complete .sequenceError) := by
  unfold inMsg at h
  cases hp : s.status.phase <;> simp_all [exec, execAeadFinal]

/-- Settles O47: the word's row, and the branches on the phase and on the comparison. -/
theorem aeadFinalCommand : Obligations.AeadFinalCommand := by
  have hdecode : decode 0x00000035 = .instr .aeadFinal := rfl
  exact ⟨hdecode, onlyWord_of_decode hdecode rfl, fun s =>
    ⟨exec_aeadFinal_of_encrypting, fun h htag => exec_aeadFinal_of_match h (tagMatches_iff.mpr htag),
      fun h htag => exec_aeadFinal_of_mismatch h (Bool.eq_false_iff.mpr (tagMatches_iff.not.mpr htag)),
      exec_aeadFinal_of_not_inMsg⟩⟩

/-! ### AEAD_PT_READ and AEAD_ABORT (R194, R195) -/

theorem hasVerifiedBlock_iff :
    s.hasVerifiedBlock = true ↔ s.status.phase = .decVerified ∧ s.pbRdptr.toNat < s.pbCount.toNat := by
  simp [State.hasVerifiedBlock]

theorem exec_aeadPtRead_of_hasVerifiedBlock (h : s.hasVerifiedBlock = true) :
    exec .aeadPtRead s = .next (s.releaseBlock.complete .ok) := if_pos h

theorem exec_aeadPtRead_of_hasVerifiedBlock_eq_false (h : s.hasVerifiedBlock = false) :
    exec .aeadPtRead s = .next (s.complete .sequenceError) := if_neg (Bool.eq_false_iff.mp h)

/-- Settles O48: the word's row, and the branches on a verified block being left. -/
theorem aeadPtReadCommand : Obligations.AeadPtReadCommand := by
  have hdecode : decode 0x00000036 = .instr .aeadPtRead := rfl
  refine ⟨hdecode, onlyWord_of_decode hdecode rfl, fun s =>
    ⟨fun hp hleft => exec_aeadPtRead_of_hasVerifiedBlock (hasVerifiedBlock_iff.mpr ⟨hp, hleft⟩), fun h => ?_⟩⟩
  refine exec_aeadPtRead_of_hasVerifiedBlock_eq_false (Bool.eq_false_iff.mpr (hasVerifiedBlock_iff.not.mpr ?_))
  rintro ⟨hp, hleft⟩
  exact h.elim (absurd hp) (fun hread => Nat.not_lt.mpr hread hleft)

/-- Settles O49: the word's row, and the command's one effect. -/
theorem aeadAbortCommand : Obligations.AeadAbortCommand := by
  have hdecode : decode 0x00000037 = .instr .aeadAbort := rfl
  exact ⟨hdecode, onlyWord_of_decode hdecode rfl, fun _ => rfl⟩

end Sys2Proof.Machine
end

section
/-!
PROOFS. The partial-block mask as an operation on blocks (spec/00_scope.md R9), and AEAD_ENC4 as four AEAD_ENC nb=16
(spec/44_aead.md R188).
-/

namespace Sys2Proof.Machine

open Sys2Proof.Claims

/-! ### mask_nb -/

@[simp] theorem maskNb_sixteen (b : Block) : maskNb b 16 = b := by
  rw [maskNb_eq_and, Nat.sub_self, Nat.mul_zero, BitVec.shiftLeft_zero, BitVec.and_allOnes]

theorem maskNb_xor (a b : Block) (nb : Nat) : maskNb (a ^^^ b) nb = maskNb a nb ^^^ maskNb b nb := by
  simp only [maskNb_eq_and]
  ext i hi
  simp only [BitVec.getElem_and, BitVec.getElem_xor, Bool.and_xor_distrib_right]

@[simp] theorem maskNb_maskNb (b : Block) (nb : Nat) : maskNb (maskNb b nb) nb = maskNb b nb := by
  simp only [maskNb_eq_and, BitVec.and_assoc, BitVec.and_self]

/-! ### A full chunk -/

/-- R187: a full chunk leaves PARTIAL, and its mask keeps every byte. -/
theorem encryptChunk_sixteen (s : State) : s.encryptChunk 16 = s.encryptLane 0 := by
  have hmask : maskNb (s.dinBlock 0 ^^^ s.encrypt s.ctr) (16 : BitVec 5).toNat = s.dinBlock 0 ^^^ s.encrypt s.ctr :=
    maskNb_sixteen _
  rw [State.encryptChunk, hmask]
  rfl

/-- R187: a full chunk of plaintext, as the operation AEAD_ENC4 repeats. -/
theorem exec_aeadEnc_sixteen {s : State} (h : mayEncrypt s) :
    exec (.aeadEnc 16) s = .next (((inPhase s .encData false).encryptLane 0).complete .ok) := by
  rw [exec_aeadEnc_of_ne_zero (by decide) h (by decide), encryptChunk_sixteen]

/-! ### The four chunks -/

/-- `s` after full chunks of plaintext: what these leave in the parts of the state they write, and DIN as the host wrote it
in between. -/
def State.afterChunks (s : State) (d : Vector (Vector Word 4) 4) (o : Vector Block 4) (x : Block) (n : BitVec 64)
    (ctr : Block) : State :=
  ended (inPhase { s with din := d, dout := o, x := x, ctlen := n, ctr := ctr } .encData false) 0

/-- R187: the chunk after those, on lane `l` of `s`, moved into DIN[0]. -/
theorem exec_aeadEnc_afterChunks (s : State) (l : Fin 4) (d : Vector (Vector Word 4) 4) (o : Vector Block 4) (x : Block)
    (n : BitVec 64) (ctr : Block) :
    exec (.aeadEnc 16) { s.afterChunks d o x n ctr with din := s.din.set 0 s.din[l] } =
      .next (s.afterChunks (s.din.set 0 s.din[l]) (o.set 0 (din s l ^^^ encryptBlock s.rk ctr))
        (gfMul (x ^^^ (din s l ^^^ encryptBlock s.rk ctr)) s.h) (n + 128) (inc32 ctr)) := by
  have hlane : (s.afterChunks (s.din.set 0 s.din[l]) o x n ctr).dinBlock 0 = din s l :=
    congrArg blockOfWords (Vector.getElem_set_self _)
  refine (exec_aeadEnc_sixteen (.inr ⟨rfl, rfl⟩)).trans ?_
  rw [← hlane]
  rfl

/-- Settles O44: the four single commands run under the same four counters, and both ways fold the same four ciphertexts. -/
theorem enc4EqualsFourEnc : Obligations.Enc4EqualsFourEnc := by
  intro s h
  have hfirst : exec (.aeadEnc 16) s = .next (s.afterChunks s.din (s.dout.set 0 (din s 0 ^^^ encryptBlock s.rk s.ctr))
      (gfMul (s.x ^^^ (din s 0 ^^^ encryptBlock s.rk s.ctr)) s.h) (s.ctlen + 128) (inc32 s.ctr)) := exec_aeadEnc_sixteen h
  refine ⟨_, _, _, _, _, hfirst, exec_aeadEnc_afterChunks s 1 .., exec_aeadEnc_afterChunks s 2 ..,
    exec_aeadEnc_afterChunks s 3 .., exec_aeadEnc4_of_mayEncrypt h, ?_⟩
  rw [encryptLanes_eq, ← add_four_blocks]
  simp only [State.afterChunks, ended, inPhase, Vector.getElem_set_self]
  rfl

end Sys2Proof.Machine
end

section
/-!
PROOFS. The phase table of spec/44_aead.md R196, and the two rules that rest on it (R199): DEC_VERIFIED is entered by an equal
tag alone, and every other exit from a decryption discards PBUF.
-/

namespace Sys2Proof.Machine

open Sys2Proof.Claims

/-! ### The cells of the table -/

section Table

variable {s : State} {i : Instr}

/-- R196: a command that completes leaves the phase of its cell. -/
theorem phaseAfter_of_completes (h : completes i s = true) :
    phaseAfter i s.status.phase s.status.partialChunk = some (effect i s).status.phase := by
  cases i with
  | nop | keyExpand | ctxClear | blockEnc | blockDec | batch4Enc | batch4Dec | aeadInitEnc | aeadInitDec | aeadAbort => rfl
  | ghashInit | ghashUpdate | ghashSeth | hashkeyDerive =>
    cases hp : s.status.phase <;> simp_all [completes, phaseAfter, effect, Phase.inMessage]
  | aeadAad nb =>
    obtain ⟨hp | hp, hb⟩ := takesAad_iff.mp (completes_aeadAad_iff.mp h).2 <;>
      by_cases hn : nb = 0#5 <;> simp [phaseAfter, effect, hp, hb, hn]
  | aeadEnc nb =>
    obtain hp | ⟨hp, hb⟩ := (completes_aeadEnc_iff.mp h).2 <;>
      by_cases hn : nb = 0#5 <;> simp [phaseAfter, effect, *]
  | aeadEnc4 =>
    obtain hp | ⟨hp, hb⟩ := completes_aeadEnc4_iff.mp h <;> simp [phaseAfter, effect, *]
  | aeadDec nb =>
    obtain hp | ⟨hp, hb⟩ := (completes_aeadDec_iff.mp h).2.1 <;>
      by_cases hn : nb = 0#5 <;> simp [phaseAfter, effect, *]
  | aeadDec4 =>
    obtain hp | ⟨hp, hb⟩ := (completes_aeadDec4_iff.mp h).1 <;> simp [phaseAfter, effect, *]
  | aeadFinal => cases hp : s.status.phase <;> simp_all [completes, phaseAfter, effect]
  | aeadPtRead =>
    obtain ⟨hp, -⟩ := hasVerifiedBlock_iff.mp h
    simp [phaseAfter, effect, hp]

/-- R34: the dashes of the commands that are illegal in a message. -/
theorem inMsg_of_phaseAfter (h : phaseAfter .ghashInit s.status.phase s.status.partialChunk = none) : inMsg s := by
  unfold inMsg
  cases hp : s.status.phase <;> simp_all [phaseAfter]

/-- R186: the dashes of AEAD_AAD. -/
theorem takesAad_of_phaseAfter {nb : BitVec 5}
    (h : phaseAfter (.aeadAad nb) s.status.phase s.status.partialChunk = none) : s.takesAad = false := by
  refine Bool.eq_false_iff.mpr fun htakes => ?_
  obtain ⟨hp | hp, hb⟩ := takesAad_iff.mp htakes <;> simp [phaseAfter, hp, hb] at h

/-- R187, R188: the dashes of AEAD_ENC and AEAD_ENC4. -/
theorem not_mayEncrypt_of_phaseAfter (h : phaseAfter .aeadEnc4 s.status.phase s.status.partialChunk = none) :
    ¬mayEncrypt s := by
  rintro (hp | ⟨hp, hb⟩) <;> simp [phaseAfter, *] at h

/-- R190, R191: the dashes of AEAD_DEC and AEAD_DEC4. -/
theorem not_mayDecrypt_of_phaseAfter (h : phaseAfter .aeadDec4 s.status.phase s.status.partialChunk = none) :
    ¬mayDecrypt s := by
  rintro (hp | ⟨hp, hb⟩) <;> simp [phaseAfter, *] at h

/-- R192: the dashes of AEAD_FINAL. -/
theorem not_inMsg_of_phaseAfter (h : phaseAfter .aeadFinal s.status.phase s.status.partialChunk = none) : ¬inMsg s := by
  rintro (hp | hp | hp | hp) <;> simp [phaseAfter, hp] at h

/-- R194: the dashes of AEAD_PT_READ. -/
theorem hasVerifiedBlock_of_phaseAfter (h : phaseAfter .aeadPtRead s.status.phase s.status.partialChunk = none) :
    s.hasVerifiedBlock = false := by
  refine Bool.eq_false_iff.mpr fun hread => ?_
  simp [phaseAfter, (hasVerifiedBlock_iff.mp hread).1] at h

/-- R92: the meaning of a chunk length no word encodes. -/
theorem exec_of_wellFormed_eq_false (h : i.wellFormed = false) : exec i s = .next (s.complete .illegalCommand) := by
  cases i with
  | aeadAad nb | aeadEnc nb | aeadDec nb => exact if_pos (Nat.lt_of_not_le (of_decide_eq_false h))
  | _ => cases h

/-- R196, R233: at a dash a well-formed command raises SEQUENCE_ERROR, but for KEY_NOT_LOADED before it. -/
theorem exec_of_phaseAfter_eq_none (hwf : i.wellFormed = true)
    (h : phaseAfter i s.status.phase s.status.partialChunk = none) :
    exec i s = .next (s.complete .sequenceError) ∨
      (i = .hashkeyDerive ∧ s.status.keyValid = false ∧ exec i s = .next (s.complete .keyNotLoaded)) := by
  cases i with
  | nop | keyExpand | ctxClear | blockEnc | blockDec | batch4Enc | batch4Dec | aeadInitEnc | aeadInitDec | aeadAbort =>
    cases h
  | ghashInit => exact .inl (exec_ghashInit_of_inMsg (inMsg_of_phaseAfter h))
  | ghashUpdate => exact .inl (exec_ghashUpdate_of_inMsg (inMsg_of_phaseAfter h))
  | ghashSeth => exact .inl (exec_ghashSeth_of_inMsg (inMsg_of_phaseAfter h))
  | hashkeyDerive =>
    cases hk : s.status.keyValid with
    | true => exact .inl (exec_hashkeyDerive_of_inMsg (inMsg_of_phaseAfter h) hk)
    | false => exact .inr ⟨rfl, rfl, exec_hashkeyDerive_of_keyValid_eq_false hk⟩
  | aeadAad nb => exact .inl (exec_aeadAad_of_takesAad_eq_false (of_decide_eq_true hwf) (takesAad_of_phaseAfter h))
  | aeadEnc nb => exact .inl (exec_aeadEnc_of_not_mayEncrypt (of_decide_eq_true hwf) (not_mayEncrypt_of_phaseAfter h))
  | aeadDec nb => exact .inl (exec_aeadDec_of_not_mayDecrypt (of_decide_eq_true hwf) (not_mayDecrypt_of_phaseAfter h))
  | aeadFinal => exact .inl (exec_aeadFinal_of_not_inMsg (not_inMsg_of_phaseAfter h))
  | aeadPtRead => exact .inl (exec_aeadPtRead_of_hasVerifiedBlock_eq_false (hasVerifiedBlock_of_phaseAfter h))
  | aeadEnc4 => exact .inl (exec_aeadEnc4_of_not_mayEncrypt (not_mayEncrypt_of_phaseAfter h))
  | aeadDec4 => exact .inl (exec_aeadDec4_of_not_mayDecrypt (not_mayDecrypt_of_phaseAfter h))

end Table

/-- R230: code 0 is that of no error. -/
theorem code_eq_zero_iff {e : ErrCode} : e.code = 0 ↔ e = .ok := by cases e <;> decide

/-- A command that ends with ERR = 0 has had its effect. -/
theorem exec_eq_effect_of_err_eq_zero {i : Instr} {s t : State} (h : exec i s = .next t) (herr : t.status.err = 0) :
    completes i s = true ∧ t = (effect i s).complete .ok := by
  cases hc : completes i s with
  | true => exact ⟨rfl, (Host.Outcome.next.inj ((exec_of_completes hc).symm.trans h)).symm⟩
  | false =>
    obtain ⟨e, hne, -, -, he⟩ | ⟨-, -, he⟩ | ⟨-, -, -, he⟩ := exec_of_not_completes hc <;> rw [he] at h <;> cases h
    · exact absurd (code_eq_zero_iff.mp herr) hne
    · exact absurd (code_eq_zero_iff (e := .bufferTooSmall).mp herr) nofun
    · exact absurd (code_eq_zero_iff (e := .authenticationFailure).mp herr) nofun

/-- Settles O50: the effects leave the phases of the table's cells, and at a dash the command has none. -/
theorem phaseTable : Obligations.PhaseTable := by
  intro i s t h
  refine ⟨fun herr => ?_, fun hdash => ?_⟩
  · obtain ⟨hc, rfl⟩ := exec_eq_effect_of_err_eq_zero h herr
    exact phaseAfter_of_completes hc
  · cases hwf : i.wellFormed with
    | false =>
      rw [exec_of_wellFormed_eq_false hwf] at h
      cases h
      exact ⟨rfl, .inr (.inr ⟨rfl, rfl⟩)⟩
    | true =>
      obtain he | ⟨hi, hk, he⟩ := exec_of_phaseAfter_eq_none hwf hdash <;> rw [he] at h <;> cases h
      · exact ⟨rfl, .inl rfl⟩
      · exact ⟨rfl, .inr (.inl ⟨hi, hk, rfl⟩)⟩

/-! ### The steps that are not a command's -/

/-- A write at an offset changes neither the phase nor DOUT. -/
theorem writeAt_keeps_phase_and_dout (s : State) (off : Nat) (v : Word) :
    (s.writeAt off v).status.phase = s.status.phase ∧ (s.writeAt off v).dout = s.dout := by
  obtain h | h | h | ⟨key, nonce, tagin, din, hkeyin, h⟩ := writeAt_cases s off v <;> rw [h] <;> exact ⟨rfl, rfl⟩

/-- A step executes the pending word's command, or resets the core, or changes neither the phase nor DOUT. -/
theorem step_runs_or_keeps {s t : State} (h : step s = .next t) :
    (∃ i, i.wellFormed = true ∧ s.pending = some (encode i) ∧ exec i s.advance = .next t) ∨
      (∃ rest, s.host.schedule = .reset :: rest ∧ t = s.advance.resetCore) ∨
      (t.status.phase = s.status.phase ∧ t.dout = s.dout) := by
  obtain ⟨w, -, hp, hw⟩ | ⟨-, -, rfl⟩ | ⟨a, rest, v, d, -, rfl⟩ | ⟨a, v, rest, -, ⟨-, rfl⟩ | ⟨-, rfl⟩⟩ | hreset :=
    step_cases h
  · obtain ⟨i, hd, hi⟩ | ⟨r, -, rfl⟩ := runWord_next hw
    · obtain ⟨hwf, rfl⟩ := wellFormed_and_encode_of_decode hd
      exact .inl ⟨i, hwf, hp, hi⟩
    · exact .inr (.inr ⟨rfl, rfl⟩)
  · exact .inr (.inr ⟨rfl, rfl⟩)
  · exact .inr (.inr ⟨rfl, rfl⟩)
  · exact .inr (.inr ⟨rfl, rfl⟩)
  · exact .inr (.inr (writeAt_keeps_phase_and_dout s.advance a.off v))
  · exact .inr (.inl hreset)

/-! ### Only an equal tag verifies -/

/-- R196: DEC_VERIFIED in a cell of another phase's column is AEAD_FINAL's. -/
theorem eq_aeadFinal_of_phaseAfter {i : Instr} {ph : Phase} {p : Bool} (h : phaseAfter i ph p = some .decVerified)
    (hph : ph ≠ .decVerified) : i = .aeadFinal ∧ (ph = .decAad ∨ ph = .decData) := by
  cases i with
  | nop | blockEnc | blockDec | batch4Enc | batch4Dec => exact absurd (Option.some.inj h) hph
  | keyExpand | ctxClear | aeadAbort | aeadInitEnc | aeadInitDec => cases h
  | ghashInit | ghashUpdate | ghashSeth | hashkeyDerive | aeadPtRead =>
    cases ph with
    | decVerified => exact absurd rfl hph
    | _ => cases h
  | aeadAad | aeadEnc | aeadEnc4 | aeadDec | aeadDec4 => cases ph <;> cases p <;> cases h
  | aeadFinal =>
    cases ph with
    | decAad => exact ⟨rfl, .inl rfl⟩
    | decData => exact ⟨rfl, .inr rfl⟩
    | _ => cases h

/-- R192, R199: a command that enters DEC_VERIFIED is an AEAD_FINAL whose tag compared equal. -/
theorem exec_enters_decVerified {i : Instr} {s t : State} (h : exec i s = .next t) (ht : t.status.phase = .decVerified)
    (hs : s.status.phase ≠ .decVerified) :
    i = .aeadFinal ∧ (s.status.phase = .decAad ∨ s.status.phase = .decData) ∧ s.tagMatches = true := by
  obtain ⟨e, rfl⟩ | ⟨-, rfl⟩ | ⟨-, rfl⟩ | ⟨hc, rfl⟩ := exec_cases h
  · exact absurd ht hs
  · cases ht
  · cases ht
  · obtain ⟨rfl, hp⟩ := eq_aeadFinal_of_phaseAfter ((phaseAfter_of_completes hc).trans (congrArg some ht)) hs
    refine ⟨rfl, hp, ?_⟩
    obtain hp | hp := hp <;> simpa [completes, hp] using hc

/-- Settles O56: only an AEAD_FINAL enters DEC_VERIFIED, and it compared the tags. -/
theorem onlyAnEqualTagVerifies : Obligations.OnlyAnEqualTagVerifies := by
  intro s t h ht hs
  obtain ⟨i, -, hpending, hi⟩ | ⟨rest, -, rfl⟩ | ⟨hp, -⟩ := step_runs_or_keeps h
  · obtain ⟨rfl, hp, htag⟩ := exec_enters_decVerified hi ht hs
    exact ⟨hpending, hp, tagMatches_iff.mp htag⟩
  · cases ht
  · exact absurd (hp.symm.trans ht) hs

/-! ### A decryption fails closed -/

/-- R189: no buffered plaintext. -/
def NoPlaintext (s : State) : Prop := (∀ k, s.pbuf.get k = 0) ∧ s.pbCount = 0 ∧ s.pbRdptr = 0

/-- R196: the commands with a cell in the columns of a decryption that leads out of it, unverified. -/
theorem phaseAfter_of_decrypting {i : Instr} {ph ph' : Phase} {p : Bool} (hph : ph = .decAad ∨ ph = .decData)
    (h : phaseAfter i ph p = some ph') :
    ph' ∈ [.decAad, .decData, .decVerified] ∨ i ∈ [.keyExpand, .ctxClear, .aeadInitEnc, .aeadAbort] := by
  cases i with
  | keyExpand | ctxClear | aeadInitEnc | aeadAbort => simp
  | nop | blockEnc | blockDec | batch4Enc | batch4Dec | aeadInitDec | aeadFinal =>
    obtain rfl | rfl := hph <;> cases h <;> simp
  | ghashInit | ghashUpdate | ghashSeth | hashkeyDerive | aeadPtRead => obtain rfl | rfl := hph <;> cases h
  | aeadAad | aeadEnc | aeadEnc4 | aeadDec | aeadDec4 => obtain rfl | rfl := hph <;> cases p <;> cases h <;> simp

/-- R196: the commands that write DOUT with no cell in the columns of a decryption. -/
theorem writes_no_dout_of_phaseAfter {i : Instr} {ph ph' : Phase} {p : Bool} (hph : ph = .decAad ∨ ph = .decData)
    (h : phaseAfter i ph p = some ph') : i ≠ .aeadEnc4 ∧ i ≠ .aeadPtRead ∧ ∀ nb, i ≠ .aeadEnc nb := by
  refine ⟨?_, ?_, fun nb => ?_⟩ <;> rintro rfl <;> obtain rfl | rfl := hph <;> cases h

section Decrypting

variable {i : Instr} {s t : State} (hs : s.status.phase = .decAad ∨ s.status.phase = .decData)
include hs

/-- R199: a command that completes in a decryption goes on with it, verifies it, or discards PBUF. -/
theorem effect_of_decrypting (hc : completes i s = true) :
    (effect i s).status.phase ∈ [.decAad, .decData, .decVerified] ∨ NoPlaintext (effect i s) := by
  obtain h | h := phaseAfter_of_decrypting hs (phaseAfter_of_completes hc)
  · exact .inl h
  · refine .inr ?_
    obtain rfl | rfl | rfl | rfl : i = .keyExpand ∨ i = .ctxClear ∨ i = .aeadInitEnc ∨ i = .aeadAbort := by simpa using h
    all_goals exact ⟨fun _ => rfl, rfl, rfl⟩

/-- R199: a command that leaves a decryption unverified discards PBUF. -/
theorem exec_discards_of_decrypting (h : exec i s = .next t) (ht : t.status.phase ∉ [.decAad, .decData, .decVerified]) :
    NoPlaintext t := by
  obtain ⟨e, rfl⟩ | ⟨-, rfl⟩ | ⟨-, rfl⟩ | ⟨hc, rfl⟩ := exec_cases h
  · exact absurd (by rcases hs with hp | hp <;> simp [hp]) ht
  · exact ⟨fun _ => rfl, rfl, rfl⟩
  · exact ⟨fun _ => rfl, rfl, rfl⟩
  · exact (effect_of_decrypting hs hc).resolve_left ht

/-- R199: in a decryption DOUT is written by the block commands and CTX_CLEAR alone: its other writers stand at a dash. -/
theorem exec_dout_of_decrypting (hwf : i.wellFormed = true) (h : exec i s = .next t)
    (hi : i ∉ [.ctxClear, .blockEnc, .blockDec, .batch4Enc, .batch4Dec]) : t.dout = s.dout := by
  cases hcell : phaseAfter i s.status.phase s.status.partialChunk with
  | none =>
    obtain he | ⟨-, -, he⟩ := exec_of_phaseAfter_eq_none hwf hcell <;> rw [he] at h <;> cases h <;> rfl
  | some ph =>
    obtain ⟨henc4, hread, henc⟩ := writes_no_dout_of_phaseAfter hs hcell
    obtain ⟨-, -, -, -, -, -, hdout, -⟩ := writersOfTheState i s t h
    exact hdout (by simp_all) fun nb _ => henc nb

end Decrypting

/-- Settles O57: a command in a decryption discards PBUF or goes on, and DOUT's writers but those named need another phase. -/
theorem failClosed : Obligations.FailClosed := by
  intro s t h hs
  obtain ⟨i, hwf, hpending, hi⟩ | ⟨rest, hreset, rfl⟩ | ⟨hp, hdout⟩ := step_runs_or_keeps h
  · refine ⟨fun haad hdata hver => ?_, fun _ hw => ?_⟩
    · exact exec_discards_of_decrypting (s := s.advance) hs hi (by simp [haad, hdata, hver])
    · refine exec_dout_of_decrypting (s := s.advance) hs hwf hi fun hmem => hw ?_
      rw [hpending]
      exact List.mem_map_of_mem (f := fun i => some (encode i)) hmem
  · exact ⟨fun _ _ _ => ⟨fun _ => rfl, rfl, rfl⟩, fun hne => absurd hreset (hne rest)⟩
  · refine ⟨fun haad hdata => ?_, fun _ _ => hdout⟩
    rw [hp] at haad hdata
    exact absurd hs (by simp [haad, hdata])

end Sys2Proof.Machine
end

section
/-!
PROOFS. An encrypting and a decrypting core at the same point of a message stay there (spec/44_aead.md R183, R200): the
ciphertext of one gives back the plaintext in the other, and the tag of one verifies in the other.
-/

namespace Sys2Proof.Machine

open Sys2Proof.Claims

/-! ### The ciphertext on its way from one core to the other -/

/-- The ciphertext AEAD_ENC puts out for the chunk in DIN[0] (R187). -/
def State.cipherChunk (s : State) (nb : BitVec 5) : Block := maskNb (s.dinBlock 0 ^^^ s.encrypt s.ctr) nb.toNat

/-- The state with the words of a block in DIN[0] (R37). -/
def State.stageBlock (s : State) (b : Block) : State := s.stage (Vector.ofFn fun w : Fin 4 => wordOf b w)

/-- R187, R190: a ciphertext chunk is masked already, so the mask of AEAD_DEC leaves it. -/
theorem stageBlock_cipherChunk_chunk (e d : State) (nb : BitVec 5) :
    (d.stageBlock (e.cipherChunk nb)).chunk nb = e.cipherChunk nb := by
  rw [State.chunk, State.stageBlock, State.stage_dinBlock_zero, blockOfWords_ofFn_wordOf, State.cipherChunk, maskNb_maskNb]

/-- R9, R187, R190: the key stream comes off under the mask. -/
theorem maskNb_xor_cancel (b k : Block) (nb : Nat) : maskNb (maskNb (b ^^^ k) nb ^^^ k) nb = maskNb b nb := by
  rw [maskNb_xor, maskNb_maskNb, ← maskNb_xor, BitVec.xor_assoc, BitVec.xor_self, BitVec.xor_zero]

/-! ### What a core does in a message, in terms of the other's state -/

section Mirrored

variable {e d : State} (hm : Mirror e d)
include hm

theorem Mirror.mayDecrypt (h : mayEncrypt e) : mayDecrypt d := by
  obtain ⟨he, hd⟩ | ⟨he, hd⟩ := hm.phases
  · exact .inl hd
  · exact .inr ⟨hd, hm.partials.trans (h.resolve_left (by simp [he])).2⟩

theorem Mirror.keystream : d.encrypt d.ctr = e.encrypt e.ctr := by
  rw [State.encrypt, State.encrypt, hm.rk, hm.ctr]

theorem Mirror.finalTag : d.finalTag = e.finalTag := by
  simp only [State.finalTag, State.finalHash, State.lengthBlock, State.encrypt, hm.rk, hm.h, hm.x, hm.j0, hm.aadlen,
    hm.ctlen, hm.taglenL]

theorem Mirror.complete (c c' : ErrCode) : Mirror (e.complete c) (d.complete c') := { hm with }

/-- R186: both cores take the same chunk of associated data. -/
theorem Mirror.absorbAad (nb : BitVec 5) (hdin : d.dinBlock 0 = e.dinBlock 0) :
    Mirror (e.absorbAad nb) (d.absorbAad nb) :=
  { hm with
    partials := by simp [hm.partials]
    x := by simp [State.chunk, hm.x, hm.h, hdin]
    aadlen := by simp [hm.aadlen] }

/-- R187, R190: both cores absorb the ciphertext one of them put out. -/
theorem Mirror.dataChunk (nb : BitVec 5) : Mirror ((inPhase e .encData false).encryptChunk nb)
    ((inPhase (d.stageBlock (e.cipherChunk nb)) .decData false).decryptChunk nb) :=
  { hm with
    phases := .inr ⟨rfl, rfl⟩
    partials := rfl
    x := by
      have hx : gfMul (d.x ^^^ (d.stageBlock (e.cipherChunk nb)).chunk nb) d.h = gfMul (e.x ^^^ e.cipherChunk nb) e.h := by
        rw [hm.x, hm.h, stageBlock_cipherChunk_chunk]
      exact hx
    ctr := congrArg inc32 hm.ctr
    ctlen := congrArg (· + chunkBits nb) hm.ctlen }

end Mirrored

/-- Settles O59: both cores absorb the same ciphertext, and the key stream that hid the plaintext comes off. -/
theorem roundTripOfAChunk : Obligations.RoundTripOfAChunk := by
  intro e d nb hm hle hnb he hroom
  have hout : (((inPhase e .encData false).encryptChunk nb).complete .ok).dout[0] = e.cipherChunk nb :=
    Vector.getElem_set_self _
  have hplain :
      maskNb ((d.stageBlock (e.cipherChunk nb)).chunk nb ^^^ d.encrypt d.ctr) nb.toNat = maskNb (din e 0) nb.toNat := by
    rw [stageBlock_cipherChunk_chunk, hm.keystream]
    exact maskNb_xor_cancel ..
  refine ⟨_, ((inPhase (d.stageBlock (e.cipherChunk nb)) .decData false).decryptChunk nb).complete .ok,
    exec_aeadEnc_of_ne_zero hle he hnb, ?_, rfl, rfl, (hm.dataChunk nb).complete .ok .ok, toNat_pbCount_succ hroom,
    congrArg (d.pbuf.put d.pbCount.toNat) hplain⟩
  rw [hout]
  exact exec_aeadDec_of_ne_zero (s := d.stageBlock (e.cipherChunk nb)) hle (hm.mayDecrypt he) hroom hnb

/-- Settles O60: the cores fold the same associated data, and then compute the same tag. -/
theorem roundTripOfTheTag : Obligations.RoundTripOfTheTag := by
  intro e d hm
  refine ⟨fun nb hle hp hb hdin => ?_, ?_⟩
  · have he : e.takesAad = true := takesAad_iff.mpr ⟨.inl hp, hb⟩
    have hdp : d.status.phase = .decAad := (hm.phases.resolve_right (by simp [hp])).2
    have hd : d.takesAad = true := takesAad_iff.mpr ⟨.inr hdp, hm.partials.trans hb⟩
    by_cases hnb : nb = 0
    · exact ⟨_, _, exec_aeadAad_of_zero hle he hnb, exec_aeadAad_of_zero hle hd hnb, rfl, rfl, hm.complete _ _⟩
    · exact ⟨_, _, exec_aeadAad_of_ne_zero hle he hnb, exec_aeadAad_of_ne_zero hle hd hnb, rfl, rfl,
        (hm.absorbAad nb hdin).complete _ _⟩
  · have hep : e.status.phase = .encAad ∨ e.status.phase = .encData := hm.phases.imp And.left And.left
    have hdp : d.status.phase = .decAad ∨ d.status.phase = .decData := hm.phases.imp And.right And.right
    have htag : State.tagMatches { d with tagin := Vector.ofFn fun k : Fin 4 => wordOf e.finalTag k } = true := by
      rw [tagMatches_iff]
      calc d.finalTag = maskNb e.finalTag d.taglenL.toNat := by rw [hm.finalTag, hm.taglenL, State.finalTag, maskNb_maskNb]
        _ = maskNb (blockOfWords (Vector.ofFn fun k : Fin 4 => wordOf e.finalTag k)) d.taglenL.toNat := by
          rw [blockOfWords_ofFn_wordOf]
    exact ⟨_, _, exec_aeadFinal_of_encrypting hep, rfl, exec_aeadFinal_of_match hdp htag, rfl, rfl, rfl, rfl⟩

end Sys2Proof.Machine
end

section
/-!
PROOFS. The control commands of spec/45_control.md: NOP (R220) and CTX_CLEAR (R221).
-/

namespace Sys2Proof.Machine

/-- R220: NOP has no condition and no effect but its completion. -/
theorem exec_nop (s : State) : exec .nop s = .next (s.complete .ok) := exec_of_completes rfl

/-- R221: CTX_CLEAR has no condition. -/
theorem exec_ctxClear (s : State) : exec .ctxClear s = .next (s.clearContext.complete .ok) := exec_of_completes rfl

/-- R221: a completed CTX_CLEAR is the reset of the core but for CMD, CFG, OVR, DONE and ERR. That no word is pending in
either state is the work of the completion, not of the clearing. -/
theorem complete_clearContext_eq_resetCore (s : State) : s.clearContext.complete .ok = { s.resetCore with
    cmd := s.cmd
    cfg := s.cfg
    status := { State.reset.status with ovr := s.status.ovr, done := true, err := ErrCode.ok.code } } := rfl

/-- Settles O32: the word's one row, and the command that only completes. -/
theorem nopCommand : Obligations.NopCommand := by
  have hdecode : decode 0x00000000 = .instr .nop := rfl
  exact ⟨hdecode, onlyWord_of_decode hdecode rfl, exec_nop⟩

/-- Settles O34: the word's one row, and the reset of the core that keeps CMD, CFG and OVR. -/
theorem ctxClearCommand : Obligations.CtxClearCommand := by
  have hdecode : decode 0x00000002 = .instr .ctxClear := rfl
  refine ⟨hdecode, onlyWord_of_decode hdecode rfl, fun s => ?_⟩
  rw [exec_ctxClear, complete_clearContext_eq_resetCore]
  rfl

end Sys2Proof.Machine
end

section
/-!
PROOFS. The invariants of R237 (spec/60_exceptions.md; `State.Inv`): they hold at reset and every step keeps them. One rule for
each kind of update, then the commands' effects and errors and the host's accesses as compositions of these.
-/

namespace Sys2Proof.Machine

/-- R34: DEC_VERIFIED is past the message. -/
theorem Phase.ne_decVerified_of_inMessage {p : Phase} (h : p.inMessage = true) : p ≠ .decVerified := by
  rintro rfl; cases h

namespace State.Inv

/-! ### What the invariants say of a phase -/

section Phases

variable {s : State} (hs : s.Inv)

include hs

/-- Item 3. -/
theorem authOk_eq_false (hp : s.status.phase ≠ .decVerified) : s.status.authOk = false :=
  Bool.eq_false_iff.mpr (mt hs.authOkIffVerified.mp hp)

/-- Item 5. -/
theorem pbCount_eq_zero (hd : s.status.phase ≠ .decData) (hv : s.status.phase ≠ .decVerified) : s.pbCount.toNat = 0 :=
  Nat.eq_zero_of_not_pos fun h => (hs.plaintextOnlyInDecryption h).elim hd hv

end Phases

/-! ### The rules, one for each kind of update -/

/-- A state outside a message that has no verified plaintext to release meets items 1 to 5 and 7 whatever its keys and
counters are. -/
theorem of_closed {t : State} (hp : t.status.phase.inMessage = false) (hv : t.status.phase ≠ .decVerified)
    (hpartial : t.status.partialChunk = false) (hauth : t.status.authOk = false) (hcount : t.pbCount.toNat = 0)
    (hread : t.pbRdptr.toNat ≤ t.pbCount.toNat) (hbusy : t.busy = true → t.status.done = false) : t.Inv where
  messageHasKeys := fun h => absurd (hp.symm.trans h) nofun
  partialInMessage := fun h => absurd (hpartial.symm.trans h) nofun
  authOkIffVerified := iff_of_false (ne_true_of_eq_false hauth) hv
  readWithinCount := hread
  countWithinCapacity := hcount ▸ Nat.zero_le _
  plaintextOnlyInDecryption := fun h => absurd hcount (Nat.ne_of_gt h)
  busyNotDone := hbusy
  counterKeepsNonce := fun h => absurd (hp.symm.trans h) nofun

/-- R260: nothing is asked of the state before RESET. -/
theorem resetCore (s : State) : s.resetCore.Inv := of_closed rfl nofun rfl rfl rfl (Nat.le_refl 0) nofun

variable {s : State} (hs : s.Inv)

include hs

/-- `State.Inv` does not speak of CFG, the staging registers, DOUT, the running hash and lengths, OVR or the host's side. -/
theorem write_unconstrained (cfg : Cfg) (key : Vector Word 4) (nonce : Vector Word 3) (tagin hkeyin : Vector Word 4)
    (din : Vector (Vector Word 4) 4) (dout : Vector Block 4) (x : Block) (aadlen ctlen : BitVec 64) (host : HostSide)
    (ovr : Bool) :
    State.Inv { s with
      cfg := cfg, key := key, nonce := nonce, tagin := tagin, hkeyin := hkeyin, din := din, dout := dout, x := x,
      aadlen := aadlen, ctlen := ctlen, host := host, status := { s.status with ovr := ovr } } :=
  { hs with }

/-- R231: BUSY = 0 with DONE = 1. -/
theorem complete (e : ErrCode) : (s.complete e).Inv :=
  { hs with
    busyNotDone := nofun }

/-- R24: BUSY = 1 with DONE = 0. -/
theorem issue (w : Word) : (s.issue w).Inv :=
  { hs with
    busyNotDone := fun _ => rfl }

/-- R167, R168: H_VALID is set, in whatever phase. -/
theorem loadH (b : Block) : (s.loadH b).Inv :=
  { hs with
    messageHasKeys := fun h => ⟨(hs.messageHasKeys h).1, rfl⟩ }

/-- R183: only the low word of CTR is counted up. -/
theorem absorb (c : Block) (bits : BitVec 64) : (s.absorb c bits).Inv :=
  { hs with
    counterKeepsNonce := fun h => (inc32_high s.ctr).trans (hs.counterKeepsNonce h) }

/-- R186, R187, R190: PARTIAL is set within a message. -/
theorem notePartial (hp : s.status.phase.inMessage = true) (nb : BitVec 5) : (s.notePartial nb).Inv :=
  { hs with
    partialInMessage := fun _ => hp }

/-- R187, R190: the first data chunk's phase follows one without plaintext. -/
theorem openData (hin : s.status.phase.inMessage = true) (hd : s.status.phase ≠ .decData) {p : Phase}
    (hp : p.inMessage = true) : (Claims.inPhase s p false).Inv :=
  have hv := Phase.ne_decVerified_of_inMessage hin
  { hs with
    messageHasKeys := fun _ => hs.messageHasKeys hin
    partialInMessage := nofun
    authOkIffVerified := iff_of_false (ne_true_of_eq_false (hs.authOk_eq_false hv)) (Phase.ne_decVerified_of_inMessage hp)
    plaintextOnlyInDecryption := fun h => absurd (hs.pbCount_eq_zero hd hv) (Nat.ne_of_gt h)
    counterKeepsNonce := fun _ => hs.counterKeepsNonce hin }

/-- R190: a block is appended below the capacity, so PB_COUNT does not wrap. -/
theorem pushPlain (hp : s.status.phase = .decData) (hroom : s.pbCount.toNat < s.pbufBlocks.toNat) (b : Block) :
    (s.pushPlain b).Inv :=
  have hcount : (s.pushPlain b).pbCount.toNat = s.pbCount.toNat + 1 := toNat_pbCount_succ hroom
  { hs with
    readWithinCount := hcount ▸ Nat.le_succ_of_le hs.readWithinCount
    countWithinCapacity := hcount ▸ hroom
    plaintextOnlyInDecryption := fun _ => .inl hp }

/-- R194: PB_RDPTR stays within PB_COUNT, so it does not wrap either. -/
theorem releaseBlock (h : s.pbRdptr.toNat < s.pbCount.toNat) : s.releaseBlock.Inv :=
  { hs with
    readWithinCount := by
      have hread : (s.pbRdptr + 1).toNat = s.pbRdptr.toNat + 1 := BitVec.toNat_add_of_lt (by simp; omega)
      exact hread ▸ h }

/-- R184, R185: both keys are loaded, and CTR and J0 are of one nonce. -/
theorem startMessage (hk : s.status.keyValid = true) {p : Phase} (hp : p.inMessage = true) :
    (s.startMessage p).Inv where
  messageHasKeys := fun _ => ⟨hk, rfl⟩
  partialInMessage := fun _ => hp
  authOkIffVerified := iff_of_false nofun (Phase.ne_decVerified_of_inMessage hp)
  readWithinCount := Nat.le_refl 0
  countWithinCapacity := Nat.zero_le _
  plaintextOnlyInDecryption := nofun
  busyNotDone := hs.busyNotDone
  counterKeepsNonce := fun _ => inc32_high _

/-- R190 to R192: the message is given up, and AUTH_OK was 0 in it. -/
theorem failMessage (hp : s.status.phase.inMessage = true) : s.failMessage.Inv :=
  of_closed rfl nofun rfl (hs.authOk_eq_false (Phase.ne_decVerified_of_inMessage hp)) rfl (Nat.le_refl 0) hs.busyNotDone

/-- R192. -/
theorem closeHash : s.closeHash.Inv :=
  { hs with
    partialInMessage := nofun }

/-- R192: an encryption ends without plaintext in PBUF. -/
theorem emitTag (hin : s.status.phase.inMessage = true) (hd : s.status.phase ≠ .decData) : s.emitTag.Inv :=
  have hv := Phase.ne_decVerified_of_inMessage hin
  of_closed rfl nofun rfl (hs.authOk_eq_false hv) (hs.pbCount_eq_zero hd hv) hs.readWithinCount hs.busyNotDone

/-- R192: AUTH_OK and DEC_VERIFIED come together, and the plaintext stays. -/
theorem verified : s.verified.Inv :=
  { hs with
    messageHasKeys := nofun
    partialInMessage := nofun
    authOkIffVerified := ⟨fun _ => rfl, fun _ => rfl⟩
    plaintextOnlyInDecryption := fun _ => .inr rfl
    counterKeepsNonce := nofun }

/-! ### The effects of the commands -/

theorem openPlaintext : s.openPlaintext.Inv := by
  unfold State.openPlaintext
  split
  case isTrue hp => exact hs.openData (by rw [hp]; rfl) (by rw [hp]; nofun) rfl
  case isFalse => exact hs

theorem openCiphertext : s.openCiphertext.Inv := by
  unfold State.openCiphertext
  split
  case isTrue hp => exact hs.openData (by rw [hp]; rfl) (by rw [hp]; nofun) rfl
  case isFalse => exact hs

theorem absorbAad (hp : s.takesAad = true) (nb : BitVec 5) : (s.absorbAad nb).Inv := by
  have hin : s.status.phase.inMessage = true := by obtain ⟨h | h, -⟩ := takesAad_iff.mp hp <;> rw [h] <;> rfl
  exact (hs.write_unconstrained .. : State.Inv { s.fold (s.chunk nb) with aadlen := _ }).notePartial hin nb

theorem emitCipher (l : Fin 4) (c : Block) (bits : BitVec 64) : (s.emitCipher l c bits).Inv :=
  (hs.write_unconstrained .. : (s.putDout l c).Inv).absorb c bits

theorem encryptLane (l : Fin 4) : (s.encryptLane l).Inv := hs.emitCipher l _ _

theorem encryptChunk (hp : s.status.phase = .encData) (nb : BitVec 5) : (s.encryptChunk nb).Inv :=
  (hs.emitCipher 0 _ _).notePartial (congrArg Phase.inMessage hp) nb

theorem decryptChunk (hp : s.status.phase = .decData) (hroom : s.pbufHasRoom 1 = true) (nb : BitVec 5) :
    (s.decryptChunk nb).Inv :=
  ((hs.pushPlain hp (pbufHasRoom_iff.mp hroom) _).absorb _ _).notePartial (congrArg Phase.inMessage hp) nb

/-- R191: the next lane finds the phase of this one, and one place less. -/
theorem decryptLane (hp : s.status.phase = .decData) {n : Nat} (hroom : s.pbCount.toNat + (n + 1) ≤ s.pbufBlocks.toNat)
    (l : Fin 4) :
    (s.decryptLane l).Inv ∧ (s.decryptLane l).status.phase = .decData ∧
      (s.decryptLane l).pbCount.toNat + n ≤ (s.decryptLane l).pbufBlocks.toNat := by
  refine ⟨(hs.pushPlain hp (by omega) _).absorb _ _, hp, ?_⟩
  rw [State.decryptLane_pbCount, State.decryptLane_pbufBlocks, toNat_pbCount_succ (by omega)]
  omega

theorem decryptLanes (hp : s.status.phase = .decData) (hroom : s.pbCount.toNat + 4 ≤ s.pbufBlocks.toNat) :
    ((((s.decryptLane 0).decryptLane 1).decryptLane 2).decryptLane 3).Inv := by
  obtain ⟨h0, hp, hroom⟩ := hs.decryptLane hp hroom 0
  obtain ⟨h1, hp, hroom⟩ := h0.decryptLane hp hroom 1
  obtain ⟨h2, hp, hroom⟩ := h1.decryptLane hp hroom 2
  exact (h2.decryptLane hp hroom 3).1

theorem effect {i : Instr} (hc : completes i s = true) : (effect i s).Inv := by
  cases i with
  | nop => exact hs
  | keyExpand | ctxClear | aeadAbort => exact of_closed rfl nofun rfl rfl rfl (Nat.le_refl 0) hs.busyNotDone
  | blockEnc | blockDec | batch4Enc | batch4Dec | ghashInit | ghashUpdate => exact hs.write_unconstrained ..
  | ghashSeth | hashkeyDerive => exact hs.loadH _
  | aeadInitEnc | aeadInitDec => exact hs.startMessage (Bool.and_eq_true_iff.mp hc).1 rfl
  | aeadAad nb =>
    simp only [Machine.effect]
    split
    · exact hs
    · exact hs.absorbAad (completes_aeadAad_iff.mp hc).2 nb
  | aeadEnc nb =>
    have hopen := openPlaintext_of_mayEncrypt (completes_aeadEnc_iff.mp hc).2
    simp only [Machine.effect]
    split
    · exact hs.openPlaintext
    · exact hs.openPlaintext.encryptChunk (by rw [hopen]; rfl) nb
  | aeadDec nb =>
    obtain ⟨-, hdec, hroom⟩ := completes_aeadDec_iff.mp hc
    have hopen := openCiphertext_of_mayDecrypt hdec
    simp only [Machine.effect]
    split
    case isTrue => exact hs.openCiphertext
    case isFalse hn =>
      rw [if_neg hn] at hroom
      exact hs.openCiphertext.decryptChunk (by rw [hopen]; rfl) (by simpa [pbufHasRoom_iff] using hroom) nb
  | aeadFinal =>
    cases hp : s.status.phase with
    | encAad | encData =>
      simpa only [Machine.effect, hp] using hs.emitTag (by rw [hp]; rfl) (by rw [hp]; nofun)
    | decAad | decData => simpa only [Machine.effect, hp] using hs.verified
    | idle | encDone | decVerified | failed => simp [completes, hp] at hc
  | aeadPtRead => exact hs.releaseBlock (hasVerifiedBlock_iff.mp hc).2
  | aeadEnc4 => exact (((hs.openPlaintext.encryptLane 0).encryptLane 1).encryptLane 2).encryptLane 3
  | aeadDec4 =>
    obtain ⟨hdec, hroom⟩ := completes_aeadDec4_iff.mp hc
    have hopen := openCiphertext_of_mayDecrypt hdec
    exact hs.openCiphertext.decryptLanes (by rw [hopen]; rfl) (by simpa using hroom)

/-! ### Commands, host accesses, steps -/

theorem exec {i : Instr} {t : State} (h : exec i s = .next t) : t.Inv := by
  cases hc : completes i s with
  | true =>
    rw [exec_of_completes hc] at h
    cases h
    exact (hs.effect hc).complete _
  | false =>
    obtain ⟨e, -, -, -, he⟩ | ⟨-, hdec, he⟩ | ⟨-, hp, -, he⟩ := exec_of_not_completes hc <;> rw [he] at h <;> cases h
    · exact hs.complete e
    · have hin : s.status.phase.inMessage = true := by
        obtain h | ⟨h, -⟩ := takesCiphertext_iff.mp hdec <;> rw [h] <;> rfl
      exact (hs.failMessage hin).complete _
    · have hin : s.status.phase.inMessage = true := inMessage_iff_inMsg.mpr (.inr (.inr hp))
      exact (hs.closeHash.failMessage hin).complete _

theorem runWord {w : Word} {t : State} (h : runWord w s = .next t) : t.Inv := by
  obtain ⟨i, -, hi⟩ | ⟨r, -, rfl⟩ := runWord_next h
  · exact hs.exec hi
  · exact hs.complete _

theorem writeAt (off : Nat) (v : Word) : (s.writeAt off v).Inv := by
  obtain h | h | h | ⟨key, nonce, tagin, din, hkeyin, h⟩ := writeAt_cases s off v <;> rw [h]
  · exact hs.issue v
  · exact hs.write_unconstrained ..
  · exact hs.write_unconstrained ..
  · exact hs.write_unconstrained ..

theorem advance : s.advance.Inv := hs.write_unconstrained ..

theorem step {t : State} (h : step s = .next t) : t.Inv := by
  obtain ⟨w, -, -, hw⟩ | ⟨-, -, rfl⟩ | ⟨a, rest, v, d, -, rfl⟩ | ⟨a, v, rest, -, ⟨-, rfl⟩ | ⟨-, rfl⟩⟩ | ⟨rest, -, rfl⟩ :=
    step_cases h
  · exact hs.advance.runWord hw
  · exact hs.advance
  · exact hs.write_unconstrained ..
  · exact hs.write_unconstrained ..
  · exact hs.advance.writeAt a.off v
  · exact resetCore s.advance

end State.Inv

/-- Settles O52, by the kinds of step: the pending word, an idle turn, a host access, RESET. -/
theorem stepKeepsTheInvariants : Obligations.StepKeepsTheInvariants := fun _ _ hs h => hs.step h

/-- R5: the capacity is in 1..65535, whatever constant the core has. -/
theorem one_le_pbufBlocks : 1 ≤ Config.pbufBlocks.toNat := by
  have hlt := Config.pbufSpare.isLt
  rw [Config.pbufBlocks, BitVec.toNat_ofNat, Nat.mod_eq_of_lt (by omega)]
  exact Nat.le_add_left 1 _

theorem State.Legal.reset : State.reset.Legal where
  cmdIsPending := nofun
  tagLenLegal := sixteen_legal
  latchedTagLenLegal := sixteen_legal
  capacityLegal := one_le_pbufBlocks
  errLegal := ⟨.ok, rfl⟩
  pbufCanonical := rfl
  pbufBelowCount := fun _ _ => rfl
  keyIsSchedule := nofun
  messageSubkey := nofun
  messageJ0 := nofun

/-- Settles O51: the state of R260 is the one RESET leads to from itself. -/
theorem invariantsHoldAtReset : Obligations.InvariantsHoldAtReset := ⟨State.Inv.resetCore State.reset, State.Legal.reset⟩

end Sys2Proof.Machine
end

section
/-!
PROOFS. How a command ends (spec/60_exceptions.md R230 to R232), that a step finds one to take (R231, R238), and what no register
reads (R245).
-/

namespace Sys2Proof.Machine

/-! ### The end of a command -/

/-- R230: the codes. -/
theorem code_mem (e : ErrCode) : e.code ∈ [0, 1, 2, 3, 4, 6, 7, 8, 9] := by cases e <;> decide

/-- R230: code 3 is AUTHENTICATION_FAILURE's. -/
theorem code_eq_three_iff {e : ErrCode} : e.code = 3 ↔ e = .authenticationFailure := by cases e <;> decide

/-- R230: code 4 is BUFFER_TOO_SMALL's. -/
theorem code_eq_four_iff {e : ErrCode} : e.code = 4 ↔ e = .bufferTooSmall := by cases e <;> decide

/-- What no command writes: the host's side, CMD, CFG, OVR and CAPS. -/
theorem exec_frame {i : Instr} {s t : State} (h : exec i s = .next t) :
    t.host = s.host ∧ t.cmd = s.cmd ∧ t.cfg = s.cfg ∧ t.status.ovr = s.status.ovr ∧ t.pbufBlocks = s.pbufBlocks := by
  obtain ⟨e, rfl⟩ | ⟨-, rfl⟩ | ⟨-, rfl⟩ | ⟨-, rfl⟩ := exec_cases h
  · exact ⟨rfl, rfl, rfl, rfl, rfl⟩
  · exact ⟨rfl, rfl, rfl, rfl, rfl⟩
  · exact ⟨rfl, rfl, rfl, rfl, rfl⟩
  · cases i with
    | aeadAad nb | aeadEnc nb | aeadDec nb => by_cases hn : nb = 0#5 <;> simp [effect, hn]
    | aeadFinal => cases hp : s.status.phase <;> simp [effect, hp]
    | _ => simp [effect]

/-- Settles O8: a command's next state is a completed one. -/
theorem everyCommandEnds : Obligations.EveryCommandEnds := by
  intro i s
  obtain ⟨u, e, h⟩ := exec_next i s
  exact ⟨u.complete e, h, rfl, rfl, code_mem e, exec_frame h⟩

/-- Settles O9: a command that ends with an error has not had its effect, and each way of failing has its own code. -/
theorem errorsChangeOnlyWhatIsListed : Obligations.ErrorsChangeOnlyWhatIsListed := by
  intro i s t h herr
  cases hc : completes i s with
  | true =>
    rw [exec_of_completes hc] at h
    cases h
    exact absurd rfl herr
  | false =>
    obtain ⟨e, -, hfull, hauth, he⟩ | ⟨-, -, he⟩ | ⟨-, -, -, he⟩ := exec_of_not_completes hc <;> rw [he] at h <;> cases h
    · exact ⟨fun h4 => absurd (code_eq_four_iff.mp h4) hfull, fun h3 => absurd (code_eq_three_iff.mp h3) hauth,
        fun _ _ => rfl⟩
    · exact ⟨fun _ => rfl, nofun, fun _ h4 => absurd rfl h4⟩
    · exact ⟨nofun, fun _ => rfl, fun h3 => absurd rfl h3⟩

/-! ### The step -/

/-- Settles O5: the core's move is EXEC on the pending word, which decodes to the command. -/
theorem stepRunsThePendingCommand : Obligations.StepRunsThePendingCommand := by
  intro s w i hp hm hd
  have hstep : step s = runWord w (Claims.moved s) := step_of_pending hm hp
  rw [hstep, runWord, hd]

/-- R231: EXEC of any word ends. -/
theorem runWord_goes_on (w : Word) (s : State) : ∃ t, runWord w s = .next t := by
  unfold runWord
  cases decode w with
  | instr i =>
    obtain ⟨u, e, h⟩ := exec_next i s
    exact ⟨_, h⟩
  | illegal r => exact ⟨_, rfl⟩

/-- R74: an admitted write is dropped or stored. -/
theorem hostWrite_goes_on {a : Access} (ha : Claims.admitted a) (v : Word) (s : State) : ∃ t, hostWrite a v s = .next t := by
  rw [hostWrite, (refusal_eq_none_iff a).mpr ha]
  exact if h : s.busy = true then ⟨_, if_pos h⟩ else ⟨_, if_neg h⟩

namespace State.Legal

variable {s : State} (hs : s.Legal)

include hs

/-- R230, R238: a legal ERR is no fault to report. -/
theorem reportedFault_eq_none : reportedFault s.status.err = none := by
  obtain ⟨e, he⟩ := hs.errLegal
  rw [he, reportedFault_code]

theorem hostRead_goes_on {a : Access} (ha : Claims.admitted a) : ∃ t, hostRead a s = .next t := by
  rw [hostRead, (refusal_eq_none_iff a).mpr ha]
  cases s.pending with
  | some w =>
    obtain ⟨v, d, h, -⟩ := readBusy_next a.off w s
    exact ⟨_, h⟩
  | none => exact ⟨_, readIdle_eq ha.2.1 ha.2.2 fun _ => hs.errLegal⟩

theorem afterSchedule_goes_on : ∃ t, afterSchedule s = .next t := by
  unfold afterSchedule
  cases s.pending with
  | some w => exact runWord_goes_on w s
  | none => exact ⟨s, by rw [hs.reportedFault_eq_none]⟩

end State.Legal

/-- Settles O54, by the next event of the schedule. -/
theorem stepsGoOn : Obligations.StepsGoOn := by
  intro s hs hadmitted hreset
  cases hsched : s.host.schedule with
  | nil =>
    have hstep : step s = afterSchedule s := by rw [step, runNext, hsched]
    exact hstep ▸ hs.afterSchedule_goes_on
  | cons e rest =>
    rw [step_of_event hsched]
    cases e with
    | coreTurn =>
      unfold runEvent coreTurn
      cases (Claims.moved s).pending with
      | some w => exact runWord_goes_on w _
      | none => exact ⟨_, rfl⟩
    | read a => exact hs.advance.hostRead_goes_on (hadmitted a 0 rest (.inl hsched))
    | write a v => exact hostWrite_goes_on (hadmitted a v rest (.inr hsched)) v _
    | reset => exact ⟨_, rfl⟩
    | accessInReset a => exact absurd hsched (hreset a rest)

/-! ### What no register reads -/

/-- Settles O21, register by register: KEY and HKEYIN read 0, and the others show none of the fields. -/
theorem noRegisterReadsTheSecrets : Obligations.NoRegisterReadsTheSecrets := by
  intro s key hkeyin rk h j0 pbuf off
  unfold State.valueAt
  cases regAt off with
  | none => rfl
  | some r => cases r <;> rfl

end Sys2Proof.Machine
end

section
/-!
PROOFS. The reset state as the window shows it, field by field and inside (spec/70_reset_and_hazards.md R260, R262), and RESET in
any state (R261).
-/

namespace Sys2Proof.Machine

/-! ### The words and arrays at reset -/

/-- R260: STATUS is 0, which takes in that BUSY is 0. -/
theorem State.reset_statusWord : State.reset.statusWord = 0x00000000 := by decide

/-- R260: the reset word of CFG is that of its four fields. -/
theorem State.reset_cfgWord : State.reset.cfg.word = 0x100C1000 := by decide

/-- R260: the registers of four words or lanes hold 0 in each. -/
theorem State.reset_key_tagin_hkeyin_dout (k : Fin 4) :
    State.reset.key[k] = 0 ∧ State.reset.tagin[k] = 0 ∧ State.reset.hkeyin[k] = 0 ∧ State.reset.dout[k] = 0 :=
  ⟨Vector.getElem_replicate k.isLt, Vector.getElem_replicate k.isLt, Vector.getElem_replicate k.isLt,
    Vector.getElem_replicate k.isLt⟩

theorem State.reset_nonce (k : Fin 3) : State.reset.nonce[k] = 0 := Vector.getElem_replicate k.isLt

theorem State.reset_rk (k : Fin 32) : State.reset.rk[k] = 0 := Vector.getElem_replicate k.isLt

/-- Each lane of DIN is zero, and so is each word of the lane. -/
theorem State.reset_din (l w : Fin 4) : State.reset.din[l][w] = 0 := by
  have hlane : State.reset.din[l] = Vector.replicate 4 0 := Vector.getElem_replicate l.isLt
  rw [hlane]
  exact Vector.getElem_replicate w.isLt

/-! ### The obligations -/

/-- Settles O10: the words, the arrays and the capacity by their lemmas; every other field is as written in `State.reset`. -/
theorem resetState : Obligations.ResetState := by
  have hpbuf (k : Nat) : Pbuf.get State.reset.pbuf k = 0 := rfl
  exact ⟨rfl, rfl, rfl, State.reset_statusWord, State.reset_cfgWord, rfl, rfl, rfl, rfl, State.reset_key_tagin_hkeyin_dout,
    State.reset_nonce, State.reset_din, State.reset_rk, rfl, rfl, rfl, rfl, rfl, rfl, rfl, rfl, hpbuf, rfl, rfl, rfl, one_le_pbufBlocks⟩

/-- Settles O11: the event is taken off the schedule first, and `resetCore` looks at CAPS and the host's side only, so a
command that is pending is dropped. -/
theorem resetInAnyState : Obligations.ResetInAnyState := by
  intro s rest hs
  calc step s = runEvent .reset (Claims.moved s) := step_of_event hs
    _ = .next (Claims.moved s).resetCore := rfl

end Sys2Proof.Machine
end
